-- ==== Sys2Proof/Word.lean ====
section
/-! DEFINITION. The word types of BKT-DEC: a 16-bit register and a command word. -/

namespace Sys2Proof

/-- A 16-bit register or checksum (00_scope.md R8). -/
abbrev Half := BitVec 16

/-- A command word, a response's data, a register as RDREG returns it: 32 bits, never split into bytes
(20_memory.md R42, 30_encoding.md R51). -/
abbrev Word := BitVec 32

end Sys2Proof
end

