-- ==== Sys2Proof/Syntax.lean ====
section
/-! DEFINITION. The command set of BKT-DEC: one constructor per row of spec/opcode_table.json, each operand a bit
vector of its field's width (30_encoding.md R53, R55). -/

namespace Sys2Proof

/-- A command of BKT-DEC (30_encoding.md R55). -/
inductive Instr where
  /-- NOP, opcode 0x00 (40_control.md R61). -/
  | nop
  /-- RESET, opcode 0x01 (40_control.md R62). -/
  | reset
  /-- RDREG r, opcode 0x02 (40_control.md R63). -/
  | rdreg (r : BitVec 8)
  /-- WRCFG ci, val, opcode 0x03 (40_control.md R64). -/
  | wrcfg (ci : BitVec 8) (val : BitVec 16)
  /-- MEMRD sp, a, opcode 0x04 (40_control.md R65). -/
  | memrd (sp : BitVec 4) (a : BitVec 20)
  /-- TP_START, opcode 0x10 (41_tape.md R68). -/
  | tpStart
  /-- TP_PULSE v, opcode 0x11 (41_tape.md R69). -/
  | tpPulse (v : BitVec 24)
  /-- TP_END, opcode 0x12 (41_tape.md R70). -/
  | tpEnd
  /-- FL_CLEAR, opcode 0x20 (42_floppy.md R93). -/
  | flClear
  /-- FL_PUSH v, opcode 0x21 (42_floppy.md R94). -/
  | flPush (v : BitVec 24)
  /-- FL_EST, opcode 0x22 (42_floppy.md R95). -/
  | flEst
  /-- FL_FIND, opcode 0x23 (42_floppy.md R98). -/
  | flFind
  /-- FL_SETPOS p, opcode 0x24 (42_floppy.md R100). -/
  | flSetpos (p : BitVec 21)
  /-- FL_READ n, opcode 0x25 (42_floppy.md R106). -/
  | flRead (n : BitVec 11)
  /-- FL_HDR, opcode 0x26 (42_floppy.md R107). -/
  | flHdr
  /-- FL_DATA s, opcode 0x27 (42_floppy.md R109). -/
  | flData (s : BitVec 2)
  /-- CRC_INIT, opcode 0x30 (43_checksum.md R116). -/
  | crcInit
  /-- CRC_BYTE b, opcode 0x31 (43_checksum.md R117). -/
  | crcByte (b : BitVec 8)
  /-- CRC_MARK m, opcode 0x32 (43_checksum.md R118). -/
  | crcMark (m : BitVec 8)
  /-- CRC_CHECK w, opcode 0x33 (43_checksum.md R119). -/
  | crcCheck (w : BitVec 16)
  /-- ADD_INIT, opcode 0x40 (43_checksum.md R123). -/
  | addInit
  /-- ADD_BYTE b, opcode 0x41 (43_checksum.md R124). -/
  | addByte (b : BitVec 8)
  /-- ADD_WORD w, opcode 0x42 (43_checksum.md R125). -/
  | addWord (w : BitVec 16)
  /-- ADD_CHECK w, opcode 0x43 (43_checksum.md R126). -/
  | addCheck (w : BitVec 16)
  deriving DecidableEq, Repr

end Sys2Proof
end

