-- ==== Sys2Proof/Decode.lean ====
section
/-! DEFINITION. The decoder of command words, total, rejecting by name (30_encoding.md R53 to R58), and after it the
encoder, written from the same tables. -/

namespace Sys2Proof

/-- Why a word is no command. Both are answered with the response code ILLEGAL (30_encoding.md R56, R57). -/
inductive DecodeError where
  /-- The opcode is not in the map of R55. -/
  | unlistedOpcode
  /-- A reserved operand bit of a listed opcode is set. -/
  | reservedBits
  deriving DecidableEq, Repr

/-- Format N: no operand (R53). -/
def formatN (f : BitVec 24) (i : Instr) : Except DecodeError Instr :=
  if f = 0#24 then .ok i else .error .reservedBits

/-- Format B8, and R8: an 8-bit operand, the rest zero (R53). -/
def formatB8 (f : BitVec 24) (k : BitVec 8 → Instr) : Except DecodeError Instr :=
  if f.extractLsb' 8 16 = 0#16 then .ok (k (f.extractLsb' 0 8)) else .error .reservedBits

/-- Format W16: a 16-bit operand, the rest zero (R53). -/
def formatW16 (f : BitVec 24) (k : BitVec 16 → Instr) : Except DecodeError Instr :=
  if f.extractLsb' 16 8 = 0#8 then .ok (k (f.extractLsb' 0 16)) else .error .reservedBits

/-- Format P21: a 21-bit operand, the rest zero (R53). -/
def formatP21 (f : BitVec 24) (k : BitVec 21 → Instr) : Except DecodeError Instr :=
  if f.extractLsb' 21 3 = 0#3 then .ok (k (f.extractLsb' 0 21)) else .error .reservedBits

/-- Format N11: an 11-bit operand, the rest zero (R53). -/
def formatN11 (f : BitVec 24) (k : BitVec 11 → Instr) : Except DecodeError Instr :=
  if f.extractLsb' 11 13 = 0#13 then .ok (k (f.extractLsb' 0 11)) else .error .reservedBits

/-- Format S2: a 2-bit operand, the rest zero (R53). -/
def formatS2 (f : BitVec 24) (k : BitVec 2 → Instr) : Except DecodeError Instr :=
  if f.extractLsb' 2 22 = 0#22 then .ok (k (f.extractLsb' 0 2)) else .error .reservedBits

/-- Format V24: the whole operand field (R53). -/
def formatV24 (f : BitVec 24) (k : BitVec 24 → Instr) : Except DecodeError Instr :=
  .ok (k f)

/-- Format CF: a configuration index and a value (R53). -/
def formatCF (f : BitVec 24) (k : BitVec 8 → BitVec 16 → Instr) : Except DecodeError Instr :=
  .ok (k (f.extractLsb' 16 8) (f.extractLsb' 0 16))

/-- Format MA: a buffer space and an element address (R53). -/
def formatMA (f : BitVec 24) (k : BitVec 4 → BitVec 20 → Instr) : Except DecodeError Instr :=
  .ok (k (f.extractLsb' 20 4) (f.extractLsb' 0 20))

/-- The command with an opcode and an operand field, by the opcode map of R55. -/
def decodeFields (opcode : Nat) (f : BitVec 24) : Except DecodeError Instr :=
  match opcode with
  | 0x00 => formatN f .nop
  | 0x01 => formatN f .reset
  | 0x02 => formatB8 f .rdreg
  | 0x03 => formatCF f .wrcfg
  | 0x04 => formatMA f .memrd
  | 0x10 => formatN f .tpStart
  | 0x11 => formatV24 f .tpPulse
  | 0x12 => formatN f .tpEnd
  | 0x20 => formatN f .flClear
  | 0x21 => formatV24 f .flPush
  | 0x22 => formatN f .flEst
  | 0x23 => formatN f .flFind
  | 0x24 => formatP21 f .flSetpos
  | 0x25 => formatN11 f .flRead
  | 0x26 => formatN f .flHdr
  | 0x27 => formatS2 f .flData
  | 0x30 => formatN f .crcInit
  | 0x31 => formatB8 f .crcByte
  | 0x32 => formatB8 f .crcMark
  | 0x33 => formatW16 f .crcCheck
  | 0x40 => formatN f .addInit
  | 0x41 => formatB8 f .addByte
  | 0x42 => formatW16 f .addWord
  | 0x43 => formatW16 f .addCheck
  | _ => .error .unlistedOpcode

/-- Decoding a command word (R51): `c[31:24]` is the opcode, `c[23:0]` the operand field. -/
def decode (c : Word) : Except DecodeError Instr :=
  decodeFields (c.extractLsb' 24 8).toNat (c.extractLsb' 0 24)

/-- The instruction the decoder reads from a word numbered as spec/opcode_table.json numbers it; none where it
refuses. -/
def decodeTableWord (nbits w : Nat) : Option Instr :=
  match decode (BitVec.ofNat 32 (w % 2 ^ nbits)) with
  | .ok i => some i
  | .error _ => none

/-- The opcode of a command (R55). -/
def opcodeOf : Instr → BitVec 8
  | .nop => 0x00#8
  | .reset => 0x01#8
  | .rdreg _ => 0x02#8
  | .wrcfg _ _ => 0x03#8
  | .memrd _ _ => 0x04#8
  | .tpStart => 0x10#8
  | .tpPulse _ => 0x11#8
  | .tpEnd => 0x12#8
  | .flClear => 0x20#8
  | .flPush _ => 0x21#8
  | .flEst => 0x22#8
  | .flFind => 0x23#8
  | .flSetpos _ => 0x24#8
  | .flRead _ => 0x25#8
  | .flHdr => 0x26#8
  | .flData _ => 0x27#8
  | .crcInit => 0x30#8
  | .crcByte _ => 0x31#8
  | .crcMark _ => 0x32#8
  | .crcCheck _ => 0x33#8
  | .addInit => 0x40#8
  | .addByte _ => 0x41#8
  | .addWord _ => 0x42#8
  | .addCheck _ => 0x43#8

/-- The operand field of a command, by its format (R53). -/
def operandOf : Instr → BitVec 24
  | .rdreg r => 0#16 ++ r
  | .wrcfg ci val => ci ++ val
  | .memrd sp a => sp ++ a
  | .tpPulse v => v
  | .flPush v => v
  | .flSetpos p => 0#3 ++ p
  | .flRead n => 0#13 ++ n
  | .flData s => 0#22 ++ s
  | .crcByte b => 0#16 ++ b
  | .crcMark m => 0#16 ++ m
  | .crcCheck w => 0#8 ++ w
  | .addByte b => 0#16 ++ b
  | .addWord w => 0#8 ++ w
  | .addCheck w => 0#8 ++ w
  | .nop => 0#24
  | .reset => 0#24
  | .tpStart => 0#24
  | .tpEnd => 0#24
  | .flClear => 0#24
  | .flEst => 0#24
  | .flFind => 0#24
  | .flHdr => 0#24
  | .crcInit => 0#24
  | .addInit => 0#24

/-- The word of a command: opcode above operand field (R51, R59). -/
def encode (i : Instr) : Word := opcodeOf i ++ operandOf i

/-- A row of spec/opcode_table.json: its mnemonic, and the match and mask a word is compared with (R57). -/
structure OpcodeRow where
  /-- The row's mnemonic, letter for letter. -/
  mnemonic : String
  /-- The value of the fixed bits. -/
  pattern : Word
  /-- The fixed bits: the opcode and every reserved bit. -/
  mask : Word
  deriving DecidableEq, Repr

/-- spec/opcode_table.json, row by row (R55, R57). -/
def opcodeTable : List OpcodeRow :=
  [⟨"NOP", 0x00000000#32, 0xFFFFFFFF#32⟩, ⟨"RESET", 0x01000000#32, 0xFFFFFFFF#32⟩,
   ⟨"RDREG", 0x02000000#32, 0xFFFFFF00#32⟩, ⟨"WRCFG", 0x03000000#32, 0xFF000000#32⟩,
   ⟨"MEMRD", 0x04000000#32, 0xFF000000#32⟩, ⟨"TP_START", 0x10000000#32, 0xFFFFFFFF#32⟩,
   ⟨"TP_PULSE", 0x11000000#32, 0xFF000000#32⟩, ⟨"TP_END", 0x12000000#32, 0xFFFFFFFF#32⟩,
   ⟨"FL_CLEAR", 0x20000000#32, 0xFFFFFFFF#32⟩, ⟨"FL_PUSH", 0x21000000#32, 0xFF000000#32⟩,
   ⟨"FL_EST", 0x22000000#32, 0xFFFFFFFF#32⟩, ⟨"FL_FIND", 0x23000000#32, 0xFFFFFFFF#32⟩,
   ⟨"FL_SETPOS", 0x24000000#32, 0xFFE00000#32⟩, ⟨"FL_READ", 0x25000000#32, 0xFFFFF800#32⟩,
   ⟨"FL_HDR", 0x26000000#32, 0xFFFFFFFF#32⟩, ⟨"FL_DATA", 0x27000000#32, 0xFFFFFFFC#32⟩,
   ⟨"CRC_INIT", 0x30000000#32, 0xFFFFFFFF#32⟩, ⟨"CRC_BYTE", 0x31000000#32, 0xFFFFFF00#32⟩,
   ⟨"CRC_MARK", 0x32000000#32, 0xFFFFFF00#32⟩, ⟨"CRC_CHECK", 0x33000000#32, 0xFFFF0000#32⟩,
   ⟨"ADD_INIT", 0x40000000#32, 0xFFFFFFFF#32⟩, ⟨"ADD_BYTE", 0x41000000#32, 0xFFFFFF00#32⟩,
   ⟨"ADD_WORD", 0x42000000#32, 0xFFFF0000#32⟩, ⟨"ADD_CHECK", 0x43000000#32, 0xFFFF0000#32⟩]

/-- The row's match and mask accept the word: `(c & mask) == match` (R57). -/
def OpcodeRow.accepts (row : OpcodeRow) (c : Word) : Bool := c &&& row.mask == row.pattern

end Sys2Proof
end

