-- ==== Sys2Proof/Config.lean ====
section
/-! DEFINITION. The implementation parameters of 00_scope.md R7. The spec says that the model takes them as
arguments. `exec` has no argument for them but the state, so a state carries them (log 3). -/

namespace Sys2Proof

/-- The parameters of 00_scope.md R7. P_FL_BOUND, a positive rational, is the fraction `boundNum / boundDen`. -/
structure Params where
  /-- P_FIC_STD, the reset value of CFG_FIC_STD. -/
  ficStd : Half
  /-- P_MLEN_HDR, the reset value of CFG_MLEN_HDR. -/
  mlenHdr : Half
  /-- P_MLEN_BODY, the reset value of CFG_MLEN_BODY. -/
  mlenBody : Half
  /-- P_MLEN_END, the reset value of CFG_MLEN_END. -/
  mlenEnd : Half
  /-- P_FM_DEPTH, the number of entries of the flux memory. -/
  fmDepth : Nat
  /-- The numerator of P_FL_BOUND. -/
  boundNum : Nat
  /-- The denominator of P_FL_BOUND. -/
  boundDen : Nat
  deriving DecidableEq, Repr

/-- The legal values of R7: P_FIC_STD is 1..65535, P_FM_DEPTH is 1..2^20, P_FL_BOUND is a positive rational.
Every 16-bit marker length is legal. -/
def Params.legal (p : Params) : Bool :=
  p.ficStd != 0#16 && decide (1 ≤ p.fmDepth) && decide (p.fmDepth ≤ 1048576) &&
    decide (0 < p.boundNum) && decide (0 < p.boundDen)

/-- The parameters of `State.reset`. P_FM_DEPTH = 2^20 and P_FL_BOUND = 14/5 are the defaults of R7 (log 4).
The other four are OPEN in the spec: DESIGN CHOICE, unsafe (log 3). No statement rests on them. -/
def Params.default : Params where
  ficStd := 1#16
  mlenHdr := 0#16
  mlenBody := 0#16
  mlenEnd := 0#16
  fmDepth := 1048576
  boundNum := 14
  boundDen := 5

end Sys2Proof
end

