-- ==== Sys2Proof/Machine/State.lean ====
section
/-! DEFINITION. The architectural state of BKT-DEC (10_state.md, 20_memory.md), the reasons a step can stop, and the
state after reset (70_reset_and_hazards.md R143). -/

namespace Sys2Proof.Machine

/-- Why the model stops. Each is raised only in states that no run of commands reaches, and each is safe: the model
stops where the spec gives no meaning, and no step from a state that satisfies `State.Inv` raises one. -/
inductive Fault where
  /-- Raised by a read or write of a buffer element at or above the buffer's size, which 20_memory.md R33 says does not
  exist (MEMRD, TP_PULSE, FL_PUSH, FL_EST, FL_FIND, FL_READ, FL_HDR, FL_DATA). Safe (log 6). -/
  | noSuchElement
  /-- Raised by a read of a buffer element that nothing has written, whose contents are unspecified and never
  observable (20_memory.md R36): MEMRD, TP_PULSE, FL_EST, FL_FIND, FL_READ, FL_HDR, FL_DATA. Safe (log 5). -/
  | unwrittenElement
  /-- Raised by TP_PULSE in a marker phase whose TP_MSUB is NONE, for which 41_tape.md R76 has no step. Safe (log 8). -/
  | noMarkerStep
  /-- Raised by TP_PULSE when a third byte of the checksum segment completes: TP_CKREAD holds two (41_tape.md R84).
  Safe (log 9). -/
  | noChecksumByte
  deriving DecidableEq, Repr

/-- Why an instruction has no meaning. Nothing raises one: every command of the table has its meaning. -/
inductive Refusal where
  /-- An instruction that the model does not model, by its mnemonic in spec/opcode_table.json. Raised by no arm of
  `exec`. Safe. -/
  | notModelled (mnemonic : String)
  deriving DecidableEq, Repr

/-- The response codes of 60_exceptions.md R128. Codes 5 to 7 are never produced. -/
inductive RespCode where
  /-- 0: the command was carried out. -/
  | ok
  /-- 1: unlisted opcode or non-zero reserved operand bits. -/
  | illegal
  /-- 2: an operand outside the command's legal range. -/
  | badarg
  /-- 3: the command is not allowed in the unit's current state. -/
  | seq
  /-- 4: the command raised a fatal error. -/
  | fatal
  deriving DecidableEq, Repr

/-- The response to a command: a code and 32 bits of data (30_encoding.md R52). -/
structure Response where
  code : RespCode
  data : Word
  deriving DecidableEq, Repr

/-- The values of TP_PHASE (10_state.md R22). The codes 11 to 14 are never held (log 10). -/
inductive Phase where
  | idle
  | findPilot
  | pilotFound
  | pilotFound2
  | headerMarker
  | readHeader
  | bodyMarker
  | readData
  | cksum
  | endTrailer
  | done
  | fatal
  deriving DecidableEq, Repr

/-- The values of TP_MSUB (10_state.md R21). -/
inductive MarkerSub where
  | none
  | lead
  | mid
  | final
  | sync1
  | sync0
  deriving DecidableEq, Repr

/-- The error kinds of TP_ERR and FL_ERR (10_state.md R30). -/
inductive ErrKind where
  | none
  | calibration
  | marker
  | bitTiming
  | protocol
  | truncated
  deriving DecidableEq, Repr

/-- The values of FL_STATE (10_state.md R25). -/
inductive FloppyMode where
  | ready
  | fatal
  deriving DecidableEq, Repr

/-- The five buffer spaces (20_memory.md R33). -/
inductive Space where
  | tb
  | hb
  | fb
  | fom
  | fm
  deriving DecidableEq, Repr

/-- The two units that have a FATAL state (60_exceptions.md R131). -/
inductive UnitId where
  | tape
  | floppy
  deriving DecidableEq, Repr

/-- The TAPE unit's registers (10_state.md R21). -/
structure TapeRegs where
  /-- TP_PHASE -/
  phase : Phase
  /-- TP_ERR -/
  err : ErrKind
  /-- TP_WARN (R23): bit 0 PF1, bit 1 PF2, bit 2 MARK. -/
  warn : BitVec 3
  /-- TP_PN -/
  pn : BitVec 32
  /-- TP_PS, read as TP_PS_LO and TP_PS_HI. -/
  ps : BitVec 64
  /-- TP_L0H -/
  l0h : BitVec 32
  /-- TP_CUT -/
  cut : BitVec 32
  /-- TP_ACC -/
  acc : BitVec 8
  /-- TP_BITCNT -/
  bitcnt : BitVec 3
  /-- TP_SYNCPH: true when the next read_bit pulse is a sync-bit pulse. -/
  syncph : Bool
  /-- TP_REM -/
  rem : BitVec 16
  /-- TP_MSUB -/
  msub : MarkerSub
  /-- TP_MCNT -/
  mcnt : BitVec 16
  /-- TP_MFIC -/
  mfic : BitVec 16
  /-- TP_MLENIENT -/
  mlenient : Bool
  /-- TP_HCNT -/
  hcnt : BitVec 5
  /-- TP_BCNT -/
  bcnt : BitVec 17
  /-- TP_CCNT -/
  ccnt : BitVec 2
  /-- TP_START_ADDR -/
  startAddr : BitVec 16
  /-- TP_LENGTH -/
  length : BitVec 16
  /-- TP_CKREAD -/
  ckread : BitVec 16
  /-- TP_SUM -/
  sum : BitVec 16
  /-- TP_CKSTAT: bit 0 DONE, bit 1 OK. -/
  ckstat : BitVec 2
  deriving DecidableEq, Repr

/-- The FLOPPY unit's registers (10_state.md R25). -/
structure FloppyRegs where
  /-- FL_STATE -/
  mode : FloppyMode
  /-- FL_ERR -/
  err : ErrKind
  /-- FL_COUNT -/
  count : BitVec 21
  /-- FL_SS, read as FL_SS_LO and FL_SS_HI. -/
  ss : BitVec 64
  /-- FL_SK -/
  sk : BitVec 21
  /-- FL_SVALID -/
  svalid : Bool
  /-- FL_POS -/
  pos : BitVec 21
  /-- FL_MPOS -/
  mpos : BitVec 21
  /-- FL_MFOUND -/
  mfound : Bool
  /-- FL_FSTAT (R26) -/
  fstat : BitVec 8
  /-- FL_FBLEN -/
  fblen : BitVec 11
  /-- FL_NSYM -/
  nsym : BitVec 14
  /-- FL_TRACK -/
  track : BitVec 8
  /-- FL_SIDE -/
  side : BitVec 8
  /-- FL_SECTOR -/
  sector : BitVec 8
  /-- FL_SIZE -/
  size : BitVec 8
  /-- FL_CRC_READ -/
  crcRead : BitVec 16
  /-- FL_CRC_CALC -/
  crcCalc : BitVec 16
  /-- FL_DLEN -/
  dlen : BitVec 11
  deriving DecidableEq, Repr

/-- The configuration registers (10_state.md R28). -/
structure ConfigRegs where
  /-- CFG_FIC_STD -/
  ficStd : BitVec 16
  /-- CFG_FIC_END -/
  ficEnd : BitVec 16
  /-- CFG_MLEN_HDR -/
  mlenHdr : BitVec 16
  /-- CFG_MLEN_BODY -/
  mlenBody : BitVec 16
  /-- CFG_MLEN_END -/
  mlenEnd : BitVec 16
  /-- CFG_END_LENIENT -/
  endLenient : Bool
  /-- CFG_DBG -/
  dbg : BitVec 16
  deriving DecidableEq, Repr

/-- The elements of a buffer that something has written, as (address, element) pairs with the addresses strictly
rising (`Memory.wf`). An element that is not listed has no value (20_memory.md R36; log 5). With 8-bit elements this
is a list of `Host.Cell`. -/
abbrev Memory (w : Nat) := List (Nat × BitVec w)

/-- The state of BKT-DEC. `params`, `pending` and `resp` are the model's own (logs 1, 2, 3); all else is the spec's. -/
structure State where
  /-- The implementation parameters of 00_scope.md R7. No command writes them. -/
  params : Params
  /-- The CRC register (10_state.md R19). -/
  crc : BitVec 16
  /-- The SUM register (10_state.md R20). -/
  sum : BitVec 16
  /-- The TP_* registers (10_state.md R21). -/
  tape : TapeRegs
  /-- The FL_* registers (10_state.md R25). -/
  floppy : FloppyRegs
  /-- The CFG_* registers (10_state.md R28). -/
  cfg : ConfigRegs
  /-- The tape body TB (20_memory.md R33). -/
  tb : List Host.Cell
  /-- The tape header HB. -/
  hb : List Host.Cell
  /-- The floppy field bytes FB. -/
  fb : List Host.Cell
  /-- The floppy 'o' masks FOM. -/
  fom : List Host.Cell
  /-- The flux memory FM, of 24-bit elements. -/
  fm : List (Nat × BitVec 24)
  /-- The command words the host has issued and the block has not yet taken, oldest first (20_memory.md R46). -/
  pending : List (BitVec 32)
  /-- The response to the last command (30_encoding.md R52), none before the first. -/
  resp : Option Response
  deriving DecidableEq, Repr

/-- The reset column of 10_state.md R21. -/
def TapeRegs.reset : TapeRegs where
  phase := .idle
  err := .none
  warn := 0#3
  pn := 0#32
  ps := 0#64
  l0h := 0#32
  cut := 0#32
  acc := 0#8
  bitcnt := 0#3
  syncph := false
  rem := 0#16
  msub := .none
  mcnt := 0#16
  mfic := 0#16
  mlenient := false
  hcnt := 0#5
  bcnt := 0#17
  ccnt := 0#2
  startAddr := 0#16
  length := 0#16
  ckread := 0#16
  sum := 0#16
  ckstat := 0#2

/-- The reset column of 10_state.md R25. -/
def FloppyRegs.reset : FloppyRegs where
  mode := .ready
  err := .none
  count := 0#21
  ss := 0#64
  sk := 0#21
  svalid := false
  pos := 0#21
  mpos := 0#21
  mfound := false
  fstat := 0#8
  fblen := 0#11
  nsym := 0#14
  track := 0#8
  side := 0#8
  sector := 0#8
  size := 0#8
  crcRead := 0#16
  crcCalc := 0#16
  dlen := 0#11

/-- The reset column of 10_state.md R28: four registers take the OPEN parameters. -/
def ConfigRegs.reset (p : Params) : ConfigRegs where
  ficStd := p.ficStd
  ficEnd := 9#16
  mlenHdr := p.mlenHdr
  mlenBody := p.mlenBody
  mlenEnd := p.mlenEnd
  endLenient := true
  dbg := 0#16

/-- The state at power-on of a block with the parameters `p` (70_reset_and_hazards.md R143): every register at its
reset value, no element written, no command issued, no response given. -/
def State.powerOn (p : Params) : State where
  params := p
  crc := 0xFFFF#16
  sum := 0#16
  tape := TapeRegs.reset
  floppy := FloppyRegs.reset
  cfg := ConfigRegs.reset p
  tb := []
  hb := []
  fb := []
  fom := []
  fm := []
  pending := []
  resp := none

/-- The machine right after reset, with the parameters of `Params.default` (logs 3, 4). -/
def State.reset : State := State.powerOn Params.default

end Sys2Proof.Machine
end

