-- ==== Sys2Proof/Machine/Ops.lean ====
section
/-! DEFINITION. The named operations over buffers and registers (20_memory.md), the response (30_encoding.md R52), and
raising a fatal error, the spec's one kind of exception (60_exceptions.md R131). -/

namespace Sys2Proof.Machine

/-! ### Buffers -/

/-- The canonical form of a buffer: addresses strictly rising, so that no element is listed twice and equal contents
are equal lists. An unlisted element has no value, so no entry can equal what it reads as. -/
abbrev Memory.wf {w : Nat} (m : Memory w) : Prop := m.Pairwise fun x y => x.1 < y.1

/-- The value of one element, none where nothing has written it. -/
def Memory.read {w : Nat} : Memory w → Nat → Option (BitVec w)
  | [], _ => none
  | (b, v) :: m, a => if a = b then some v else Memory.read m a

/-- Writing one element, in canonical form. -/
def Memory.write {w : Nat} : Memory w → Nat → BitVec w → Memory w
  | [], a, v => [(a, v)]
  | (b, u) :: m, a, v =>
    if a < b then (a, v) :: (b, u) :: m
    else if a = b then (a, v) :: m
    else (b, u) :: Memory.write m a v

/-- The `n` elements from address `a` on, none where one of them has no value. -/
def Memory.readSpan {w : Nat} : Memory w → Nat → Nat → Option (List (BitVec w))
  | _, _, 0 => some []
  | [], _, _ + 1 => none
  | (b, v) :: m, a, n + 1 =>
    if b = a then (Memory.readSpan m (a + 1) n).map (v :: ·)
    else if b < a then Memory.readSpan m a (n + 1)
    else none

/-- Writing a list of elements from address `a` on. -/
def Memory.writeSpan {w : Nat} (m : Memory w) (a : Nat) : List (BitVec w) → Memory w
  | [] => m
  | v :: vs => Memory.writeSpan (Memory.write m a v) (a + 1) vs

/-- The number of elements of a space (20_memory.md R33). -/
def State.size (s : State) : Space → Nat
  | .tb => 65536
  | .hb => 20
  | .fb => 1030
  | .fom => 1030
  | .fm => s.params.fmDepth

/-- The first address of a space that the host cannot read: its fill count (20_memory.md R33, 40_control.md R65). -/
def State.limit (s : State) : Space → Nat
  | .tb => s.tape.bcnt.toNat
  | .hb => s.tape.hcnt.toNat
  | .fb => s.floppy.fblen.toNat
  | .fom => s.floppy.fblen.toNat
  | .fm => s.floppy.count.toNat

/-- The value of one element of a space, zero-extended to 32 bits; none where nothing has written it. Registers apart,
this is everything of the buffers that an instruction can see (20_memory.md R44). -/
def State.element (s : State) (sp : Space) (a : Nat) : Option Word :=
  match sp with
  | .tb => (Memory.read s.tb a).map fun v => v.setWidth 32
  | .hb => (Memory.read s.hb a).map fun v => v.setWidth 32
  | .fb => (Memory.read s.fb a).map fun v => v.setWidth 32
  | .fom => (Memory.read s.fom a).map fun v => v.setWidth 32
  | .fm => (Memory.read s.fm a).map fun v => v.setWidth 32

/-- Why a command does not complete as its rule's pseudocode runs: it raises a fatal error (60_exceptions.md R131), or
the model stops. -/
inductive Stop where
  /-- `raise Fatal(unit, kind)`, for the unit of the command. -/
  | fatal (kind : ErrKind)
  /-- The model stops. -/
  | fault (reason : Fault)
  deriving DecidableEq, Repr

/-- `MemRead(space, addr, 1)` (00_scope.md R11), zero-extended. -/
def State.memRead (s : State) (sp : Space) (a : Nat) : Except Fault Word :=
  if s.size sp ≤ a then .error .noSuchElement
  else match s.element sp a with
    | some v => .ok v
    | none => .error .unwrittenElement

/-- The flux intervals `FM[a .. a + n − 1]`, in order, as numbers. -/
def State.fluxSpan (s : State) (a n : Nat) : Except Stop (List Nat) :=
  if n ≠ 0 ∧ s.size .fm < a + n then .error (.fault .noSuchElement)
  else match Memory.readSpan s.fm a n with
    | some vs => .ok (vs.map BitVec.toNat)
    | none => .error (.fault .unwrittenElement)

/-! ### Responses and commands -/

/-- `respond(code, data)` (00_scope.md R11). -/
def State.respond (s : State) (code : RespCode) (data : Word) : State :=
  { s with resp := some ⟨code, data⟩ }

/-- A command refused with `code`: it changes nothing and its data is 0 (30_encoding.md R52, 60_exceptions.md R129). -/
def State.refuse (s : State) (code : RespCode) : State := s.respond code 0#32

/-- The block takes the oldest command word the host has issued; none when it is idle (20_memory.md R46,
60_exceptions.md R142). -/
def State.takeCommand (s : State) : Option (Word × State) :=
  match s.pending with
  | [] => none
  | c :: cs => some (c, { s with pending := cs })

/-! ### Fatal errors -/

/-- `raise Fatal(unit, kind)` (60_exceptions.md R131): the unit enters its FATAL state with the error kind, and
nothing else changes. -/
def State.raiseFatal (s : State) (u : UnitId) (kind : ErrKind) : State :=
  match u with
  | .tape => { s with tape := { s.tape with phase := .fatal, err := kind } }
  | .floppy => { s with floppy := { s.floppy with mode := .fatal, err := kind } }

/-! ### Exact arithmetic (00_scope.md R10) -/

/-- `rhe(a / b)`: the integer nearest to the rational `a / b`, a tie going to the even one. -/
def rhe (a b : Nat) : Nat :=
  if 2 * (a % b) < b then a / b
  else if b < 2 * (a % b) then a / b + 1
  else if a / b % 2 = 0 then a / b
  else a / b + 1

/-- A register with bit `k` set: `R[k] <- 1` (00_scope.md R9, R11). -/
def setBit {w : Nat} (v : BitVec w) (k : Nat) : BitVec w := v ||| BitVec.twoPow w k

end Sys2Proof.Machine
end

