-- ==== Sys2Proof/Machine/Operands.lean ====
section
/-! DEFINITION. What an operand names: the codes of enumerated registers (10_state.md R22, R30), a register by its
index (R18), a buffer space by its number (20_memory.md R33), a configuration register by its index (10_state.md
R28), and the operand ranges (30_encoding.md R54). -/

namespace Sys2Proof.Machine

/-- The 3-bit response code (60_exceptions.md R128). -/
def RespCode.bits : RespCode → BitVec 3
  | .ok => 0#3
  | .illegal => 1#3
  | .badarg => 2#3
  | .seq => 3#3
  | .fatal => 4#3

/-- TP_PHASE as a register value (10_state.md R22). -/
def Phase.code : Phase → BitVec 4
  | .idle => 0#4
  | .findPilot => 1#4
  | .pilotFound => 2#4
  | .pilotFound2 => 3#4
  | .headerMarker => 4#4
  | .readHeader => 5#4
  | .bodyMarker => 6#4
  | .readData => 7#4
  | .cksum => 8#4
  | .endTrailer => 9#4
  | .done => 10#4
  | .fatal => 15#4

/-- TP_MSUB as a register value (10_state.md R21). -/
def MarkerSub.code : MarkerSub → BitVec 3
  | .none => 0#3
  | .lead => 1#3
  | .mid => 2#3
  | .final => 3#3
  | .sync1 => 4#3
  | .sync0 => 5#3

/-- TP_ERR and FL_ERR as register values (10_state.md R30). -/
def ErrKind.code : ErrKind → BitVec 3
  | .none => 0#3
  | .calibration => 1#3
  | .marker => 2#3
  | .bitTiming => 3#3
  | .protocol => 4#3
  | .truncated => 5#3

/-- FL_STATE as a register value (10_state.md R25). -/
def FloppyMode.code : FloppyMode → BitVec 1
  | .ready => 0#1
  | .fatal => 1#1

/-- `zext_32` (00_scope.md R11). -/
def zext {w : Nat} (v : BitVec w) : Word := v.setWidth 32

/-- The TAPE register with a given index, zero-extended (10_state.md R21). -/
def tapeRegister (t : TapeRegs) (r : Nat) : Option Word :=
  match r with
  | 0x10 => some (zext t.phase.code)
  | 0x11 => some (zext t.err.code)
  | 0x12 => some (zext t.warn)
  | 0x13 => some (zext t.pn)
  | 0x14 => some (t.ps.extractLsb' 0 32)
  | 0x15 => some (t.ps.extractLsb' 32 32)
  | 0x16 => some (zext t.l0h)
  | 0x17 => some (zext t.cut)
  | 0x18 => some (zext t.acc)
  | 0x19 => some (zext t.bitcnt)
  | 0x1A => some (zext (BitVec.ofBool t.syncph))
  | 0x1B => some (zext t.rem)
  | 0x1C => some (zext t.msub.code)
  | 0x1D => some (zext t.mcnt)
  | 0x1E => some (zext t.mfic)
  | 0x1F => some (zext (BitVec.ofBool t.mlenient))
  | 0x20 => some (zext t.hcnt)
  | 0x21 => some (zext t.bcnt)
  | 0x22 => some (zext t.ccnt)
  | 0x23 => some (zext t.startAddr)
  | 0x24 => some (zext t.length)
  | 0x25 => some (zext t.ckread)
  | 0x26 => some (zext t.sum)
  | 0x27 => some (zext t.ckstat)
  | _ => none

/-- The FLOPPY register with a given index, zero-extended (10_state.md R25). -/
def floppyRegister (f : FloppyRegs) (r : Nat) : Option Word :=
  match r with
  | 0x30 => some (zext f.mode.code)
  | 0x31 => some (zext f.err.code)
  | 0x32 => some (zext f.count)
  | 0x33 => some (f.ss.extractLsb' 0 32)
  | 0x34 => some (f.ss.extractLsb' 32 32)
  | 0x35 => some (zext f.sk)
  | 0x36 => some (zext (BitVec.ofBool f.svalid))
  | 0x37 => some (zext f.pos)
  | 0x38 => some (zext f.mpos)
  | 0x39 => some (zext (BitVec.ofBool f.mfound))
  | 0x3A => some (zext f.fstat)
  | 0x3B => some (zext f.fblen)
  | 0x3C => some (zext f.nsym)
  | 0x3D => some (zext f.track)
  | 0x3E => some (zext f.side)
  | 0x3F => some (zext f.sector)
  | 0x40 => some (zext f.size)
  | 0x41 => some (zext f.crcRead)
  | 0x42 => some (zext f.crcCalc)
  | 0x43 => some (zext f.dlen)
  | _ => none

/-- The configuration register with a given configuration index, zero-extended (10_state.md R28). -/
def configRegister (c : ConfigRegs) (ci : Nat) : Option Word :=
  match ci with
  | 0 => some (zext c.ficStd)
  | 1 => some (zext c.ficEnd)
  | 2 => some (zext c.mlenHdr)
  | 3 => some (zext c.mlenBody)
  | 4 => some (zext c.mlenEnd)
  | 5 => some (zext (BitVec.ofBool c.endLenient))
  | 6 => some (zext c.dbg)
  | _ => none

/-- The register with an 8-bit index, zero-extended; none for an index that 10_state.md does not list (R17, R18). -/
def State.register (s : State) (r : BitVec 8) : Option Word :=
  if r.toNat = 0x50 then some (zext s.crc)
  else if r.toNat = 0x58 then some (zext s.sum)
  else if 0x70 ≤ r.toNat then configRegister s.cfg (r.toNat - 0x70)
  else if 0x30 ≤ r.toNat then floppyRegister s.floppy r.toNat
  else tapeRegister s.tape r.toNat

/-- The configuration registers after writing `val` to the one with index `ci`; none where the index is above 6 or
the value is not legal for it (10_state.md R28, R29). -/
def ConfigRegs.write (c : ConfigRegs) (ci : BitVec 8) (val : BitVec 16) : Option ConfigRegs :=
  match ci.toNat with
  | 0 => if val = 0#16 then none else some { c with ficStd := val }
  | 1 => if val = 0#16 then none else some { c with ficEnd := val }
  | 2 => some { c with mlenHdr := val }
  | 3 => some { c with mlenBody := val }
  | 4 => some { c with mlenEnd := val }
  | 5 =>
    if val = 0#16 then some { c with endLenient := false }
    else if val = 1#16 then some { c with endLenient := true }
    else none
  | 6 => some { c with dbg := val }
  | _ => none

/-- The space with a 4-bit number; spaces 5 to 15 do not exist (20_memory.md R33). -/
def Space.ofCode (sp : BitVec 4) : Option Space :=
  match sp.toNat with
  | 0 => some .tb
  | 1 => some .hb
  | 2 => some .fb
  | 3 => some .fom
  | 4 => some .fm
  | _ => none

/-- The group count of FL_READ is legal (42_floppy.md R106). -/
def legalGroups (n : BitVec 11) : Bool := decide (1 ≤ n.toNat ∧ n.toNat ≤ 1030)

/-- The payload size of a size code 1, 2 or 3: 256, 512 or 1024 bytes (42_floppy.md R109). -/
def payloadSize (s : BitVec 2) : Nat := 256 <<< (s.toNat - 1)

end Sys2Proof.Machine
end

