-- ==== Sys2Proof/Machine/Sums.lean ====
section
/-! DEFINITION. The two checksum functions (43_checksum.md sections 1 and 3), which the CRC, ADD, TAPE and FLOPPY
units share as functions, each with registers of its own. -/

namespace Sys2Proof.Machine

/-- One of the eight steps of R112: shift left, and XOR 0x1021 when bit 15 was 1. -/
def crcShift (c : BitVec 16) : BitVec 16 :=
  if c.getLsbD 15 then (c <<< 1) ^^^ 0x1021#16 else c <<< 1

/-- `n` such steps. -/
def crcShifts : Nat → BitVec 16 → BitVec 16
  | 0, c => c
  | n + 1, c => crcShifts n (crcShift c)

/-- `crc_byte(c, b)` (R112). -/
def crcByte (c : BitVec 16) (b : BitVec 8) : BitVec 16 :=
  crcShifts 8 (c ^^^ (b.setWidth 16 <<< 8))

/-- `crc_seq(c, bytes)`, a left fold (R113). -/
def crcSeq (c : BitVec 16) : List (BitVec 8) → BitVec 16
  | [] => c
  | b :: bs => crcSeq (crcByte c b) bs

/-- The address-mark prefix with the ID mark `m`: A1 A1 A1 m (R114). -/
def markPrefix (m : BitVec 8) : List (BitVec 8) := [0xA1#8, 0xA1#8, 0xA1#8, m]

/-- `eac_add(s, v)`: addition with end-around carry (R120). -/
def eacAdd (s v : BitVec 16) : BitVec 16 :=
  if 0xFFFF < s.toNat + v.toNat then BitVec.ofNat 16 (s.toNat + v.toNat - 0x10000 + 1)
  else BitVec.ofNat 16 (s.toNat + v.toNat)

/-- `eac_seq(s, bytes)`, a left fold (R121). -/
def eacSeq (s : BitVec 16) : List (BitVec 8) → BitVec 16
  | [] => s
  | b :: bs => eacSeq (eacAdd s (b.setWidth 16)) bs

end Sys2Proof.Machine
end

