-- ==== Sys2Proof/Machine/Checksum.lean ====
section
/-! DEFINITION. The commands of the CRC and ADD units (43_checksum.md sections 2 and 4). -/

namespace Sys2Proof.Machine

/-- The CRC register becomes `c`, which is also the response (R116 to R118). -/
def State.setCrc (s : State) (c : BitVec 16) : State := ({ s with crc := c }).respond .ok (zext c)

/-- The SUM register becomes `v`, which is also the response (R123 to R125). -/
def State.setSum (s : State) (v : BitVec 16) : State := ({ s with sum := v }).respond .ok (zext v)

/-- The response 1 or 0 of a comparison (R119, R126). -/
def State.answerBool (s : State) (b : Bool) : State := s.respond .ok (if b then 1#32 else 0#32)

/-- CRC_INIT (R116). -/
def execCrcInit (s : State) : Host.Outcome State Fault Refusal := .next (s.setCrc 0xFFFF#16)

/-- CRC_BYTE b (R117). -/
def execCrcByte (b : BitVec 8) (s : State) : Host.Outcome State Fault Refusal := .next (s.setCrc (crcByte s.crc b))

/-- CRC_MARK m (R118). -/
def execCrcMark (m : BitVec 8) (s : State) : Host.Outcome State Fault Refusal :=
  .next (s.setCrc (crcSeq 0xFFFF#16 (markPrefix m)))

/-- CRC_CHECK w (R119). -/
def execCrcCheck (w : BitVec 16) (s : State) : Host.Outcome State Fault Refusal := .next (s.answerBool (s.crc == w))

/-- ADD_INIT (R123). -/
def execAddInit (s : State) : Host.Outcome State Fault Refusal := .next (s.setSum 0#16)

/-- ADD_BYTE b (R124). -/
def execAddByte (b : BitVec 8) (s : State) : Host.Outcome State Fault Refusal :=
  .next (s.setSum (eacAdd s.sum (b.setWidth 16)))

/-- ADD_WORD w (R125). -/
def execAddWord (w : BitVec 16) (s : State) : Host.Outcome State Fault Refusal := .next (s.setSum (eacAdd s.sum w))

/-- ADD_CHECK w (R126). -/
def execAddCheck (w : BitVec 16) (s : State) : Host.Outcome State Fault Refusal := .next (s.answerBool (s.sum == w))

end Sys2Proof.Machine
end

