-- ==== Sys2Proof/Machine/Control.lean ====
section
/-! DEFINITION. The block control commands (40_control.md), and the answer to a word that is no command. -/

namespace Sys2Proof.Machine

/-- An illegal command word changes no state and is answered ILLEGAL (30_encoding.md R56, R57). -/
def answerIllegal (s : State) : Host.Outcome State Fault Refusal := .next (s.refuse .illegal)

/-- NOP (R61). -/
def execNop (s : State) : Host.Outcome State Fault Refusal := .next (s.respond .ok 0#32)

/-- Every register at its reset value; the buffers' contents are not cleared (R62, 70_reset_and_hazards.md R143). -/
def State.resetRegisters (s : State) : State :=
  { s with
    crc := 0xFFFF#16
    sum := 0#16
    tape := TapeRegs.reset
    floppy := FloppyRegs.reset
    cfg := ConfigRegs.reset s.params }

/-- RESET (R62). -/
def execReset (s : State) : Host.Outcome State Fault Refusal := .next (s.resetRegisters.respond .ok 0#32)

/-- RDREG r (R63). -/
def execRdreg (r : BitVec 8) (s : State) : Host.Outcome State Fault Refusal :=
  match s.register r with
  | some v => .next (s.respond .ok v)
  | none => .next (s.refuse .badarg)

/-- WRCFG ci, val (R64). -/
def execWrcfg (ci : BitVec 8) (val : BitVec 16) (s : State) : Host.Outcome State Fault Refusal :=
  match s.cfg.write ci val with
  | some c => .next (({ s with cfg := c }).respond .ok 0#32)
  | none => .next (s.refuse .badarg)

/-- MEMRD sp, a (R65). -/
def execMemrd (sp : BitVec 4) (a : BitVec 20) (s : State) : Host.Outcome State Fault Refusal :=
  match Space.ofCode sp with
  | none => .next (s.refuse .badarg)
  | some space =>
    if s.limit space ≤ a.toNat then .next (s.refuse .badarg)
    else match s.memRead space a.toNat with
      | .ok v => .next (s.respond .ok v)
      | .error f => .fault f

end Sys2Proof.Machine
end

