-- ==== Sys2Proof/Machine/Classify.lean ====
section
/-! DEFINITION. The pulse tests of the TAPE unit (41_tape.md R66) and the interval classes of the FLOPPY unit
(42_floppy.md R96, R101, R102), each the spec's comparison multiplied through by a positive constant (log 11). -/

namespace Sys2Proof.Machine

/-! ### TAPE (41_tape.md R66) -/

/-- `one(p)`: the impulse is longer than the cutoff. -/
def isOne (t : TapeRegs) (p : Nat) : Bool := decide (t.cut.toNat < p)

/-- `zero(p)`: the impulse is at most the cutoff (R67). -/
def isZero (t : TapeRegs) (p : Nat) : Bool := decide (p ≤ t.cut.toNat)

/-- `guard(p)`: the impulse is longer than 2.8 times length_of_0. -/
def guardHit (t : TapeRegs) (p : Nat) : Bool := decide (7 * t.l0h.toNat < 250 * p)

/-- `lead_ok(p, fic)`, with the latched first_impulse_count: at least (fic − 1/2) times length_of_0. -/
def leadOk (t : TapeRegs) (p : Nat) : Bool :=
  decide ((2 * (t.mfic.toNat : Int) - 1) * (t.l0h.toNat : Int) ≤ 200 * (p : Int))

/-- `long_ok(p)`: at least 3.5 times length_of_0. -/
def longOk (t : TapeRegs) (p : Nat) : Bool := decide (7 * t.l0h.toNat ≤ 200 * p)

/-- `pilot_long(p)`: longer than 3.5 times the running average TP_PS / TP_PN. -/
def pilotLong (t : TapeRegs) (p : Nat) : Bool := decide (7 * t.ps.toNat < 2 * t.pn.toNat * p)

/-! ### FLOPPY -/

/-- The sync length q = ss / sk (42_floppy.md R90) and the bound factor num / den (R101), as the numbers the
comparisons multiply through by. -/
structure SyncLen where
  /-- FL_SS -/
  ss : Nat
  /-- FL_SK -/
  sk : Nat
  /-- The numerator of P_FL_BOUND. -/
  num : Nat
  /-- The denominator of P_FL_BOUND. -/
  den : Nat
  deriving DecidableEq, Repr

/-- The sync length and bound in force. -/
def State.cell (s : State) : SyncLen where
  ss := s.floppy.ss.toNat
  sk := s.floppy.sk.toNat
  num := s.params.boundNum
  den := s.params.boundDen

/-- The four symbols of the mark search (00_scope.md R12). -/
inductive Area where
  /-- "4" -/
  | four
  /-- "3" -/
  | three
  /-- "2" -/
  | two
  /-- "*" -/
  | star
  deriving DecidableEq, Repr

/-- `cls4(f)` (42_floppy.md R96). -/
def cls4 (c : SyncLen) (f : Nat) : Area :=
  if 7 * c.ss ≤ 4 * (c.sk * f) ∧ 4 * (c.sk * f) ≤ 9 * c.ss then .four
  else if 5 * c.ss ≤ 4 * (c.sk * f) ∧ 4 * (c.sk * f) < 7 * c.ss then .three
  else if 3 * c.ss ≤ 4 * (c.sk * f) ∧ 4 * (c.sk * f) < 5 * c.ss then .two
  else .star

/-- The address-mark pattern "434324343243432" (42_floppy.md R97). -/
def markPattern : List Area :=
  [.four, .three, .four, .three, .two, .four, .three, .four, .three, .two, .four, .three, .four, .three, .two]

/-- The interval is longer than P_FL_BOUND times q (42_floppy.md R101). -/
def overBound (c : SyncLen) (f : Nat) : Bool := decide (c.num * c.ss < c.den * (c.sk * f))

/-- The three symbols of the MFM decoder (00_scope.md R12). -/
inductive Sym where
  /-- '0' -/
  | zero
  /-- '1' -/
  | one
  /-- 'o', the second half of the token "0o". -/
  | oh
  deriving DecidableEq, Repr

/-- What a pass of the decode loop does after its symbols (42_floppy.md R102). -/
inductive Act where
  /-- Re-test the interval less one q. -/
  | same
  /-- Consume the next interval. -/
  | next
  /-- Consume the next interval and take half a q from it. -/
  | half
  deriving DecidableEq, Repr

/-- The five branches of R102, in the spec's order, for the remainder f = g / (2·sk): `g` is 2·sk·f, exact. -/
def mfmBranch (c : SyncLen) (g : Int) : List Sym × Act :=
  if 7 * (c.ss : Int) < 2 * g then ([.zero, .oh], .next)
  else if 2 * (c.ss : Int) < g then ([.zero], .same)
  else if 3 * (c.ss : Int) < 2 * g then ([.zero], .next)
  else if 2 * g < (c.ss : Int) then ([], .next)
  else ([.one], .half)

end Sys2Proof.Machine
end

