-- ==== Sys2Proof/Machine/Flags.lean ====
section
/-! DEFINITION. The status flags: TP_WARN (10_state.md R23), TP_CKSTAT (41_tape.md R87), FL_FSTAT (10_state.md R26).
BKT-DEC has no other flags beside the response code (10_state.md R31). -/

namespace Sys2Proof.Machine

/-- Setting TP_WARN bit 0, PF1: the PILOT_FOUND pulse is not a "1" pulse (41_tape.md R73). -/
def TapeRegs.warnPf1 (t : TapeRegs) : TapeRegs := { t with warn := setBit t.warn 0 }

/-- Setting TP_WARN bit 1, PF2: the PILOT_FOUND2 pulse is not a "0" pulse (41_tape.md R74). -/
def TapeRegs.warnPf2 (t : TapeRegs) : TapeRegs := { t with warn := setBit t.warn 1 }

/-- Setting TP_WARN bit 2, MARK: a marker check failed in lenient mode (41_tape.md R77). -/
def TapeRegs.warnMark (t : TapeRegs) : TapeRegs := { t with warn := setBit t.warn 2 }

/-- TP_CKSTAT after validation: bit 0 DONE is 1, bit 1 OK says whether the checksums agree (41_tape.md R87). -/
def ckstatOf (agree : Bool) : BitVec 2 := BitVec.ofBool agree ++ 1#1

/-- The flags of FL_FSTAT below KIND (10_state.md R26). -/
structure FieldFlags where
  /-- Bit 0. -/
  done : Bool
  /-- Bit 1. -/
  eot : Bool
  /-- Bit 2. -/
  markOk : Bool
  /-- Bit 3. -/
  symErr : Bool
  /-- Bit 4. -/
  crcOk : Bool
  /-- Bit 5. -/
  valid : Bool
  deriving DecidableEq, Repr

/-- FL_FSTAT from its fields, KIND in bits 7:6 (10_state.md R26). -/
def fstatOf (kind : BitVec 2) (f : FieldFlags) : BitVec 8 :=
  kind ++ BitVec.ofBool f.valid ++ BitVec.ofBool f.crcOk ++ BitVec.ofBool f.symErr ++
    BitVec.ofBool f.markOk ++ BitVec.ofBool f.eot ++ BitVec.ofBool f.done

/-- FL_FSTAT after a raw decode: KIND 0, DONE and EOT (42_floppy.md R106). -/
def fstatRaw (eot : Bool) : BitVec 8 :=
  fstatOf 0#2 { done := true, eot := eot, markOk := false, symErr := false, crcOk := false, valid := false }

/-- FL_FSTAT after a decode that ran out of flux: DONE and EOT, all else 0 (42_floppy.md R107, R109). -/
def fstatEot (kind : BitVec 2) : BitVec 8 :=
  fstatOf kind { done := true, eot := true, markOk := false, symErr := false, crcOk := false, valid := false }

/-- FL_FSTAT after a whole field: VALID is mark, no symbol error and CRC together (42_floppy.md R107, R109). -/
def fstatField (kind : BitVec 2) (mk se ck : Bool) : BitVec 8 :=
  fstatOf kind { done := true, eot := false, markOk := mk, symErr := se, crcOk := ck, valid := mk && !se && ck }

/-- FL_FSTAT.VALID of a status byte (10_state.md R26). -/
def fstatValid (v : BitVec 8) : Bool := v.getLsbD 5

end Sys2Proof.Machine
end

