-- ==== Sys2Proof/Machine/Floppy.lean ====
section
/-! DEFINITION. The FLOPPY unit (42_floppy.md): loading a revolution, sync estimation, the address-mark detector, the
MFM decoder, the group assembler, and its eight commands. -/

namespace Sys2Proof.Machine

/-! ### Responses and gates -/

/-- A FLOPPY command raises a fatal error (R111, 60_exceptions.md R131). -/
def State.failFloppy (s : State) (kind : ErrKind) : State :=
  (s.raiseFatal .floppy kind).respond .fatal (zext kind.code)

/-- Why a FLOPPY command stops, as an outcome (60_exceptions.md R131). -/
def stopFloppy (s : State) (r : Stop) : Host.Outcome State Fault Refusal :=
  match r with
  | .fatal kind => .next (s.failFloppy kind)
  | .fault f => .fault f

/-- The gate of FL_READ, FL_HDR and FL_DATA (R91): the unit is READY, with a sync length and a found mark. -/
def FloppyRegs.mayDecode (f : FloppyRegs) : Bool := f.mode == .ready && f.svalid && f.mfound

/-! ### Loading -/

/-- FL_CLEAR (R93). -/
def execFlClear (s : State) : Host.Outcome State Fault Refusal :=
  .next ({ s with floppy := FloppyRegs.reset }.respond .ok 0#32)

/-- FM and FL_COUNT after appending an interval (R94). FL_COUNT could leave its 21 bits only with a P_FM_DEPTH above the
legal 2^20; it wraps there: DESIGN CHOICE (log 13). -/
def State.pushFlux (s : State) (v : BitVec 24) : State :=
  { s with
    fm := Memory.write s.fm s.floppy.count.toNat v
    floppy := { s.floppy with count := s.floppy.count + 1#21 } }

/-- FL_PUSH v (R94). An FL_COUNT above P_FM_DEPTH, which no run reaches, names no element (log 6). -/
def execFlPush (v : BitVec 24) (s : State) : Host.Outcome State Fault Refusal :=
  if v = 0#24 then .next (s.refuse .badarg)
  else if s.floppy.mode = .fatal then .next (s.refuse .seq)
  else if s.floppy.count.toNat = s.params.fmDepth then .next (s.refuse .seq)
  else if s.size .fm ≤ s.floppy.count.toNat then .fault .noSuchElement
  else .next ((s.pushFlux v).respond .ok (zext (s.pushFlux v).floppy.count))

/-! ### Sync estimation (R95) -/

/-- `20·|k·f − S| > 3·S`: the interval deviates from the mean S / k by more than 15 %. -/
def deviates (sum k f : Nat) : Bool := decide (3 * sum < 20 * ((k : Int) * f - sum).natAbs)

/-- The walk of R95 over the intervals still to come, with the sum and count of those before: where it stops, the
sum and count of the mean. -/
def estimate : List Nat → Nat → Nat → Option (Nat × Nat)
  | [], _, _ => none
  | f :: fs, sum, k =>
    if 2 ≤ k ∧ deviates sum k f then some (sum, k) else estimate fs (sum + f) (k + 1)

/-- FL_EST (R95). -/
def execFlEst (s : State) : Host.Outcome State Fault Refusal :=
  if s.floppy.mode = .fatal then .next (s.refuse .seq)
  else if s.floppy.svalid then .next (s.respond .ok (zext s.floppy.sk))
  else match s.fluxSpan 0 s.floppy.count.toNat with
    | .error r => stopFloppy s r
    | .ok fs =>
      match estimate fs 0 0 with
      | none => .next (s.failFloppy .calibration)
      | some (sum, k) =>
        .next ({ s with floppy := { s.floppy with
                  ss := BitVec.ofNat 64 sum, sk := BitVec.ofNat 21 k, svalid := true } }.respond .ok
                (zext (BitVec.ofNat 21 k)))

/-! ### Mark search (R98) -/

/-- The last `n` elements of a list. -/
def lastOf {α : Type} (n : Nat) (l : List α) : List α := l.drop (l.length - n)

/-- The search of R98 over the intervals still to come, the first of them FM[i], with the window so far: the index
of the last symbol of the first match that does not start before FM[0]. -/
def findMark (c : SyncLen) : List Nat → Nat → List Area → Option Nat
  | [], _, _ => none
  | f :: fs, i, w =>
    if lastOf 15 (w ++ [cls4 c f]) = markPattern ∧ 15 ≤ i then some i
    else findMark c fs (i + 1) (lastOf 15 (w ++ [cls4 c f]))

/-- The FLOPPY registers after a search (R98). -/
def FloppyRegs.afterSearch (f : FloppyRegs) (r : Option Nat) : FloppyRegs :=
  match r with
  | some i => { f with mpos := BitVec.ofNat 21 (i - 15), mfound := true, pos := BitVec.ofNat 21 (i + 1) }
  | none => { f with mfound := false, pos := f.count }

/-- FL_FIND (R91, R98). -/
def execFlFind (s : State) : Host.Outcome State Fault Refusal :=
  if s.floppy.mode = .fatal then .next (s.refuse .seq)
  else if !s.floppy.svalid then .next (s.refuse .seq)
  else match s.fluxSpan s.floppy.pos.toNat (s.floppy.count.toNat - s.floppy.pos.toNat) with
    | .error r => stopFloppy s r
    | .ok fs =>
      .next ({ s with floppy := s.floppy.afterSearch (findMark s.cell fs s.floppy.pos.toNat []) }.respond .ok
        (if (findMark s.cell fs s.floppy.pos.toNat []).isSome then 1#32 else 0#32))

/-- FL_SETPOS p (R100). -/
def execFlSetpos (p : BitVec 21) (s : State) : Host.Outcome State Fault Refusal :=
  if s.floppy.count.toNat < p.toNat then .next (s.refuse .badarg)
  else if s.floppy.mode = .fatal then .next (s.refuse .seq)
  else .next ({ s with floppy := { s.floppy with pos := p } }.respond .ok 0#32)

/-! ### MFM decoder (R102, R103) -/

/-- The variables of the decode loop: the remainder as 2·sk·f, the index `i` of the current interval, the intervals
after it, the symbol list, newest first. -/
structure MfmVars where
  rem : Int
  idx : Nat
  rest : List Nat
  rsyms : List Sym
  deriving DecidableEq, Repr

/-- What a decode leaves: the symbol list L, FL_POS and eot. -/
structure MfmOut where
  syms : List Sym
  pos : Nat
  eot : Bool
  deriving DecidableEq, Repr

/-- The outcome of one pass of the decode loop. -/
inductive MfmPass where
  | more (v : MfmVars)
  | stop (o : MfmOut)
  | overBound
  deriving DecidableEq, Repr

/-- `fetch(i)` for an interval `f` (R101), less half a q after a '1' (R102), as a remainder 2·sk·f; none over the
bound. -/
def mfmFetch (c : SyncLen) (f : Nat) (act : Act) : Option Int :=
  if overBound c f then none
  else some (2 * ((c.sk * f : Nat) : Int) - (if act = .half then (c.ss : Int) else 0))

/-- One pass of the loop of R102: a branch, the stop test of R103, and the next remainder or interval. `count` is
FL_COUNT, `target` is 8·n + 1. -/
def mfmPass (c : SyncLen) (count target : Nat) (v : MfmVars) : MfmPass :=
  match mfmBranch c v.rem with
  | (emitted, act) =>
    if target ≤ (emitted.reverse ++ v.rsyms).length then
      .stop ⟨(emitted.reverse ++ v.rsyms).reverse.take target, v.idx + 1, false⟩
    else if act = .same then
      .more { v with rem := v.rem - 2 * (c.ss : Int), rsyms := emitted.reverse ++ v.rsyms }
    else match v.rest with
      | [] => .stop ⟨(emitted.reverse ++ v.rsyms).reverse, count, true⟩
      | f :: rest =>
        match mfmFetch c f act with
        | none => .overBound
        | some g => .more ⟨g, v.idx + 1, rest, emitted.reverse ++ v.rsyms⟩

/-- At most `passes` passes of the loop; none over the bound. The loop ends by itself (R102, corner case 3): two
passes for each interval are enough, so the last line is not reached (log 12). -/
def mfmLoop (c : SyncLen) (count target : Nat) : Nat → MfmVars → Option MfmOut
  | 0, v => some ⟨v.rsyms.reverse, count, true⟩
  | passes + 1, v =>
    match mfmPass c count target v with
    | .more v' => mfmLoop c count target passes v'
    | .stop o => some o
    | .overBound => none

/-- The decode of `n` bytes from the intervals `fs`, the first of them FM[start] (R102, R103); none over the bound.
With no interval at all, eot at once (R102, corner case 4). -/
def mfmDecode (c : SyncLen) (count start n : Nat) (fs : List Nat) : Option MfmOut :=
  match fs with
  | [] => some ⟨[], count, true⟩
  | f :: rest =>
    match mfmFetch c f .next with
    | none => none
    | some g => mfmLoop c count (8 * n + 1) (2 * fs.length) ⟨g, start, rest, []⟩

/-! ### Group assembler (R104) -/

/-- The byte whose bit 7 − k is set where symbol k of the group is `s`. -/
def groupByte (s : Sym) (group : List Sym) : BitVec 8 :=
  BitVec.ofNat 8 (group.foldl (fun acc x => 2 * acc + if x = s then 1 else 0) 0)

/-- The complete 8-symbol groups of a list, in order; a trailing part-group is dropped. -/
def groupsOf : List Sym → List (List Sym)
  | a :: b :: c :: d :: e :: f :: g :: h :: rest => [a, b, c, d, e, f, g, h] :: groupsOf rest
  | _ => []

/-- A group as its value byte and its 'o' mask (R104). -/
structure MfmGroup where
  /-- The element for FB. -/
  value : BitVec 8
  /-- The element for FOM. -/
  mask : BitVec 8
  deriving DecidableEq, Repr

/-- The groups of a symbol list, the pad symbol dropped (R104). -/
def assemble (syms : List Sym) : List MfmGroup :=
  (groupsOf (syms.drop 1)).map fun g => ⟨groupByte .one g, groupByte .oh g⟩

/-- FB[j] as the decode has just written it. A whole field has every group its checks name. -/
def valueAt (gs : List MfmGroup) (j : Nat) : BitVec 8 := (gs.getD j ⟨0#8, 0#8⟩).value

/-- FOM[j] as the decode has just written it. -/
def maskAt (gs : List MfmGroup) (j : Nat) : BitVec 8 := (gs.getD j ⟨0#8, 0#8⟩).mask

/-- `amark(j)`: group j is "10100o01" (R105). -/
def addressMark (gs : List MfmGroup) (j : Nat) : Bool := valueAt gs j == 0xA1#8 && maskAt gs j == 0x04#8

/-- `markok(m)` (R105). -/
def markOk (gs : List MfmGroup) (m : BitVec 8) : Bool :=
  addressMark gs 0 && addressMark gs 1 && addressMark gs 2 && (valueAt gs 3 == m && maskAt gs 3 == 0x00#8)

/-- `symerr(n)` for the n groups of a field: one after the fourth holds an 'o' (R105). -/
def symErr (gs : List MfmGroup) : Bool := (gs.drop 4).any fun g => g.mask != 0x00#8

/-- FB[a .. a + n − 1] as just written. -/
def valuesOf (gs : List MfmGroup) (a n : Nat) : List (BitVec 8) := ((gs.drop a).take n).map MfmGroup.value

/-! ### Decode commands -/

/-- A decode that met an interval over the bound raises the fatal error BIT_TIMING (R101). -/
def boundStop : Option MfmOut → Except Stop MfmOut
  | none => .error (.fatal .bitTiming)
  | some o => .ok o

/-- What `decode(n)` computes from FM (R102), before any write. -/
def State.decodeField (s : State) (n : Nat) : Except Stop MfmOut :=
  match s.fluxSpan s.floppy.mpos.toNat (s.floppy.count.toNat - s.floppy.mpos.toNat) with
  | .error r => .error r
  | .ok fs => boundStop (mfmDecode s.cell s.floppy.count.toNat s.floppy.mpos.toNat n fs)

/-- What `decode(n)` writes (R102, R103, R104): FB, FOM, FL_FBLEN, FL_NSYM and FL_POS. -/
def State.writeField (s : State) (o : MfmOut) : State :=
  { s with
    fb := Memory.writeSpan s.fb 0 ((assemble o.syms).map MfmGroup.value)
    fom := Memory.writeSpan s.fom 0 ((assemble o.syms).map MfmGroup.mask)
    floppy := { s.floppy with
      fblen := BitVec.ofNat 11 (assemble o.syms).length
      nsym := BitVec.ofNat 14 o.syms.length
      pos := BitVec.ofNat 21 o.pos } }

/-- A decode command: the gate, `decode(n)`, then the command's own registers, and the response FL_FSTAT (R91, R92,
R101). -/
def State.runDecode (s : State) (n : Nat) (finish : MfmOut → FloppyRegs → FloppyRegs) :
    Host.Outcome State Fault Refusal :=
  if !s.floppy.mayDecode then .next (s.refuse .seq)
  else match s.decodeField n with
    | .error r => stopFloppy s r
    | .ok o =>
      .next ({ s.writeField o with floppy := finish o (s.writeField o).floppy }.respond .ok
        (zext (finish o (s.writeField o).floppy).fstat))

/-- The registers FL_READ writes after its decode (R106). -/
def finishRead (o : MfmOut) (f : FloppyRegs) : FloppyRegs :=
  { f with fstat := fstatRaw o.eot }

/-- FL_READ n (R106). -/
def execFlRead (n : BitVec 11) (s : State) : Host.Outcome State Fault Refusal :=
  if !legalGroups n then .next (s.refuse .badarg) else s.runDecode n.toNat finishRead

/-- FL_CRC_READ of a field whose payload ends before group j: low byte first (R107, R109, 20_memory.md R41). -/
def storedCrc (gs : List MfmGroup) (j : Nat) : BitVec 16 := valueAt gs (j + 1) ++ valueAt gs j

/-- FL_CRC_CALC over the mark prefix and n payload bytes (R107, R109, 43_checksum.md R114). -/
def fieldCrc (gs : List MfmGroup) (m : BitVec 8) (n : Nat) : BitVec 16 :=
  crcSeq 0xFFFF#16 (markPrefix m ++ valuesOf gs 4 n)

/-- FL_FSTAT of a whole field with ID mark m and n payload bytes (R107, R109). -/
def fieldStatus (kind : BitVec 2) (gs : List MfmGroup) (m : BitVec 8) (n : Nat) : BitVec 8 :=
  fstatField kind (markOk gs m) (symErr gs) (storedCrc gs (4 + n) == fieldCrc gs m n)

/-- The registers FL_HDR writes after its decode (R107). -/
def finishHeader (o : MfmOut) (f : FloppyRegs) : FloppyRegs :=
  if o.eot then { f with fstat := fstatEot 1#2 }
  else
    { f with
      track := valueAt (assemble o.syms) 4
      side := valueAt (assemble o.syms) 5
      sector := valueAt (assemble o.syms) 6
      size := valueAt (assemble o.syms) 7
      crcRead := storedCrc (assemble o.syms) 8
      crcCalc := fieldCrc (assemble o.syms) 0xFE#8 4
      fstat := fieldStatus 1#2 (assemble o.syms) 0xFE#8 4 }

/-- FL_HDR (R107). -/
def execFlHdr (s : State) : Host.Outcome State Fault Refusal := s.runDecode 10 finishHeader

/-- The registers FL_DATA writes after its decode, for a payload of `size` bytes (R109). -/
def finishData (size : Nat) (o : MfmOut) (f : FloppyRegs) : FloppyRegs :=
  if o.eot then { f with dlen := 0#11, fstat := fstatEot 2#2 }
  else
    { f with
      crcRead := storedCrc (assemble o.syms) (4 + size)
      crcCalc := fieldCrc (assemble o.syms) 0xFB#8 size
      dlen := if fstatValid (fieldStatus 2#2 (assemble o.syms) 0xFB#8 size) then BitVec.ofNat 11 size else 0#11
      fstat := fieldStatus 2#2 (assemble o.syms) 0xFB#8 size }

/-- FL_DATA s (R109). -/
def execFlData (c : BitVec 2) (s : State) : Host.Outcome State Fault Refusal :=
  if c = 0#2 then .next (s.refuse .badarg) else s.runDecode (payloadSize c + 6) (finishData (payloadSize c))

end Sys2Proof.Machine
end

