-- ==== Sys2Proof/Machine/Tape.lean ====
section
/-! DEFINITION. The TAPE unit (41_tape.md): pilot calibration, the block-marker detector, the byte assembler and the
segment sequence, and its three commands. -/

namespace Sys2Proof.Machine

/-! ### Markers and segments -/

/-- The three kinds of marker (R75). -/
inductive MarkerKind where
  | hdr
  | body
  | trailer
  deriving DecidableEq, Repr

/-- Starting a marker latches its parameters (R75). -/
def startMarker (k : MarkerKind) (c : ConfigRegs) (t : TapeRegs) : TapeRegs :=
  match k with
  | .hdr => { t with msub := .lead, mfic := c.ficStd, mcnt := c.mlenHdr, mlenient := false }
  | .body => { t with msub := .lead, mfic := c.ficStd, mcnt := c.mlenBody, mlenient := false }
  | .trailer => { t with msub := .lead, mfic := c.ficEnd, mcnt := c.mlenEnd, mlenient := c.endLenient }

/-- Beginning a segment of `k` bytes (R79). -/
def beginSegment (k : BitVec 16) (t : TapeRegs) : TapeRegs :=
  { t with rem := k, acc := 0#8, bitcnt := 0#3, syncph := false }

/-- A marker check: a violation is a warning in lenient mode and fatal in strict mode (R77). -/
def markerCheck (passed : Bool) (t : TapeRegs) : Except Stop TapeRegs :=
  if passed then .ok t
  else if t.mlenient then .ok t.warnMark
  else .error (.fatal .marker)

/-- What a completed marker leads to, by phase (R78, R86). -/
def markerComplete (t : TapeRegs) : TapeRegs :=
  match t.phase with
  | .headerMarker => beginSegment 20#16 { t with phase := .readHeader }
  | .bodyMarker =>
    if t.length = 0#16 then beginSegment 2#16 { t with phase := .cksum }
    else beginSegment t.length { t with phase := .readData }
  | .endTrailer => { t with phase := .done }
  | _ => t

/-- The marker step (R76). With TP_MSUB = NONE there is no step (log 8). In MID with TP_MCNT = 0, which no run reaches,
R76 gives TP_MCNT − 1 no value: DESIGN CHOICE, TP_MCNT wraps to 0xFFFF and the sub-state stays MID (log 13). -/
def markerStep (p : Nat) (t : TapeRegs) : Except Stop TapeRegs :=
  match t.msub with
  | .lead => (markerCheck (leadOk t p) t).map fun t =>
      { t with msub := if t.mcnt = 0#16 then .final else .mid }
  | .mid => .ok { t with mcnt := t.mcnt - 1#16, msub := if t.mcnt - 1#16 = 0#16 then .final else .mid }
  | .final => (markerCheck (longOk t p) t).map fun t => { t with msub := .sync1 }
  | .sync1 => (markerCheck (isOne t p) t).map fun t => { t with msub := .sync0 }
  | .sync0 => (markerCheck (isZero t p) t).map fun t => markerComplete { t with msub := .none }
  | .none => .error (.fault .noMarkerStep)

/-! ### Pilot -/

/-- The FIND_PILOT step (R71, R72). TP_L0H and TP_CUT hold the exact roundings in every state (`findPilotStep_exact`).
A sum over 64 bits, which no run reaches, wraps: DESIGN CHOICE (log 13). -/
def findPilotStep (p : Nat) (t : TapeRegs) : Except Stop TapeRegs :=
  if 200 ≤ t.pn.toNat ∧ pilotLong t p then
    .ok { t with
      l0h := BitVec.ofNat 32 (rhe (100 * t.ps.toNat) t.pn.toNat)
      cut := BitVec.ofNat 32 (rhe (rhe (100 * t.ps.toNat) t.pn.toNat * 16) 1000)
      phase := .pilotFound }
  else if t.pn.toNat = 4294967295 then .error (.fatal .calibration)
  else .ok { t with ps := t.ps + BitVec.ofNat 64 p, pn := t.pn + 1#32 }

/-- The PILOT_FOUND step (R73). -/
def pilotFoundStep (p : Nat) (t : TapeRegs) : TapeRegs :=
  { (if isOne t p then t else t.warnPf1) with phase := .pilotFound2 }

/-- The PILOT_FOUND2 step (R74). -/
def pilotFound2Step (p : Nat) (c : ConfigRegs) (t : TapeRegs) : TapeRegs :=
  { startMarker .hdr c (if isZero t p then t else t.warnPf2) with phase := .headerMarker }

/-! ### read_bit -/

/-- Writing one element of HB (00_scope.md R11, 20_memory.md R33). -/
def State.writeHb (s : State) (a : Nat) (b : BitVec 8) : Except Stop State :=
  if s.size .hb ≤ a then .error (.fault .noSuchElement) else .ok { s with hb := Memory.write s.hb a b }

/-- Writing one element of TB (00_scope.md R11, 20_memory.md R33). -/
def State.writeTb (s : State) (a : Nat) (b : BitVec 8) : Except Stop State :=
  if s.size .tb ≤ a then .error (.fault .noSuchElement) else .ok { s with tb := Memory.write s.tb a b }

/-- `v[8·k + 7 : 8·k] <- b` for a 16-bit `v` and k = 0, 1; a 16-bit register has no other byte (R84, log 9). -/
def putByte (v : BitVec 16) (k : Nat) (b : BitVec 8) : Option (BitVec 16) :=
  match k with
  | 0 => some (v.extractLsb' 8 8 ++ b)
  | 1 => some (b ++ v.extractLsb' 0 8)
  | _ => none

/-- Storing a byte of the header (R84, READ_HEADER). -/
def storeHeader (b : BitVec 8) (s : State) : Except Stop State :=
  (s.writeHb s.tape.hcnt.toNat b).map fun s => { s with tape := { s.tape with hcnt := s.tape.hcnt + 1#5 } }

/-- Storing a byte of the body, and adding it to TP_SUM (R84, READ_DATA). -/
def storeBody (b : BitVec 8) (s : State) : Except Stop State :=
  (s.writeTb s.tape.bcnt.toNat b).map fun s =>
    { s with tape := { s.tape with bcnt := s.tape.bcnt + 1#17, sum := eacAdd s.tape.sum (b.setWidth 16) } }

/-- Storing a byte of the checksum (R84, CKSUM). -/
def storeChecksum (b : BitVec 8) (s : State) : Except Stop State :=
  match putByte s.tape.ckread s.tape.ccnt.toNat b with
  | some v => .ok { s with tape := { s.tape with ckread := v, ccnt := s.tape.ccnt + 1#2 } }
  | none => .error (.fault .noChecksumByte)

/-- Storing a completed byte, by phase (R84). -/
def storeByte (b : BitVec 8) (s : State) : Except Stop State :=
  match s.tape.phase with
  | .readHeader => storeHeader b s
  | .readData => storeBody b s
  | .cksum => storeChecksum b s
  | _ => .ok s

/-- `MemRead(HB, a, 1)`, as a byte (00_scope.md R11). -/
def State.headerByte (s : State) (a : Nat) : Except Stop (BitVec 8) :=
  match s.memRead .hb a with
  | .ok v => .ok (v.setWidth 8)
  | .error f => .error (.fault f)

/-- Final validation (R87). -/
def validate (t : TapeRegs) : TapeRegs := { t with ckstat := ckstatOf (t.ckread == t.sum) }

/-- The header segment is complete: start address and length from HB[0..3], low byte first, and the body marker
starts (R85, 20_memory.md R34, R38). -/
def headerDone (b0 b1 b2 b3 : BitVec 8) (c : ConfigRegs) (t : TapeRegs) : TapeRegs :=
  startMarker .body c { t with startAddr := b1 ++ b0, length := b3 ++ b2, phase := .bodyMarker }

/-- The checksum segment is complete: validation, and the end marker starts (R85, R87). -/
def checksumDone (c : ConfigRegs) (t : TapeRegs) : TapeRegs :=
  startMarker .trailer c { validate t with phase := .endTrailer }

/-- Unpacking the header: HB[0..3] are read (R85). -/
def unpackHeader (s : State) : Except Stop State := do
  let b0 ← s.headerByte 0
  let b1 ← s.headerByte 1
  let b2 ← s.headerByte 2
  let b3 ← s.headerByte 3
  .ok { s with tape := headerDone b0 b1 b2 b3 s.cfg s.tape }

/-- On segment complete, by phase (R85). -/
def segmentComplete (s : State) : Except Stop State :=
  match s.tape.phase with
  | .readHeader => unpackHeader s
  | .readData => .ok { s with tape := beginSegment 2#16 { s.tape with phase := .cksum } }
  | .cksum => .ok { s with tape := checksumDone s.cfg s.tape }
  | _ => .ok s

/-- The byte accumulator after one more bit, most significant bit first (R82, 20_memory.md R39). -/
def shiftIn (acc : BitVec 8) (bit : Bool) : BitVec 8 := (acc <<< 1) ||| (BitVec.ofBool bit).setWidth 8

/-- The data-bit step (R82). The store comes before the counters are cleared. With TP_REM = 0, which no run reaches,
TP_REM wraps to 0xFFFF: DESIGN CHOICE (log 13). -/
def dataBitStep (p : Nat) (s : State) : Except Stop State :=
  if s.tape.bitcnt.toNat + 1 = 8 then
    (storeByte (shiftIn s.tape.acc (isOne s.tape p)) s).map fun s =>
      { s with tape := { s.tape with rem := s.tape.rem - 1#16, acc := 0#8, bitcnt := 0#3, syncph := true } }
  else
    .ok { s with tape := { s.tape with
            acc := shiftIn s.tape.acc (isOne s.tape p), bitcnt := s.tape.bitcnt + 1#3, syncph := true } }

/-- The sync-bit step (R83). -/
def syncBitStep (p : Nat) (s : State) : Except Stop State :=
  if !isZero s.tape p then .error (.fatal .protocol)
  else if s.tape.rem = 0#16 then segmentComplete { s with tape := { s.tape with syncph := false } }
  else .ok { s with tape := { s.tape with syncph := false } }

/-- The read_bit step (R80): the bit-timing guard first (R81), then by phase. -/
def readBitStep (p : Nat) (s : State) : Except Stop State :=
  if guardHit s.tape p then .error (.fatal .bitTiming)
  else if s.tape.syncph then syncBitStep p s
  else dataBitStep p s

/-! ### Commands -/

/-- A step that touches the TAPE registers alone. -/
def State.onTape (s : State) (r : Except Stop TapeRegs) : Except Stop State :=
  r.map fun t => { s with tape := t }

/-- The step of the phase for an impulse `p` (R69). IDLE, DONE and FATAL have none. -/
def tapeStep (p : Nat) (s : State) : Except Stop State :=
  match s.tape.phase with
  | .findPilot => s.onTape (findPilotStep p s.tape)
  | .pilotFound => .ok { s with tape := pilotFoundStep p s.tape }
  | .pilotFound2 => .ok { s with tape := pilotFound2Step p s.cfg s.tape }
  | .headerMarker => s.onTape (markerStep p s.tape)
  | .bodyMarker => s.onTape (markerStep p s.tape)
  | .endTrailer => s.onTape (markerStep p s.tape)
  | .readHeader => readBitStep p s
  | .readData => readBitStep p s
  | .cksum => readBitStep p s
  | .idle => .ok s
  | .done => .ok s
  | .fatal => .ok s

/-- The data of a TAPE response: TP_ERR above the four bits of TP_PHASE (41_tape.md, opening). -/
def tapeData (t : TapeRegs) : Word := zext (t.err.code ++ t.phase.code)

/-- A TAPE command answered with TP_ERR and TP_PHASE. -/
def State.answerTape (s : State) (code : RespCode) : State := s.respond code (tapeData s.tape)

/-- A TAPE command raises a fatal error (60_exceptions.md R131). -/
def State.failTape (s : State) (kind : ErrKind) : State := (s.raiseFatal .tape kind).answerTape .fatal

/-- The end of a TAPE command: OK, or a fatal error that undoes its writes (R69, 60_exceptions.md R131). -/
def finishTape (s : State) (r : Except Stop State) : Host.Outcome State Fault Refusal :=
  match r with
  | .ok s' => .next (s'.answerTape .ok)
  | .error (.fatal kind) => .next (s.failTape kind)
  | .error (.fault f) => .fault f

/-- TP_START (R68). -/
def execTpStart (s : State) : Host.Outcome State Fault Refusal :=
  .next ({ s with tape := { TapeRegs.reset with phase := .findPilot } }.answerTape .ok)

/-- TP_PULSE v (R69, R88). -/
def execTpPulse (v : BitVec 24) (s : State) : Host.Outcome State Fault Refusal :=
  if v = 0#24 then .next (s.refuse .badarg)
  else match s.tape.phase with
    | .idle => .next (s.refuse .seq)
    | .fatal => .next (s.refuse .seq)
    | .done => .next (s.answerTape .ok)
    | _ => finishTape s (tapeStep v.toNat s)

/-- TP_END (R70). -/
def execTpEnd (s : State) : Host.Outcome State Fault Refusal :=
  match s.tape.phase with
  | .idle => .next (s.refuse .seq)
  | .fatal => .next (s.refuse .seq)
  | .done => .next (s.answerTape .ok)
  | .findPilot => .next (s.failTape .calibration)
  | _ => .next (s.failTape .truncated)

end Sys2Proof.Machine
end

