-- ==== Sys2Proof/Machine/Dispatch.lean ====
section
/-! DEFINITION. The meaning of each command (30_encoding.md R55). -/

namespace Sys2Proof.Machine

def exec (i : Instr) (s : State) : Host.Outcome State Fault Refusal :=
  match i with
  | .nop => Sys2Proof.Machine.execNop s
  | .reset => Sys2Proof.Machine.execReset s
  | .rdreg r => Sys2Proof.Machine.execRdreg r s
  | .wrcfg ci val => Sys2Proof.Machine.execWrcfg ci val s
  | .memrd sp a => Sys2Proof.Machine.execMemrd sp a s
  | .tpStart => Sys2Proof.Machine.execTpStart s
  | .tpPulse v => Sys2Proof.Machine.execTpPulse v s
  | .tpEnd => Sys2Proof.Machine.execTpEnd s
  | .flClear => Sys2Proof.Machine.execFlClear s
  | .flPush v => Sys2Proof.Machine.execFlPush v s
  | .flEst => Sys2Proof.Machine.execFlEst s
  | .flFind => Sys2Proof.Machine.execFlFind s
  | .flSetpos p => Sys2Proof.Machine.execFlSetpos p s
  | .flRead n => Sys2Proof.Machine.execFlRead n s
  | .flHdr => Sys2Proof.Machine.execFlHdr s
  | .flData c => Sys2Proof.Machine.execFlData c s
  | .crcInit => Sys2Proof.Machine.execCrcInit s
  | .crcByte b => Sys2Proof.Machine.execCrcByte b s
  | .crcMark m => Sys2Proof.Machine.execCrcMark m s
  | .crcCheck w => Sys2Proof.Machine.execCrcCheck w s
  | .addInit => Sys2Proof.Machine.execAddInit s
  | .addByte b => Sys2Proof.Machine.execAddByte b s
  | .addWord w => Sys2Proof.Machine.execAddWord w s
  | .addCheck w => Sys2Proof.Machine.execAddCheck w s

end Sys2Proof.Machine
end

