-- ==== Sys2Proof/Machine/Step.lean ====
section
/-! DEFINITION. One step of the block: it takes the oldest command word the host has issued, decodes it and runs it
(20_memory.md R45, R46). -/

namespace Sys2Proof.Machine

/-- One step. With no command pending the block is idle and holds all state (60_exceptions.md R142). A word that is no
command is answered ILLEGAL (30_encoding.md R56, R57). -/
def step (s : State) : Host.Outcome State Fault Refusal :=
  match s.takeCommand with
  | none => .next s
  | some (c, s') =>
    match decode c with
    | .ok i => exec i s'
    | .error _ => answerIllegal s'

/-- The host issues the word `w` as the very next command (log 1). -/
def State.withFetchWord (s : State) (nbits w : Nat) : State :=
  { s with pending := BitVec.ofNat 32 (w % 2 ^ nbits) :: s.pending }

end Sys2Proof.Machine
end

