-- ==== Sys2Proof/WellFormed.lean ====
section
/-! DEFINITION. Well-formed commands: the operand ranges of the commands' rules that depend on the word alone
(30_encoding.md R54). The encoding itself needs no check: every operand has exactly its field's width, so every
command can be encoded. An ill-formed command is still a command: it is answered BADARG (60_exceptions.md R130). -/

namespace Sys2Proof

/-- The register indices 10_state.md R18 lists. -/
def listedRegister (r : BitVec 8) : Bool :=
  decide (0x10 ≤ r.toNat ∧ r.toNat ≤ 0x27) || decide (0x30 ≤ r.toNat ∧ r.toNat ≤ 0x43) ||
    decide (r.toNat = 0x50) || decide (r.toNat = 0x58) || decide (0x70 ≤ r.toNat ∧ r.toNat ≤ 0x76)

/-- The legal values of the configuration register with index `ci` (10_state.md R28). -/
def legalConfig (ci : BitVec 8) (val : BitVec 16) : Bool :=
  decide (ci.toNat ≤ 6) &&
    (if ci.toNat = 0 ∨ ci.toNat = 1 then decide (1 ≤ val.toNat)
     else if ci.toNat = 5 then decide (val.toNat ≤ 1)
     else true)

/-- The operand ranges of the commands' rules that the word alone decides (R54, R63, R64, R65, R69, R94, R106, R109). -/
def Instr.wellFormed : Instr → Bool
  | .rdreg r => listedRegister r
  | .wrcfg ci val => legalConfig ci val
  | .memrd sp _ => decide (sp.toNat ≤ 4)
  | .tpPulse v => decide (1 ≤ v.toNat)
  | .flPush v => decide (1 ≤ v.toNat)
  | .flRead n => decide (1 ≤ n.toNat ∧ n.toNat ≤ 1030)
  | .flData s => decide (1 ≤ s.toNat)
  | .nop => true
  | .reset => true
  | .tpStart => true
  | .tpEnd => true
  | .flClear => true
  | .flEst => true
  | .flFind => true
  | .flSetpos _ => true
  | .flHdr => true
  | .crcInit => true
  | .crcByte _ => true
  | .crcMark _ => true
  | .crcCheck _ => true
  | .addInit => true
  | .addByte _ => true
  | .addWord _ => true
  | .addCheck _ => true

end Sys2Proof
end

