-- ==== Sys2Proof/Safety.lean ====
section
/-! DEFINITION. What counts as a safe run: the invariant that every state a run reaches satisfies, in which no step
stops; and the terms the statements use. -/

namespace Sys2Proof.Machine

/-! ### Buffers -/

/-- A buffer of `size` elements with a fill count of `fill`: canonical form, no element outside it, and every element
below the fill count written, so that a read below it never meets an unspecified value (20_memory.md R33, R36). -/
structure Memory.Holds {w : Nat} (m : Memory w) (fill size : Nat) : Prop where
  form : Memory.wf m
  within : ∀ e ∈ m, e.1 < size
  fits : fill ≤ size
  filled : ∀ a < fill, ∃ v, Memory.read m a = some v

/-- The five buffers hold the elements below their fill counts. -/
structure State.BuffersHold (s : State) : Prop where
  tb : Memory.Holds s.tb (s.limit .tb) (s.size .tb)
  hb : Memory.Holds s.hb (s.limit .hb) (s.size .hb)
  fb : Memory.Holds s.fb (s.limit .fb) (s.size .fb)
  fom : Memory.Holds s.fom (s.limit .fom) (s.size .fom)
  fm : Memory.Holds s.fm (s.limit .fm) (s.size .fm)

/-- FM is readable below FL_COUNT. -/
def State.FluxReadable (s : State) : Prop := Memory.Holds s.fm (s.limit .fm) (s.size .fm)

/-- The intervals `FM[a .. a + n − 1]` of a state in which they are written. -/
def State.fluxList (s : State) (a n : Nat) : List Nat :=
  (List.range' a n).map fun k => ((Memory.read s.fm k).getD 0#24).toNat

/-- The intervals a decode sees: from the mark found to the end of FM (42_floppy.md R102). -/
def State.markedFlux (s : State) : List Nat :=
  s.fluxList s.floppy.mpos.toNat (s.floppy.count.toNat - s.floppy.mpos.toNat)

/-- The bytes TB[0 .. TP_BCNT − 1] of a state in which they are written. -/
def State.bodyBytes (s : State) : List (BitVec 8) :=
  (List.range s.tape.bcnt.toNat).map fun a => (Memory.read s.tb a).getD 0#8

/-! ### Phases -/

/-- A marker phase (41_tape.md R76). -/
def Phase.isMarker : Phase → Bool
  | .headerMarker => true
  | .bodyMarker => true
  | .endTrailer => true
  | _ => false

/-- A read_bit phase (41_tape.md R80). -/
def Phase.isSegment : Phase → Bool
  | .readHeader => true
  | .readData => true
  | .cksum => true
  | _ => false

/-- The phases after the header has been unpacked, of a read that has not aborted. -/
def Phase.headerKnown : Phase → Bool
  | .bodyMarker => true
  | .readData => true
  | .cksum => true
  | .endTrailer => true
  | .done => true
  | _ => false

/-! ### Invariants -/

/-- The configuration registers hold legal values (10_state.md R28). -/
structure ConfigRegs.Legal (c : ConfigRegs) : Prop where
  ficStd : c.ficStd ≠ 0#16
  ficEnd : c.ficEnd ≠ 0#16

/-- How far the read has come, by phase: the marker sub-state, and the byte counters against TP_REM and TP_LENGTH
(41_tape.md R75 to R86). -/
def TapeRegs.Progress (t : TapeRegs) : Prop :=
  match t.phase with
  | .idle => t = TapeRegs.reset
  | .findPilot => t.msub = .none ∧ t.hcnt = 0#5 ∧ t.bcnt = 0#17 ∧ t.ccnt = 0#2 ∧ t.ckstat = 0#2
  | .pilotFound => t.msub = .none ∧ t.hcnt = 0#5 ∧ t.bcnt = 0#17 ∧ t.ccnt = 0#2 ∧ t.ckstat = 0#2
  | .pilotFound2 => t.msub = .none ∧ t.hcnt = 0#5 ∧ t.bcnt = 0#17 ∧ t.ccnt = 0#2 ∧ t.ckstat = 0#2
  | .headerMarker => t.msub ≠ .none ∧ t.hcnt = 0#5 ∧ t.bcnt = 0#17 ∧ t.ccnt = 0#2 ∧ t.ckstat = 0#2
  | .readHeader =>
    t.msub = .none ∧ t.hcnt.toNat + t.rem.toNat = 20 ∧ t.bcnt = 0#17 ∧ t.ccnt = 0#2 ∧ t.ckstat = 0#2 ∧
      (t.syncph = false → t.rem ≠ 0#16)
  | .bodyMarker => t.msub ≠ .none ∧ t.hcnt = 20#5 ∧ t.bcnt = 0#17 ∧ t.ccnt = 0#2 ∧ t.ckstat = 0#2
  | .readData =>
    t.msub = .none ∧ t.hcnt = 20#5 ∧ t.bcnt.toNat + t.rem.toNat = t.length.toNat ∧ t.ccnt = 0#2 ∧
      t.ckstat = 0#2 ∧ (t.syncph = false → t.rem ≠ 0#16)
  | .cksum =>
    t.msub = .none ∧ t.hcnt = 20#5 ∧ t.bcnt.toNat = t.length.toNat ∧ t.ccnt.toNat + t.rem.toNat = 2 ∧
      t.ckstat = 0#2 ∧ (t.syncph = false → t.rem ≠ 0#16)
  | .endTrailer =>
    t.msub ≠ .none ∧ t.hcnt = 20#5 ∧ t.bcnt.toNat = t.length.toNat ∧ t.ccnt = 2#2 ∧
      t.ckstat = ckstatOf (t.ckread == t.sum)
  | .done =>
    t.msub = .none ∧ t.hcnt = 20#5 ∧ t.bcnt.toNat = t.length.toNat ∧ t.ccnt = 2#2 ∧
      t.ckstat = ckstatOf (t.ckread == t.sum)
  | .fatal => t.hcnt.toNat ≤ 20 ∧ t.bcnt.toNat ≤ 65535 ∧ t.ccnt.toNat ≤ 2

/-- The TAPE registers of a state that a run reaches: an error kind exactly in FATAL (10_state.md R22, R30), the
progress of the phase, an impulse still to consume in MID (41_tape.md R76), and a TP_PS that TP_PN impulses of 24 bits
can sum to (R71). With these no counter of TAPE leaves its width (log 13). -/
structure TapeRegs.Inv (t : TapeRegs) : Prop where
  err : t.phase = .fatal ↔ t.err ≠ .none
  progress : t.Progress
  mid : t.msub = .mid → t.mcnt ≠ 0#16
  pilot : t.ps.toNat ≤ t.pn.toNat * 16777215

/-- The FLOPPY registers of a state that a run reaches: the legal values of 10_state.md R25, and the sync length and
mark as their commands leave them (42_floppy.md R95, R98). -/
structure FloppyRegs.Inv (f : FloppyRegs) : Prop where
  err : f.mode = .fatal ↔ f.err ≠ .none
  kinds : f.err = .none ∨ f.err = .calibration ∨ f.err = .bitTiming
  noSync : f.svalid = false → f.ss = 0#64 ∧ f.sk = 0#21
  sync : f.svalid = true → 2 ≤ f.sk.toNat ∧ f.sk.toNat < f.count.toNat ∧ f.sk.toNat ≤ f.ss.toNat
  pos : f.pos.toNat ≤ f.count.toNat
  mpos : f.mpos.toNat ≤ f.count.toNat
  found : f.mfound = true → f.svalid = true ∧ f.mpos.toNat + 15 < f.count.toNat
  nsym : f.nsym.toNat ≤ 8241
  fblen : f.fblen.toNat = (f.nsym.toNat - 1) / 8
  kind : f.fstat.extractLsb' 6 2 ≠ 3#2
  dlen : f.dlen.toNat = 0 ∨ f.dlen.toNat = 256 ∨ f.dlen.toNat = 512 ∨ f.dlen.toNat = 1024

/-- The invariant: legal parameters and configuration, the units' registers as above, every buffer readable below its
fill count, and no zero interval in FM (00_scope.md R8). -/
structure State.Inv (s : State) : Prop where
  params : s.params.legal = true
  cfg : s.cfg.Legal
  tape : s.tape.Inv
  floppy : s.floppy.Inv
  buffers : s.BuffersHold
  flux : ∀ e ∈ s.fm, e.2 ≠ 0#24

/-- The tape record as the read has built it: TP_SUM is the checksum of the body stored so far (41_tape.md R84), and
once the header is unpacked TP_START_ADDR and TP_LENGTH are its first four bytes, low byte first (R85). -/
structure State.RecordInv (s : State) : Prop where
  body : s.tape.sum = eacSeq 0#16 s.bodyBytes
  header : s.tape.phase.headerKnown = true → ∃ b0 b1 b2 b3,
    Memory.read s.hb 0 = some b0 ∧ Memory.read s.hb 1 = some b1 ∧ Memory.read s.hb 2 = some b2 ∧
      Memory.read s.hb 3 = some b3 ∧ s.tape.startAddr = b1 ++ b0 ∧ s.tape.length = b3 ++ b2

/-! ### Terms of the statements -/

/-- The state an outcome leads to, changed by `f`; a stop stays a stop. -/
def mapNext (f : State → State) : Host.Outcome State Fault Refusal → Host.Outcome State Fault Refusal
  | .next s => .next (f s)
  | .fault r => .fault r
  | .refused r => .refused r

/-- The commands of a list one after the other, up to the first stop. -/
def execList : List Instr → State → Host.Outcome State Fault Refusal
  | [], s => .next s
  | i :: is, s =>
    match exec i s with
    | .next s' => execList is s'
    | .fault r => .fault r
    | .refused r => .refused r

/-- The marker check of the sub-state fails for an impulse of length `p` (41_tape.md R76). -/
def TapeRegs.CheckFails (t : TapeRegs) (p : Nat) : Prop :=
  match t.msub with
  | .lead => 200 * (p : Int) < (2 * (t.mfic.toNat : Int) - 1) * (t.l0h.toNat : Int)
  | .final => 200 * p < 7 * t.l0h.toNat
  | .sync1 => p ≤ t.cut.toNat
  | .sync0 => t.cut.toNat < p
  | .mid => False
  | .none => False

/-- A segment of `k` bytes begins in phase `ph` (41_tape.md R78, R79). -/
def TapeRegs.enterSegment (t : TapeRegs) (ph : Phase) (k : BitVec 16) : TapeRegs :=
  { t with phase := ph, msub := .none, rem := k, acc := 0#8, bitcnt := 0#3, syncph := false }

/-- The registers after a marker step whose check passed or was ignored (41_tape.md R76, R78). -/
def TapeRegs.advance (t : TapeRegs) : TapeRegs :=
  match t.msub with
  | .lead => { t with msub := if t.mcnt = 0#16 then .final else .mid }
  | .mid => { t with mcnt := t.mcnt - 1#16, msub := if t.mcnt = 1#16 then .final else .mid }
  | .final => { t with msub := .sync1 }
  | .sync1 => { t with msub := .sync0 }
  | .sync0 =>
    match t.phase with
    | .headerMarker => t.enterSegment .readHeader 20#16
    | .bodyMarker => if t.length = 0#16 then t.enterSegment .cksum 2#16 else t.enterSegment .readData t.length
    | .endTrailer => { t with phase := .done, msub := .none }
    | _ => { t with msub := .none }
  | .none => t

end Sys2Proof.Machine
end

