-- ==== Sys2Proof/Certificates/Slice0/Obligations.lean ====
section
/-! DEFINITION. The statements for the provers. A statement about a result gives the whole next state, or every part
of it that the rule writes; what the commands of a unit leave unchanged is in `UnitsShareNothing`,
`TapeCommandsMemoryFrame` and `FloppyCommandsMemoryFrame`. -/

open Sys2Proof Sys2Proof.Machine

/-! ### Encoding (30_encoding.md) -/

/-- Decoding the word of an instruction gives the instruction back, for every operand the encoding admits. -/
def Obligations.DecodeInvertsEncode : Prop :=
  ∀ i : Instr, decode (encode i) = .ok i

/-- A word that decodes to an instruction is that instruction's word: no bit of a command is read twice or dropped. -/
def Obligations.EncodeInvertsDecode : Prop :=
  ∀ (c : Word) (i : Instr), decode c = .ok i → encode i = c

/-- Exactly one row of the opcode table accepts a word, and it decodes; or none does, and the word is ILLEGAL. The spec
derives this from R55 and R57 (R58). -/
def Obligations.DecodeFollowsOpcodeTable : Prop :=
  ∀ c : Word,
    ((∃ i, decode c = .ok i) ∧ ∃! row, row ∈ opcodeTable ∧ row.accepts c = true) ∨
      ((∀ i, decode c ≠ .ok i) ∧ (∀ row ∈ opcodeTable, row.accepts c = false) ∧
        ∀ (s : State) (cs : List Word), s.pending = c :: cs →
          step s = .next ({ s with pending := cs }.refuse .illegal))

/-- R56, R57: an unlisted opcode, and a listed opcode whose reserved operand bits are not all zero, are answered
ILLEGAL and change no state. -/
def Obligations.IllegalWordsChangeNothing : Prop :=
  ∀ (c : Word) (s : State) (cs : List Word), s.pending = c :: cs →
    ((∀ row ∈ opcodeTable, c &&& 0xFF000000#32 ≠ row.pattern) →
      step s = .next { s with pending := cs, resp := some ⟨.illegal, 0#32⟩ }) ∧
    (∀ row ∈ opcodeTable, c &&& 0xFF000000#32 = row.pattern → c &&& row.mask ≠ row.pattern →
      step s = .next { s with pending := cs, resp := some ⟨.illegal, 0#32⟩ })

/-- A few words written out from R53 and R55 decode to the commands they stand for. -/
def Obligations.WrittenWordsDecode : Prop :=
  decode 0x00000000#32 = .ok .nop ∧ decode 0x02000050#32 = .ok (.rdreg 0x50#8) ∧
    decode 0x0301000C#32 = .ok (.wrcfg 1#8 12#16) ∧ decode 0x04100004#32 = .ok (.memrd 1#4 4#20) ∧
    decode 0x1100000A#32 = .ok (.tpPulse 10#24) ∧ decode 0x241FFFFF#32 = .ok (.flSetpos 0x1FFFFF#21) ∧
    decode 0x250007FF#32 = .ok (.flRead 0x7FF#11) ∧ decode 0x27000003#32 = .ok (.flData 3#2) ∧
    decode 0x31000031#32 = .ok (.crcByte 0x31#8) ∧ decode 0x4200FEFF#32 = .ok (.addWord 0xFEFF#16) ∧
    decode 0x05000000#32 = .error .unlistedOpcode ∧ decode 0x31000100#32 = .error .reservedBits

/-- A step takes the oldest word the host has issued and runs the command it decodes to, well formed or not; with no
word issued the block is idle and holds all state. That words wait in `pending` is the model's choice (log 1). -/
def Obligations.StepRunsDecodedCommand : Prop :=
  (∀ (s : State) (c : Word) (cs : List Word) (i : Instr), s.pending = c :: cs → decode c = .ok i →
      step s = exec i { s with pending := cs }) ∧
    ∀ s : State, s.pending = [] → step s = .next s

/-! ### The whole machine -/

/-- Every step keeps the invariant: legal configuration, the TAPE and FLOPPY registers in step with the phase and
with one another, the five buffers in canonical form and written below their fill counts, no zero interval in FM. -/
def Obligations.StepKeepsInvariant : Prop :=
  ∀ s s' : State, s.Inv → step s = .next s' → s'.Inv

/-- No step from a state with the invariant stops: no fault and no refusal is ever reached. -/
def Obligations.StepNeverStops : Prop :=
  ∀ s : State, s.Inv → ∃ s', step s = .next s'

/-- Every step keeps the tape record right: TP_SUM is the additive checksum of the body bytes stored so far, and once
the header is unpacked TP_START_ADDR and TP_LENGTH are HB[0..3], low byte first. -/
def Obligations.StepKeepsTapeRecord : Prop :=
  ∀ s s' : State, s.Inv → s.RecordInv → step s = .next s' → s'.RecordInv

/-- The power-on state satisfies the invariants, for all legal parameters; so does State.reset, whose values of the OPEN
parameters are the model's choice (log 3). -/
def Obligations.PowerOnSatisfiesInvariants : Prop :=
  (∀ p : Params, p.legal = true → (State.powerOn p).Inv ∧ (State.powerOn p).RecordInv) ∧
    State.reset.Inv ∧ State.reset.RecordInv

/-- RESET sets every register to its reset value, the OPEN ones to the parameters, clears no buffer, and answers OK; the
registers then read as the reset columns of 10_state.md say (R62). That the words still pending stay is the model's
deduction, on which R62 is silent (log 14). -/
def Obligations.ResetRestoresEveryRegister : Prop :=
  decode 0x01000000#32 = .ok .reset ∧
    ∀ s : State,
      exec .reset s = .next { State.powerOn s.params with
        tb := s.tb, hb := s.hb, fb := s.fb, fom := s.fom, fm := s.fm
        pending := s.pending, resp := some ⟨.ok, 0#32⟩ } ∧
      ∀ r : BitVec 8, listedRegister r = true →
        (State.powerOn s.params).register r = some
          (if r = 0x50#8 then 0xFFFF#32
           else if r = 0x70#8 then zext s.params.ficStd
           else if r = 0x71#8 then 9#32
           else if r = 0x72#8 then zext s.params.mlenHdr
           else if r = 0x73#8 then zext s.params.mlenBody
           else if r = 0x74#8 then zext s.params.mlenEnd
           else if r = 0x75#8 then 1#32
           else 0#32)

/-- A command that leads to a next state has answered: the response in that state is this command's, whatever the
response before it was, and the words still pending and the parameters are as before. That a state holds the last
response, the words pending and the parameters is the model's choice (logs 1, 2, 3). -/
def Obligations.CommandsAnswerOnce : Prop :=
  ∀ (i : Instr) (s : State),
    (∀ r, exec i { s with resp := r } = exec i s) ∧
    ∀ s', exec i s = .next s' → (∃ r, s'.resp = some r) ∧ s'.pending = s.pending ∧ s'.params = s.params

/-- R129: a command word answered ILLEGAL, BADARG or SEQ changes nothing but the response; one answered FATAL
changes TP_PHASE and TP_ERR, or FL_STATE and FL_ERR, and nothing else. -/
def Obligations.RefusedCommandsChangeNothing : Prop :=
  ∀ (s s' : State) (c : Word) (cs : List Word) (r : Response),
    s.pending = c :: cs → step s = .next s' → s'.resp = some r →
    (r.code = .illegal ∨ r.code = .badarg ∨ r.code = .seq →
      s' = { s with pending := cs, resp := some ⟨r.code, 0#32⟩ }) ∧
    (r.code = .fatal → ∃ k,
      s' = { s with pending := cs, tape := { s.tape with phase := .fatal, err := k }, resp := some r } ∨
      s' = { s with pending := cs, floppy := { s.floppy with mode := .fatal, err := k }, resp := some r })

/-- Every fatal error, with its unit, kind, command and cause: the table that the spec derives from R131 (R132). For a
decode, an interval over the bound lies in the flux from the mark on. -/
def Obligations.FatalErrorsHaveTheirCauses : Prop :=
  ∀ (i : Instr) (s s' : State) (d : Word), exec i s = .next s' → s'.resp = some ⟨.fatal, d⟩ →
    (s' = s.failTape .calibration ∧ s.tape.phase = .findPilot ∧
        (i = .tpEnd ∨ ((∃ v, i = .tpPulse v) ∧ s.tape.pn = 0xFFFFFFFF#32))) ∨
    (s' = s.failTape .marker ∧ s.tape.phase.isMarker = true ∧ s.tape.mlenient = false ∧
        ∃ v, i = .tpPulse v ∧ s.tape.CheckFails v.toNat) ∨
    (s' = s.failTape .bitTiming ∧ s.tape.phase.isSegment = true ∧
        ∃ v, i = .tpPulse v ∧ 7 * s.tape.l0h.toNat < 250 * v.toNat) ∨
    (s' = s.failTape .protocol ∧ s.tape.phase.isSegment = true ∧ s.tape.syncph = true ∧
        ∃ v, i = .tpPulse v ∧ s.tape.cut.toNat < v.toNat) ∨
    (s' = s.failTape .truncated ∧ i = .tpEnd ∧
        s.tape.phase ≠ .idle ∧ s.tape.phase ≠ .findPilot ∧ s.tape.phase ≠ .done ∧ s.tape.phase ≠ .fatal) ∨
    (s' = s.failFloppy .calibration ∧ i = .flEst ∧
        ∃ fs, s.fluxSpan 0 s.floppy.count.toNat = .ok fs ∧
          ∀ k (hk : k < fs.length), 2 ≤ k → deviates (fs.take k).sum k fs[k] = false) ∨
    (s' = s.failFloppy .bitTiming ∧ ((∃ n, i = .flRead n) ∨ i = .flHdr ∨ ∃ z, i = .flData z) ∧
        ∃ fs, s.fluxSpan s.floppy.mpos.toNat (s.floppy.count.toNat - s.floppy.mpos.toNat) = .ok fs ∧
          ∃ f ∈ fs, overBound s.cell f = true)

/-- A command with an operand outside the range of its rule is answered BADARG in every state, whatever state its unit
is in. -/
def Obligations.OperandOutOfRangeIsBadarg : Prop :=
  ∀ (i : Instr) (s : State), i.wellFormed = false → exec i s = .next { s with resp := some ⟨.badarg, 0#32⟩ }

/-- A unit in FATAL refuses its commands with SEQ, and leaves FATAL only by TP_START (TAPE), FL_CLEAR (FLOPPY) or
RESET. -/
def Obligations.FatalUnitsRefuseUntilRestarted : Prop :=
  (∀ s : State, s.tape.phase = .fatal →
    (∀ v : BitVec 24, v ≠ 0#24 → exec (.tpPulse v) s = .next (s.refuse .seq)) ∧
    exec .tpEnd s = .next (s.refuse .seq)) ∧
  (∀ s : State, s.floppy.mode = .fatal →
    (∀ v : BitVec 24, v ≠ 0#24 → exec (.flPush v) s = .next (s.refuse .seq)) ∧
    exec .flEst s = .next (s.refuse .seq) ∧ exec .flFind s = .next (s.refuse .seq) ∧
    (∀ p : BitVec 21, p.toNat ≤ s.floppy.count.toNat → exec (.flSetpos p) s = .next (s.refuse .seq)) ∧
    (∀ n : BitVec 11, 1 ≤ n.toNat → n.toNat ≤ 1030 → exec (.flRead n) s = .next (s.refuse .seq)) ∧
    exec .flHdr s = .next (s.refuse .seq) ∧
    (∀ z : BitVec 2, z ≠ 0#2 → exec (.flData z) s = .next (s.refuse .seq))) ∧
  ∀ (i : Instr) (s s' : State), exec i s = .next s' →
    (s.tape.phase = .fatal → s'.tape.phase ≠ .fatal → i = .tpStart ∨ i = .reset) ∧
    (s.floppy.mode = .fatal → s'.floppy.mode ≠ .fatal → i = .flClear ∨ i = .reset)

/-- The units share nothing but the CFG registers, which only TAPE reads (R50): what each command may change, and what it
may read. The second part compares two states `s` and `t` that agree on what the command may read: it then does the same
in both, and in `t` it takes from what it does in `s` only what it may change. -/
def Obligations.UnitsShareNothing : Prop :=
  (∀ (i : Instr) (s s' : State), exec i s = .next s' →
    match i with
    | .nop | .rdreg _ | .memrd _ _ | .crcCheck _ | .addCheck _ => s' = { s with resp := s'.resp }
    | .wrcfg _ _ => s' = { s with cfg := s'.cfg, resp := s'.resp }
    | .crcInit | .crcByte _ | .crcMark _ => s' = { s with crc := s'.crc, resp := s'.resp }
    | .addInit | .addByte _ | .addWord _ => s' = { s with sum := s'.sum, resp := s'.resp }
    | .tpStart | .tpEnd => s' = { s with tape := s'.tape, resp := s'.resp }
    | .tpPulse _ => s' = { s with tape := s'.tape, tb := s'.tb, hb := s'.hb, resp := s'.resp }
    | .flClear | .flEst | .flFind | .flSetpos _ => s' = { s with floppy := s'.floppy, resp := s'.resp }
    | .flPush _ => s' = { s with floppy := s'.floppy, fm := s'.fm, resp := s'.resp }
    | .flRead _ | .flHdr | .flData _ =>
      s' = { s with floppy := s'.floppy, fb := s'.fb, fom := s'.fom, resp := s'.resp }
    | .reset =>
      s' = { s with crc := s'.crc, sum := s'.sum, tape := s'.tape, floppy := s'.floppy, cfg := s'.cfg, resp := s'.resp }) ∧
  ∀ (i : Instr) (s t : State),
    match i with
    | .nop => exec i t = mapNext (fun s' => { t with resp := s'.resp }) (exec i s)
    | .rdreg _ => t.crc = s.crc → t.sum = s.sum → t.tape = s.tape → t.floppy = s.floppy → t.cfg = s.cfg →
      exec i t = mapNext (fun s' => { t with resp := s'.resp }) (exec i s)
    | .memrd _ _ => t.tape = s.tape → t.floppy = s.floppy → t.params = s.params → t.tb = s.tb → t.hb = s.hb →
      t.fb = s.fb → t.fom = s.fom → t.fm = s.fm →
      exec i t = mapNext (fun s' => { t with resp := s'.resp }) (exec i s)
    | .wrcfg _ _ => t.cfg = s.cfg → exec i t = mapNext (fun s' => { t with cfg := s'.cfg, resp := s'.resp }) (exec i s)
    | .crcInit | .crcMark _ => exec i t = mapNext (fun s' => { t with crc := s'.crc, resp := s'.resp }) (exec i s)
    | .crcByte _ => t.crc = s.crc → exec i t = mapNext (fun s' => { t with crc := s'.crc, resp := s'.resp }) (exec i s)
    | .crcCheck _ => t.crc = s.crc → exec i t = mapNext (fun s' => { t with resp := s'.resp }) (exec i s)
    | .addInit => exec i t = mapNext (fun s' => { t with sum := s'.sum, resp := s'.resp }) (exec i s)
    | .addByte _ | .addWord _ => t.sum = s.sum →
      exec i t = mapNext (fun s' => { t with sum := s'.sum, resp := s'.resp }) (exec i s)
    | .addCheck _ => t.sum = s.sum → exec i t = mapNext (fun s' => { t with resp := s'.resp }) (exec i s)
    | .tpStart => exec i t = mapNext (fun s' => { t with tape := s'.tape, resp := s'.resp }) (exec i s)
    | .tpEnd => t.tape = s.tape → exec i t = mapNext (fun s' => { t with tape := s'.tape, resp := s'.resp }) (exec i s)
    | .tpPulse _ => t.tape = s.tape → t.cfg = s.cfg → t.tb = s.tb → t.hb = s.hb →
      exec i t = mapNext (fun s' => { t with tape := s'.tape, tb := s'.tb, hb := s'.hb, resp := s'.resp }) (exec i s)
    | .flClear => exec i t = mapNext (fun s' => { t with floppy := s'.floppy, resp := s'.resp }) (exec i s)
    | .flSetpos _ => t.floppy = s.floppy →
      exec i t = mapNext (fun s' => { t with floppy := s'.floppy, resp := s'.resp }) (exec i s)
    | .flEst | .flFind => t.floppy = s.floppy → t.params = s.params → t.fm = s.fm →
      exec i t = mapNext (fun s' => { t with floppy := s'.floppy, resp := s'.resp }) (exec i s)
    | .flPush _ => t.floppy = s.floppy → t.params = s.params → t.fm = s.fm →
      exec i t = mapNext (fun s' => { t with floppy := s'.floppy, fm := s'.fm, resp := s'.resp }) (exec i s)
    | .flRead _ | .flHdr | .flData _ => t.floppy = s.floppy → t.params = s.params → t.fm = s.fm → t.fb = s.fb →
      t.fom = s.fom →
      exec i t =
        mapNext (fun s' => { t with floppy := s'.floppy, fb := s'.fb, fom := s'.fom, resp := s'.resp }) (exec i s)
    | .reset => t.params = s.params →
      exec i t = mapNext (fun s' => { t with
        crc := s'.crc, sum := s'.sum, tape := s'.tape, floppy := s'.floppy, cfg := s'.cfg, resp := s'.resp }) (exec i s)

/-- TP_PULSE stores at most one element: HB[TP_HCNT] or TB[TP_BCNT], where an eighth data bit completes a byte of the
header or the body. Every other element of the buffers reads as before. -/
def Obligations.TapeCommandsMemoryFrame : Prop :=
  ∀ (v : BitVec 24) (s s' : State), exec (.tpPulse v) s = .next s' →
    (∀ a, ¬(s.tape.phase = .readHeader ∧ s.tape.syncph = false ∧ s.tape.bitcnt = 7#3 ∧ a = s.tape.hcnt.toNat) →
      s'.element .hb a = s.element .hb a) ∧
    (∀ a, ¬(s.tape.phase = .readData ∧ s.tape.syncph = false ∧ s.tape.bitcnt = 7#3 ∧ a = s.tape.bcnt.toNat) →
      s'.element .tb a = s.element .tb a) ∧
    ∀ a, s'.element .fb a = s.element .fb a ∧ s'.element .fom a = s.element .fom a ∧
      s'.element .fm a = s.element .fm a

/-- FL_PUSH stores at most FM[FL_COUNT]; a decode stores FB and FOM from element 0 to the number of groups it
assembles, and nothing where it raises a fatal error. Every other element of the buffers reads as before. -/
def Obligations.FloppyCommandsMemoryFrame : Prop :=
  (∀ (v : BitVec 24) (s s' : State), exec (.flPush v) s = .next s' →
    (∀ a, a ≠ s.floppy.count.toNat → s'.element .fm a = s.element .fm a) ∧
    ∀ a, s'.element .fb a = s.element .fb a ∧ s'.element .fom a = s.element .fom a) ∧
  ∀ (i : Instr) (n : Nat) (s s' : State),
    (i = .flRead (BitVec.ofNat 11 n) ∧ n < 2048 ∨ i = .flHdr ∧ n = 10 ∨
      ∃ z, i = .flData z ∧ n = payloadSize z + 6) →
    exec i s = .next s' →
    (∀ a, s'.element .fm a = s.element .fm a) ∧
    (∀ o, s.decodeField n = .ok o → ∀ a, (assemble o.syms).length ≤ a →
      s'.element .fb a = s.element .fb a ∧ s'.element .fom a = s.element .fom a) ∧
    (∀ e, s.decodeField n = .error e → ∀ a,
      s'.element .fb a = s.element .fb a ∧ s'.element .fom a = s.element .fom a)

/-- R24: the pilot step alone writes TP_CUT and TP_L0H, once, as it leaves FIND_PILOT; no command changes them until
the next TP_START or RESET, and no other command returns to FIND_PILOT. -/
def Obligations.CutoffIsFrozen : Prop :=
  ∀ (i : Instr) (s s' : State), exec i s = .next s' → i ≠ .tpStart → i ≠ .reset →
    (s'.tape.cut ≠ s.tape.cut ∨ s'.tape.l0h ≠ s.tape.l0h →
      s.tape.phase = .findPilot ∧ s'.tape.phase = .pilotFound ∧ ∃ v, i = .tpPulse v) ∧
    (s'.tape.phase = .findPilot → s.tape.phase = .findPilot)

/-- R27: FL_SS, FL_SK and FL_SVALID are written only by FL_EST and cleared by FL_CLEAR and RESET; while FL_SVALID
is 1, FL_EST does not change them either. -/
def Obligations.SyncLengthIsFrozen : Prop :=
  ∀ (i : Instr) (s s' : State), exec i s = .next s' →
    ((i = .flClear ∨ i = .reset) → s'.floppy.ss = 0#64 ∧ s'.floppy.sk = 0#21 ∧ s'.floppy.svalid = false) ∧
    (i ≠ .flClear → i ≠ .reset → (i ≠ .flEst ∨ s.floppy.svalid = true) →
      s'.floppy.ss = s.floppy.ss ∧ s'.floppy.sk = s.floppy.sk ∧ s'.floppy.svalid = s.floppy.svalid)

/-- CFG_DBG is read by no command but RDREG 0x76: with another value in it every other command does the same. -/
def Obligations.DebugVerbosityHasNoEffect : Prop :=
  ∀ (i : Instr) (s : State) (d : BitVec 16),
    i ≠ .rdreg 0x76#8 → i ≠ .reset → (∀ w, i ≠ .wrcfg 6#8 w) →
    exec i { s with cfg := { s.cfg with dbg := d } } =
      mapNext (fun t => { t with cfg := { t.cfg with dbg := d } }) (exec i s)

/-- The TP_WARN bits have no effect on decoding: whatever they hold, every command but RDREG 0x12 does the same to
all other state. -/
def Obligations.WarningsHaveNoEffect : Prop :=
  ∀ (i : Instr) (s : State) (w : BitVec 3), i ≠ .rdreg 0x12#8 →
    mapNext (fun t => { t with tape := { t.tape with warn := 0#3 } })
        (exec i { s with tape := { s.tape with warn := w } }) =
      mapNext (fun t => { t with tape := { t.tape with warn := 0#3 } }) (exec i s)

/-- TP_PULSE never takes the read back to an earlier phase. -/
def Obligations.TapePhasesOnlyAdvance : Prop :=
  ∀ (v : BitVec 24) (s s' : State), exec (.tpPulse v) s = .next s' →
    s.tape.phase.code.toNat ≤ s'.tape.phase.code.toNat

/-! ### Block control commands (40_control.md) -/

/-- R61: NOP answers (OK, 0) and changes nothing. -/
def Obligations.NopChangesNothing : Prop :=
  decode 0x00000000#32 = .ok .nop ∧ ∀ s : State, exec .nop s = .next { s with resp := some ⟨.ok, 0#32⟩ }

/-- R63: RDREG answers a listed register's value, zero-extended, and BADARG for every other index. -/
def Obligations.RdregReadsListedRegisters : Prop :=
  ∀ (r : BitVec 8) (s : State),
    decode (0x02#8 ++ (0#16 ++ r)) = .ok (.rdreg r) ∧
    (listedRegister r = true →
      ∃ v, s.register r = some v ∧ exec (.rdreg r) s = .next { s with resp := some ⟨.ok, v⟩ }) ∧
    (listedRegister r = false → exec (.rdreg r) s = .next { s with resp := some ⟨.badarg, 0#32⟩ })

/-- The register at each index, zero-extended; TP_PS and FL_SS as two halves; and the codes of TP_PHASE (R22), TP_MSUB
(R21), TP_ERR and FL_ERR (R30). -/
def Obligations.RegisterIndicesNameTheirRegisters : Prop :=
  [Phase.idle, .findPilot, .pilotFound, .pilotFound2, .headerMarker, .readHeader, .bodyMarker, .readData, .cksum,
      .endTrailer, .done, .fatal].map Phase.code =
    [0#4, 1#4, 2#4, 3#4, 4#4, 5#4, 6#4, 7#4, 8#4, 9#4, 10#4, 15#4] ∧
  [MarkerSub.none, .lead, .mid, .final, .sync1, .sync0].map MarkerSub.code = [0#3, 1#3, 2#3, 3#3, 4#3, 5#3] ∧
  [ErrKind.none, .calibration, .marker, .bitTiming, .protocol, .truncated].map ErrKind.code =
    [0#3, 1#3, 2#3, 3#3, 4#3, 5#3] ∧
  ∀ s : State,
    ([0x10, 0x11, 0x12, 0x13, 0x14, 0x15, 0x16, 0x17, 0x18, 0x19, 0x1A, 0x1B].map fun r => s.register (BitVec.ofNat 8 r)) =
      [some (s.tape.phase.code.setWidth 32), some (s.tape.err.code.setWidth 32), some (s.tape.warn.setWidth 32),
       some s.tape.pn, some (s.tape.ps.setWidth 32), some ((s.tape.ps >>> 32).setWidth 32), some s.tape.l0h,
       some s.tape.cut, some (s.tape.acc.setWidth 32), some (s.tape.bitcnt.setWidth 32),
       some (if s.tape.syncph then 1#32 else 0#32), some (s.tape.rem.setWidth 32)] ∧
    ([0x1C, 0x1D, 0x1E, 0x1F, 0x20, 0x21, 0x22, 0x23, 0x24, 0x25, 0x26, 0x27].map fun r => s.register (BitVec.ofNat 8 r)) =
      [some (s.tape.msub.code.setWidth 32), some (s.tape.mcnt.setWidth 32), some (s.tape.mfic.setWidth 32),
       some (if s.tape.mlenient then 1#32 else 0#32), some (s.tape.hcnt.setWidth 32), some (s.tape.bcnt.setWidth 32),
       some (s.tape.ccnt.setWidth 32), some (s.tape.startAddr.setWidth 32), some (s.tape.length.setWidth 32),
       some (s.tape.ckread.setWidth 32), some (s.tape.sum.setWidth 32), some (s.tape.ckstat.setWidth 32)] ∧
    ([0x30, 0x31, 0x32, 0x33, 0x34, 0x35, 0x36, 0x37, 0x38, 0x39].map fun r => s.register (BitVec.ofNat 8 r)) =
      [some (if s.floppy.mode = .fatal then 1#32 else 0#32), some (s.floppy.err.code.setWidth 32),
       some (s.floppy.count.setWidth 32), some (s.floppy.ss.setWidth 32), some ((s.floppy.ss >>> 32).setWidth 32),
       some (s.floppy.sk.setWidth 32), some (if s.floppy.svalid then 1#32 else 0#32), some (s.floppy.pos.setWidth 32),
       some (s.floppy.mpos.setWidth 32), some (if s.floppy.mfound then 1#32 else 0#32)] ∧
    ([0x3A, 0x3B, 0x3C, 0x3D, 0x3E, 0x3F, 0x40, 0x41, 0x42, 0x43].map fun r => s.register (BitVec.ofNat 8 r)) =
      [some (s.floppy.fstat.setWidth 32), some (s.floppy.fblen.setWidth 32), some (s.floppy.nsym.setWidth 32),
       some (s.floppy.track.setWidth 32), some (s.floppy.side.setWidth 32), some (s.floppy.sector.setWidth 32),
       some (s.floppy.size.setWidth 32), some (s.floppy.crcRead.setWidth 32), some (s.floppy.crcCalc.setWidth 32),
       some (s.floppy.dlen.setWidth 32)] ∧
    ([0x50, 0x58, 0x70, 0x71, 0x72, 0x73, 0x74, 0x75, 0x76].map fun r => s.register (BitVec.ofNat 8 r)) =
      [some (s.crc.setWidth 32), some (s.sum.setWidth 32), some (s.cfg.ficStd.setWidth 32),
       some (s.cfg.ficEnd.setWidth 32), some (s.cfg.mlenHdr.setWidth 32), some (s.cfg.mlenBody.setWidth 32),
       some (s.cfg.mlenEnd.setWidth 32), some (if s.cfg.endLenient then 1#32 else 0#32), some (s.cfg.dbg.setWidth 32)]

/-- R64: WRCFG writes a legal value to the configuration register of its index, and answers BADARG, with nothing
written, for an index above 6 or a value that is not legal. -/
def Obligations.WrcfgWritesLegalValues : Prop :=
  ∀ (ci : BitVec 8) (val : BitVec 16) (s : State),
    decode (0x03#8 ++ (ci ++ val)) = .ok (.wrcfg ci val) ∧
    (ci.toNat > 6 → exec (.wrcfg ci val) s = .next { s with resp := some ⟨.badarg, 0#32⟩ }) ∧
    (ci = 0#8 → exec (.wrcfg ci val) s = if val = 0#16 then .next { s with resp := some ⟨.badarg, 0#32⟩ }
      else .next { s with cfg := { s.cfg with ficStd := val }, resp := some ⟨.ok, 0#32⟩ }) ∧
    (ci = 1#8 → exec (.wrcfg ci val) s = if val = 0#16 then .next { s with resp := some ⟨.badarg, 0#32⟩ }
      else .next { s with cfg := { s.cfg with ficEnd := val }, resp := some ⟨.ok, 0#32⟩ }) ∧
    (ci = 2#8 → exec (.wrcfg ci val) s = .next { s with cfg := { s.cfg with mlenHdr := val }, resp := some ⟨.ok, 0#32⟩ }) ∧
    (ci = 3#8 → exec (.wrcfg ci val) s = .next { s with cfg := { s.cfg with mlenBody := val }, resp := some ⟨.ok, 0#32⟩ }) ∧
    (ci = 4#8 → exec (.wrcfg ci val) s = .next { s with cfg := { s.cfg with mlenEnd := val }, resp := some ⟨.ok, 0#32⟩ }) ∧
    (ci = 5#8 → exec (.wrcfg ci val) s = if val.toNat > 1 then .next { s with resp := some ⟨.badarg, 0#32⟩ }
      else .next { s with cfg := { s.cfg with endLenient := val == 1#16 }, resp := some ⟨.ok, 0#32⟩ }) ∧
    (ci = 6#8 → exec (.wrcfg ci val) s = .next { s with cfg := { s.cfg with dbg := val }, resp := some ⟨.ok, 0#32⟩ })

/-- R65: MEMRD answers an element below the fill count of its space, zero-extended, and BADARG for a space above 4 or
an address at or above the fill count. The elements below the fill count are written in every state with the
invariant. -/
def Obligations.MemrdReadsBelowFillCount : Prop :=
  ∀ (sp : BitVec 4) (a : BitVec 20) (s : State),
    decode (0x04#8 ++ (sp ++ a)) = .ok (.memrd sp a) ∧
    (sp.toNat > 4 → exec (.memrd sp a) s = .next { s with resp := some ⟨.badarg, 0#32⟩ }) ∧
    ∀ space fill, (sp.toNat, space, fill) ∈
        [(0, Space.tb, s.tape.bcnt.toNat), (1, Space.hb, s.tape.hcnt.toNat), (2, Space.fb, s.floppy.fblen.toNat),
         (3, Space.fom, s.floppy.fblen.toNat), (4, Space.fm, s.floppy.count.toNat)] →
      (fill ≤ a.toNat → exec (.memrd sp a) s = .next { s with resp := some ⟨.badarg, 0#32⟩ }) ∧
      (s.BuffersHold → a.toNat < fill → ∃ v, s.element space a.toNat = some v ∧
        exec (.memrd sp a) s = .next { s with resp := some ⟨.ok, v⟩ })

/-! ### TAPE unit (41_tape.md) -/

/-- R68: TP_START resets every TAPE register, enters FIND_PILOT, and touches nothing else, in every state. -/
def Obligations.TpStartBeginsRead : Prop :=
  decode 0x10000000#32 = .ok .tpStart ∧
    ∀ s : State, exec .tpStart s = .next
      { s with tape := { TapeRegs.reset with phase := .findPilot }, resp := some ⟨.ok, 1#32⟩ }

/-- R69, R88: TP_PULSE 0 is BADARG; with no read in progress or an aborted one TP_PULSE is SEQ; in DONE it is consumed
and changes nothing. -/
def Obligations.TpPulseGates : Prop :=
  ∀ (v : BitVec 24) (s : State),
    decode (0x11#8 ++ v) = .ok (.tpPulse v) ∧
    (v = 0#24 → exec (.tpPulse v) s = .next { s with resp := some ⟨.badarg, 0#32⟩ }) ∧
    (v ≠ 0#24 → s.tape.phase = .idle ∨ s.tape.phase = .fatal →
      exec (.tpPulse v) s = .next { s with resp := some ⟨.seq, 0#32⟩ }) ∧
    (v ≠ 0#24 → s.tape.phase = .done → s.tape.err = .none →
      exec (.tpPulse v) s = .next { s with resp := some ⟨.ok, 10#32⟩ })

/-- R70: TP_END is SEQ with no read in progress, OK in DONE, and otherwise a fatal error: CALIBRATION in FIND_PILOT,
TRUNCATED in every later phase. -/
def Obligations.TpEndEndsTheCapture : Prop :=
  decode 0x12000000#32 = .ok .tpEnd ∧
  ∀ s : State,
    (s.tape.phase = .idle ∨ s.tape.phase = .fatal → exec .tpEnd s = .next { s with resp := some ⟨.seq, 0#32⟩ }) ∧
    (s.tape.phase = .done →
      exec .tpEnd s = .next { s with resp := some ⟨.ok, (s.tape.err.code ++ s.tape.phase.code).setWidth 32⟩ }) ∧
    (s.tape.phase = .findPilot → exec .tpEnd s = .next { s with
      tape := { s.tape with phase := .fatal, err := .calibration }, resp := some ⟨.fatal, 0x1F#32⟩ }) ∧
    (s.tape.phase ≠ .idle → s.tape.phase ≠ .fatal → s.tape.phase ≠ .done → s.tape.phase ≠ .findPilot →
      exec .tpEnd s = .next { s with
        tape := { s.tape with phase := .fatal, err := .truncated }, resp := some ⟨.fatal, 0x5F#32⟩ })

/-- The FIND_PILOT step (R71). An impulse longer than 3.5 times the running average, once 200 are averaged, ends
the pilot and freezes length_of_0 and the cutoff; at the counter cap another impulse is fatal; else it is averaged. That
a TP_PS over 64 bits, in no run, wraps is the model's choice (log 13). -/
def Obligations.PilotStepCalibrates : Prop :=
  ∀ (v : BitVec 24) (s : State), v ≠ 0#24 → s.tape.phase = .findPilot →
    (200 ≤ s.tape.pn.toNat → 7 * s.tape.ps.toNat < 2 * s.tape.pn.toNat * v.toNat →
      ∃ l0h cut : BitVec 32,
        l0h.toNat = rhe (100 * s.tape.ps.toNat) s.tape.pn.toNat ∧ cut.toNat = rhe (l0h.toNat * 16) 1000 ∧
        exec (.tpPulse v) s = .next ({ s with
          tape := { s.tape with l0h := l0h, cut := cut, phase := .pilotFound } }.answerTape .ok)) ∧
    (¬(200 ≤ s.tape.pn.toNat ∧ 7 * s.tape.ps.toNat < 2 * s.tape.pn.toNat * v.toNat) →
      (s.tape.pn = 0xFFFFFFFF#32 → exec (.tpPulse v) s = .next (s.failTape .calibration)) ∧
      (s.tape.pn ≠ 0xFFFFFFFF#32 → exec (.tpPulse v) s = .next ({ s with
        tape := { s.tape with ps := s.tape.ps + v.setWidth 64, pn := s.tape.pn + 1#32 } }.answerTape .ok)))

/-- R73, R74: the post-pilot pair. Each impulse is consumed whatever its length; a wrong one sets its warning; the
second starts the header marker with the parameters in force. -/
def Obligations.PostPilotPairIsLenient : Prop :=
  ∀ (v : BitVec 24) (s : State), v ≠ 0#24 →
    (s.tape.phase = .pilotFound → exec (.tpPulse v) s = .next ({ s with tape := { s.tape with
      phase := .pilotFound2
      warn := if s.tape.cut.toNat < v.toNat then s.tape.warn else s.tape.warn ||| 1#3 } }.answerTape .ok)) ∧
    (s.tape.phase = .pilotFound2 → exec (.tpPulse v) s = .next ({ s with tape := { s.tape with
      phase := .headerMarker
      warn := if v.toNat ≤ s.tape.cut.toNat then s.tape.warn else s.tape.warn ||| 2#3
      msub := .lead, mfic := s.cfg.ficStd, mcnt := s.cfg.mlenHdr, mlenient := false } }.answerTape .ok))

/-- An impulse that passes its marker check, and every MID impulse, takes the marker one sub-state further;
the last one begins the segment of the phase, or ends the read (R76, R78). That TP_MCNT = 0 in MID, in no
run, wraps is the model's choice (log 13). -/
def Obligations.MarkerImpulsesAdvance : Prop :=
  ∀ (v : BitVec 24) (s : State), v ≠ 0#24 → s.tape.phase.isMarker = true → s.tape.msub ≠ .none →
    ¬s.tape.CheckFails v.toNat →
    exec (.tpPulse v) s = .next ({ s with tape := s.tape.advance }.answerTape .ok)

/-- R77: a marker violation sets the MARK warning and goes on in lenient mode, and is fatal in strict mode, where no
other register changes. -/
def Obligations.MarkerViolations : Prop :=
  ∀ (v : BitVec 24) (s : State), v ≠ 0#24 → s.tape.phase.isMarker = true → s.tape.CheckFails v.toNat →
    (s.tape.mlenient = true → exec (.tpPulse v) s = .next
      ({ s with tape := { s.tape with warn := s.tape.warn ||| 4#3 }.advance }.answerTape .ok)) ∧
    (s.tape.mlenient = false → exec (.tpPulse v) s = .next { s with
      tape := { s.tape with phase := .fatal, err := .marker }, resp := some ⟨.fatal, 0x2F#32⟩ })

/-- R81: in a read_bit phase an impulse longer than 2.8 times length_of_0 is fatal, in the data-bit and the sync-bit
phase alike, and changes nothing else; one of exactly that length, or shorter, passes the guard. -/
def Obligations.GuardAbortsReadBit : Prop :=
  ∀ (v : BitVec 24) (s : State), s.tape.phase.isSegment = true →
    (7 * s.tape.l0h.toNat < 250 * v.toNat → exec (.tpPulse v) s = .next { s with
      tape := { s.tape with phase := .fatal, err := .bitTiming }, resp := some ⟨.fatal, 0x3F#32⟩ }) ∧
    (250 * v.toNat ≤ 7 * s.tape.l0h.toNat → exec (.tpPulse v) s ≠ .next (s.failTape .bitTiming))

/-- A data-bit impulse shifts its bit into the accumulator, most significant bit first; the eighth stores
the byte in HB, in TB (adding it to TP_SUM) or in TP_CKREAD, and one byte fewer remains (R82, R84). That TP_REM = 0 in
a data-bit phase, in no run, wraps is the model's choice (log 13). -/
def Obligations.DataBitsAssembleBytes : Prop :=
  ∀ (v : BitVec 24) (s : State), v ≠ 0#24 → s.tape.phase.isSegment = true → s.tape.syncph = false →
    250 * v.toNat ≤ 7 * s.tape.l0h.toNat →
    ∀ acc : BitVec 8, acc.toNat = (2 * s.tape.acc.toNat + if s.tape.cut.toNat < v.toNat then 1 else 0) % 256 →
    (s.tape.bitcnt ≠ 7#3 → exec (.tpPulse v) s = .next ({ s with tape := { s.tape with
      acc := acc, bitcnt := s.tape.bitcnt + 1#3, syncph := true } }.answerTape .ok)) ∧
    (s.tape.bitcnt = 7#3 →
      (s.tape.phase = .readHeader → s.tape.hcnt.toNat < 20 → exec (.tpPulse v) s = .next ({ s with
        hb := Memory.write s.hb s.tape.hcnt.toNat acc
        tape := { s.tape with
          hcnt := s.tape.hcnt + 1#5, rem := s.tape.rem - 1#16, acc := 0#8, bitcnt := 0#3, syncph := true } }.answerTape .ok)) ∧
      (s.tape.phase = .readData → s.tape.bcnt.toNat < 65536 → exec (.tpPulse v) s = .next ({ s with
        tb := Memory.write s.tb s.tape.bcnt.toNat acc
        tape := { s.tape with
          bcnt := s.tape.bcnt + 1#17, sum := eacAdd s.tape.sum (acc.setWidth 16)
          rem := s.tape.rem - 1#16, acc := 0#8, bitcnt := 0#3, syncph := true } }.answerTape .ok)) ∧
      (s.tape.phase = .cksum → s.tape.ccnt = 0#2 → exec (.tpPulse v) s = .next ({ s with
        tape := { s.tape with
          ckread := (s.tape.ckread &&& 0xFF00#16) ||| acc.setWidth 16, ccnt := 1#2
          rem := s.tape.rem - 1#16, acc := 0#8, bitcnt := 0#3, syncph := true } }.answerTape .ok)) ∧
      (s.tape.phase = .cksum → s.tape.ccnt = 1#2 → exec (.tpPulse v) s = .next ({ s with
        tape := { s.tape with
          ckread := (s.tape.ckread &&& 0x00FF#16) ||| (acc.setWidth 16 <<< 8), ccnt := 2#2
          rem := s.tape.rem - 1#16, acc := 0#8, bitcnt := 0#3, syncph := true } }.answerTape .ok)))

/-- R83, R85, R87: a sync-bit impulse above the cutoff is fatal; else the next data bit is awaited, or the segment is
complete: the header is unpacked and the body marker starts, the checksum segment begins, or the checksum is
validated and the end marker starts. -/
def Obligations.SyncBitsEndSegments : Prop :=
  ∀ (v : BitVec 24) (s : State), v ≠ 0#24 → s.tape.phase.isSegment = true → s.tape.syncph = true →
    250 * v.toNat ≤ 7 * s.tape.l0h.toNat →
    (s.tape.cut.toNat < v.toNat → exec (.tpPulse v) s = .next { s with
      tape := { s.tape with phase := .fatal, err := .protocol }, resp := some ⟨.fatal, 0x4F#32⟩ }) ∧
    (v.toNat ≤ s.tape.cut.toNat →
      (s.tape.rem ≠ 0#16 →
        exec (.tpPulse v) s = .next ({ s with tape := { s.tape with syncph := false } }.answerTape .ok)) ∧
      (s.tape.rem = 0#16 →
        (s.tape.phase = .readHeader → ∀ b0 b1 b2 b3,
          Memory.read s.hb 0 = some b0 → Memory.read s.hb 1 = some b1 → Memory.read s.hb 2 = some b2 →
          Memory.read s.hb 3 = some b3 →
          exec (.tpPulse v) s = .next ({ s with tape := { s.tape with
            syncph := false, startAddr := b1 ++ b0, length := b3 ++ b2, phase := .bodyMarker
            msub := .lead, mfic := s.cfg.ficStd, mcnt := s.cfg.mlenBody, mlenient := false } }.answerTape .ok)) ∧
        (s.tape.phase = .readData → exec (.tpPulse v) s = .next ({ s with tape := { s.tape with
            phase := .cksum, rem := 2#16, acc := 0#8, bitcnt := 0#3, syncph := false } }.answerTape .ok)) ∧
        (s.tape.phase = .cksum → exec (.tpPulse v) s = .next ({ s with tape := { s.tape with
            syncph := false, ckstat := if s.tape.ckread = s.tape.sum then 3#2 else 1#2, phase := .endTrailer
            msub := .lead, mfic := s.cfg.ficEnd, mcnt := s.cfg.mlenEnd
            mlenient := s.cfg.endLenient } }.answerTape .ok))))

/-- `rhe(a / b)` is an integer nearest to the rational a / b, the even one at a tie. -/
def Obligations.RheRoundsHalfToEven : Prop :=
  ∀ a b : Nat, 0 < b →
    |(rhe a b : ℚ) - (a : ℚ) / b| ≤ 1 / 2 ∧ (|(rhe a b : ℚ) - (a : ℚ) / b| = 1 / 2 → rhe a b % 2 = 0)

/-- The pulse tests are the spec's comparisons of exact rationals, with length_of_0 = TP_L0H / 100 and the running
average TP_PS / TP_PN. -/
def Obligations.PulseTestsAreRationalComparisons : Prop :=
  ∀ (t : TapeRegs) (p : Nat),
    (guardHit t p = true ↔ (14 / 5 : ℚ) * (t.l0h.toNat / 100) < p) ∧
    (leadOk t p = true ↔ ((t.mfic.toNat : ℚ) - 1 / 2) * (t.l0h.toNat / 100) ≤ p) ∧
    (longOk t p = true ↔ (7 / 2 : ℚ) * (t.l0h.toNat / 100) ≤ p) ∧
    (t.pn ≠ 0#32 → (pilotLong t p = true ↔ (7 / 2 : ℚ) * (t.ps.toNat / t.pn.toNat) < p)) ∧
    (isOne t p = true ↔ t.cut.toNat < p) ∧ (isZero t p = true ↔ ¬isOne t p = true)

/-- A pilot of N ≥ 200 impulses of one length and one impulse of 4 times that length calibrates, from every state:
length_of_0 is that length and the cutoff is 1.6 times it, rounded. -/
def Obligations.EqualPilotCalibrates : Prop :=
  ∀ (n len : Nat) (s : State), 200 ≤ n → n < 4294967296 → 0 < len → 4 * len < 16777216 →
    ∃ s', execList (.tpStart :: (List.replicate n (.tpPulse (BitVec.ofNat 24 len)) ++
        [.tpPulse (BitVec.ofNat 24 (4 * len))])) s = .next s' ∧
      s'.tape.phase = .pilotFound ∧ s'.tape.pn.toNat = n ∧ s'.tape.ps.toNat = n * len ∧
      s'.tape.l0h.toNat = 100 * len ∧ s'.tape.cut.toNat = rhe (8 * len) 5 ∧
      s' = { s with tape := s'.tape, resp := s'.resp }

/-- Sixteen impulses, eight data bits each followed by a sync bit, store one byte of the body, the first bit as
bit 7: TB[TP_BCNT] is written, TP_BCNT, TP_REM and TP_SUM move by that byte, and nothing else changes. -/
def Obligations.SixteenImpulsesStoreAByte : Prop :=
  ∀ (s : State) (b : BitVec 8) (d z : Fin 8 → BitVec 24),
    s.tape.phase = .readData → s.tape.syncph = false → s.tape.bitcnt = 0#3 → 2 ≤ s.tape.rem.toNat →
    s.tape.bcnt.toNat < 65536 →
    (∀ k, d k ≠ 0#24 ∧ 250 * (d k).toNat ≤ 7 * s.tape.l0h.toNat ∧
      (b.getLsbD (7 - k.val) = true ↔ s.tape.cut.toNat < (d k).toNat)) →
    (∀ k, z k ≠ 0#24 ∧ 250 * (z k).toNat ≤ 7 * s.tape.l0h.toNat ∧ (z k).toNat ≤ s.tape.cut.toNat) →
    execList ((List.finRange 8).flatMap fun k => [.tpPulse (d k), .tpPulse (z k)]) s =
      .next ({ s with
        tb := Memory.write s.tb s.tape.bcnt.toNat b
        tape := { s.tape with
          bcnt := s.tape.bcnt + 1#17, sum := eacAdd s.tape.sum (b.setWidth 16)
          rem := s.tape.rem - 1#16, acc := 0#8 } }.answerTape .ok)

/-! ### FLOPPY unit (42_floppy.md) -/

/-- R93, R100: FL_CLEAR resets every FLOPPY register in every state; FL_SETPOS moves FL_POS to an index up to FL_COUNT,
is BADARG above it, and SEQ in FATAL. -/
def Obligations.ClearAndSetpos : Prop :=
  decode 0x20000000#32 = .ok .flClear ∧
  (∀ s : State, exec .flClear s = .next { s with floppy := FloppyRegs.reset, resp := some ⟨.ok, 0#32⟩ }) ∧
  ∀ (p : BitVec 21) (s : State),
    decode (0x24#8 ++ (0#3 ++ p)) = .ok (.flSetpos p) ∧
    (s.floppy.count.toNat < p.toNat → exec (.flSetpos p) s = .next { s with resp := some ⟨.badarg, 0#32⟩ }) ∧
    (p.toNat ≤ s.floppy.count.toNat → s.floppy.mode = .fatal →
      exec (.flSetpos p) s = .next { s with resp := some ⟨.seq, 0#32⟩ }) ∧
    (p.toNat ≤ s.floppy.count.toNat → s.floppy.mode = .ready →
      exec (.flSetpos p) s = .next { s with floppy := { s.floppy with pos := p }, resp := some ⟨.ok, 0#32⟩ })

/-- FL_PUSH appends an interval to FM and answers FL_COUNT; a zero interval is BADARG, a FATAL unit or a full FM
is SEQ (R94). That FL_COUNT wraps past 21 bits, only with a P_FM_DEPTH that is not legal, is the model's choice (log 13). -/
def Obligations.PushAppendsAnInterval : Prop :=
  ∀ (v : BitVec 24) (s : State),
    decode (0x21#8 ++ v) = .ok (.flPush v) ∧
    (v = 0#24 → exec (.flPush v) s = .next { s with resp := some ⟨.badarg, 0#32⟩ }) ∧
    (v ≠ 0#24 → s.floppy.mode = .fatal ∨ s.floppy.count.toNat = s.params.fmDepth →
      exec (.flPush v) s = .next { s with resp := some ⟨.seq, 0#32⟩ }) ∧
    (v ≠ 0#24 → s.floppy.mode = .ready → s.floppy.count.toNat < s.params.fmDepth →
      ∃ s', exec (.flPush v) s = .next s' ∧
        s' = { s with
          fm := s'.fm
          floppy := { s.floppy with count := s.floppy.count + 1#21 }
          resp := some ⟨.ok, (s.floppy.count + 1#21).setWidth 32⟩ } ∧
        s'.element .fm s.floppy.count.toNat = some (v.setWidth 32) ∧
        ∀ a, a ≠ s.floppy.count.toNat → s'.element .fm a = s.element .fm a)

/-- The walk of R95 stops at the first interval, from the third on, that deviates from the mean of those before it by
more than 15 %, and answers their sum and count; it answers nothing exactly where no interval deviates. -/
def Obligations.EstimateStopsAtFirstDeviation : Prop :=
  ∀ fs : List Nat,
    (∀ sum k, estimate fs 0 0 = some (sum, k) ↔
      2 ≤ k ∧ sum = (fs.take k).sum ∧
        (∃ h : k < fs.length, 3 * ((sum : ℚ) / k) / 20 < |(fs[k] : ℚ) - (sum : ℚ) / k|) ∧
        ∀ j (h : j < fs.length), 2 ≤ j → j < k →
          |(fs[j] : ℚ) - ((fs.take j).sum : ℚ) / j| ≤ 3 * (((fs.take j).sum : ℚ) / j) / 20) ∧
    (estimate fs 0 0 = none ↔ ∀ j (h : j < fs.length), 2 ≤ j →
      |(fs[j] : ℚ) - ((fs.take j).sum : ℚ) / j| ≤ 3 * (((fs.take j).sum : ℚ) / j) / 20)

/-- R95: FL_EST caches the mean where its walk stops, answers FL_SK, and is a fatal CALIBRATION error where the walk
runs out; with an estimate held it answers FL_SK and changes nothing. -/
def Obligations.FlEstCachesTheEstimate : Prop :=
  decode 0x22000000#32 = .ok .flEst ∧
  ∀ s : State, s.floppy.mode = .ready →
    (s.floppy.svalid = true →
      exec .flEst s = .next { s with resp := some ⟨.ok, s.floppy.sk.setWidth 32⟩ }) ∧
    (s.floppy.svalid = false → s.FluxReadable →
      (∀ sum k, estimate (s.fluxList 0 s.floppy.count.toNat) 0 0 = some (sum, k) →
        ∃ (ss : BitVec 64) (sk : BitVec 21), ss.toNat = sum ∧ sk.toNat = k ∧
          exec .flEst s = .next { s with
            floppy := { s.floppy with ss := ss, sk := sk, svalid := true }
            resp := some ⟨.ok, sk.setWidth 32⟩ }) ∧
      (estimate (s.fluxList 0 s.floppy.count.toNat) 0 0 = none →
        exec .flEst s = .next { s with
          floppy := { s.floppy with mode := .fatal, err := .calibration }, resp := some ⟨.fatal, 1#32⟩ }))

/-- The search of R98 from an empty window finds the first index, not below 15, whose interval and the 14 before it,
none before the start of the search, have the classes of the address-mark pattern "434324343243432" (R97). -/
def Obligations.SearchFindsFirstMark : Prop :=
  ∀ (c : SyncLen) (fs : List Nat) (start : Nat) (pat : List Area),
    pat = [.four, .three, .four, .three, .two, .four, .three, .four, .three, .two, .four, .three, .four, .three, .two] →
    (∀ i, findMark c fs start [] = some i ↔
      (15 ≤ i ∧ start + 14 ≤ i ∧ ((fs.drop (i - 14 - start)).take 15).map (cls4 c) = pat) ∧
        ∀ j, 15 ≤ j → start + 14 ≤ j → j < i → ((fs.drop (j - 14 - start)).take 15).map (cls4 c) ≠ pat) ∧
    (findMark c fs start [] = none ↔ ∀ j, 15 ≤ j → start + 14 ≤ j →
      ((fs.drop (j - 14 - start)).take 15).map (cls4 c) ≠ pat)

/-- R98: FL_FIND searches from FL_POS. A match at i sets FL_MPOS to i − 15 and FL_POS to i + 1; without one FL_MFOUND is
0, FL_POS is FL_COUNT and FL_MPOS keeps its value. Without a sync length, or in FATAL, it is SEQ. -/
def Obligations.FlFindSearchesFromPos : Prop :=
  decode 0x23000000#32 = .ok .flFind ∧
  ∀ s : State,
    (s.floppy.mode = .fatal ∨ s.floppy.svalid = false →
      exec .flFind s = .next { s with resp := some ⟨.seq, 0#32⟩ }) ∧
    (s.floppy.mode = .ready → s.floppy.svalid = true → s.FluxReadable →
      ∀ fs, fs = s.fluxList s.floppy.pos.toNat (s.floppy.count.toNat - s.floppy.pos.toNat) →
      (∀ i, findMark s.cell fs s.floppy.pos.toNat [] = some i →
        ∃ mpos pos : BitVec 21, mpos.toNat = i - 15 ∧ pos.toNat = i + 1 ∧
          exec .flFind s = .next { s with
            floppy := { s.floppy with mpos := mpos, mfound := true, pos := pos }, resp := some ⟨.ok, 1#32⟩ }) ∧
      (findMark s.cell fs s.floppy.pos.toNat [] = none →
        exec .flFind s = .next { s with
          floppy := { s.floppy with mfound := false, pos := s.floppy.count }, resp := some ⟨.ok, 0#32⟩ }))

/-- The classes of the mark search, the bound and the five branches of the decoder are the spec's comparisons of exact
rationals with q = FL_SS / FL_SK and the bound P_FL_BOUND, which the commands take from the state; a fetch fails exactly
over the bound (R101). -/
def Obligations.FluxTestsAreRationalComparisons : Prop :=
  (∀ s : State, s.cell = ⟨s.floppy.ss.toNat, s.floppy.sk.toNat, s.params.boundNum, s.params.boundDen⟩) ∧
  ∀ (c : SyncLen) (q : ℚ), 0 < c.sk → 0 < c.den → q = (c.ss : ℚ) / c.sk →
    (∀ f : Nat, cls4 c f =
      if 7 / 4 * q ≤ f ∧ (f : ℚ) ≤ 9 / 4 * q then .four
      else if 5 / 4 * q ≤ f ∧ (f : ℚ) < 7 / 4 * q then .three
      else if 3 / 4 * q ≤ f ∧ (f : ℚ) < 5 / 4 * q then .two
      else .star) ∧
    (∀ f : Nat, overBound c f = true ↔ (c.num : ℚ) / c.den * q < f) ∧
    (∀ (g : Int) (f : ℚ), f = (g : ℚ) / (2 * c.sk) → mfmBranch c g =
      if 7 / 4 * q < f then ([.zero, .oh], .next)
      else if q < f then ([.zero], .same)
      else if 3 / 4 * q < f then ([.zero], .next)
      else if f < 1 / 4 * q then ([], .next)
      else ([.one], .half)) ∧
    (∀ (f : Nat) (act : Act), mfmFetch c f act = none ↔ overBound c f = true) ∧
    (∀ (f : Nat) (act : Act) (g : Int), mfmFetch c f act = some g →
      (g : ℚ) / (2 * c.sk) = (f : ℚ) - (if act = .half then q / 2 else 0))

/-- R101 to R103: one pass of the decode loop, the loop as its passes, the decode as the loop from the first fetch, and
how it ends. A pass emits the symbols of its branch after those before it; at 8·n + 1 symbols it stops there and FL_POS is
the next interval; SAME takes one q from the remainder and fetches nothing; else the next interval is fetched, less q / 2
after a '1', or the flux is out, or the interval is over the bound and the decode fails. The loop ends by itself within
two passes an interval (log 12). -/
def Obligations.DecodeLoopRunsAndEnds : Prop :=
  (∀ (c : SyncLen) (count target : Nat) (v : MfmVars) (q f : ℚ) (emitted syms : List Sym) (act : Act),
    0 < c.sk → 0 < c.den → q = (c.ss : ℚ) / c.sk → f = (v.rem : ℚ) / (2 * c.sk) →
    (emitted, act) =
      (if 7 / 4 * q < f then ([.zero, .oh], .next)
       else if q < f then ([.zero], .same)
       else if 3 / 4 * q < f then ([.zero], .next)
       else if f < 1 / 4 * q then ([], .next)
       else ([.one], .half)) →
    syms = v.rsyms.reverse ++ emitted →
    (target ≤ syms.length → mfmPass c count target v = .stop ⟨syms.take target, v.idx + 1, false⟩) ∧
    (syms.length < target →
      (act = .same → ∃ w, mfmPass c count target v = .more w ∧ (w.rem : ℚ) / (2 * c.sk) = f - q ∧
        w.idx = v.idx ∧ w.rest = v.rest ∧ w.rsyms.reverse = syms) ∧
      (act ≠ .same → v.rest = [] → mfmPass c count target v = .stop ⟨syms, count, true⟩) ∧
      (act ≠ .same → ∀ x rest, v.rest = x :: rest →
        ((c.num : ℚ) / c.den * q < x → mfmPass c count target v = .overBound) ∧
        ((x : ℚ) ≤ c.num / c.den * q → ∃ w, mfmPass c count target v = .more w ∧
          (w.rem : ℚ) / (2 * c.sk) = x - (if act = .half then q / 2 else 0) ∧
          w.idx = v.idx + 1 ∧ w.rest = rest ∧ w.rsyms.reverse = syms)))) ∧
  (∀ (c : SyncLen) (count target passes : Nat) (v w : MfmVars) (o : MfmOut),
    (mfmPass c count target v = .more w → mfmLoop c count target (passes + 1) v = mfmLoop c count target passes w) ∧
    (mfmPass c count target v = .stop o → mfmLoop c count target (passes + 1) v = some o) ∧
    (mfmPass c count target v = .overBound → mfmLoop c count target (passes + 1) v = none)) ∧
  (∀ (c : SyncLen) (count start n : Nat),
    mfmDecode c count start n [] = some ⟨[], count, true⟩ ∧
    ∀ (x : Nat) (rest : List Nat),
      (overBound c x = true → mfmDecode c count start n (x :: rest) = none) ∧
      (overBound c x = false → mfmDecode c count start n (x :: rest) =
        mfmLoop c count (8 * n + 1) (2 * (rest.length + 1)) ⟨2 * (c.sk * x), start, rest, []⟩)) ∧
  (∀ (c : SyncLen) (count target extra : Nat) (v : MfmVars),
    mfmLoop c count target (2 * (v.rest.length + 1) + extra) v = mfmLoop c count target (2 * (v.rest.length + 1)) v) ∧
  (∀ (c : SyncLen) (start n : Nat) (fs : List Nat) (o : MfmOut),
    mfmDecode c (start + fs.length) start n fs = some o →
      (o.eot = false → o.syms.length = 8 * n + 1 ∧ start < o.pos ∧ o.pos ≤ start + fs.length) ∧
      (o.eot = true → o.syms.length < 8 * n + 1 ∧ o.pos = start + fs.length)) ∧
  (∀ (c : SyncLen) (count start n : Nat) (fs : List Nat),
    (∀ f ∈ fs, overBound c f = false) → ∃ o, mfmDecode c count start n fs = some o)

/-- R104: the groups of a symbol list, the pad dropped: floor((len − 1) / 8) of them, bit 7 − k of a value 1 where
symbol k is '1', bit 7 − k of a mask 1 where it is 'o'. -/
def Obligations.GroupsHoldTheirSymbols : Prop :=
  ∀ syms : List Sym,
    (assemble syms).length = (syms.length - 1) / 8 ∧
    ∀ j k (hj : j < (assemble syms).length) (hk : k < 8), ∃ h : 1 + 8 * j + k < syms.length,
      ((assemble syms)[j].value.getLsbD (7 - k) = true ↔ syms[1 + 8 * j + k] = .one) ∧
      ((assemble syms)[j].mask.getLsbD (7 - k) = true ↔ syms[1 + 8 * j + k] = .oh)

/-- R106: FL_READ decodes n groups at the mark found: the symbols decoded are in FB and FOM, FL_FSTAT is DONE, with EOT
where the flux ran out; an interval over the bound is a fatal BIT_TIMING error. Out of range it is BADARG, without a
sync length or a mark, or in FATAL, SEQ (R91). -/
def Obligations.FlReadDecodesGroups : Prop :=
  ∀ (n : BitVec 11) (s : State),
    decode (0x25#8 ++ (0#13 ++ n)) = .ok (.flRead n) ∧
    (n.toNat = 0 ∨ 1030 < n.toNat → exec (.flRead n) s = .next { s with resp := some ⟨.badarg, 0#32⟩ }) ∧
    (1 ≤ n.toNat → n.toNat ≤ 1030 →
      (s.floppy.mode = .fatal ∨ s.floppy.svalid = false ∨ s.floppy.mfound = false →
        exec (.flRead n) s = .next { s with resp := some ⟨.seq, 0#32⟩ }) ∧
      (s.floppy.mode = .ready → s.floppy.svalid = true → s.floppy.mfound = true → s.FluxReadable →
        (mfmDecode s.cell s.floppy.count.toNat s.floppy.mpos.toNat n.toNat s.markedFlux = none →
          exec (.flRead n) s = .next { s with
            floppy := { s.floppy with mode := .fatal, err := .bitTiming }, resp := some ⟨.fatal, 3#32⟩ }) ∧
        (∀ o, mfmDecode s.cell s.floppy.count.toNat s.floppy.mpos.toNat n.toNat s.markedFlux = some o →
          ∃ s', exec (.flRead n) s = .next s' ∧
            s'.floppy.fblen.toNat = (assemble o.syms).length ∧ s'.floppy.nsym.toNat = o.syms.length ∧
            s'.floppy.pos.toNat = o.pos ∧ s'.floppy.fstat = (if o.eot then 0x03#8 else 0x01#8) ∧
            s'.floppy = { s.floppy with
              fblen := s'.floppy.fblen, nsym := s'.floppy.nsym, pos := s'.floppy.pos, fstat := s'.floppy.fstat } ∧
            s'.resp = some ⟨.ok, s'.floppy.fstat.setWidth 32⟩ ∧
            ∀ j (hj : j < (assemble o.syms).length),
              Memory.read s'.fb j = some (assemble o.syms)[j].value ∧
              Memory.read s'.fom j = some (assemble o.syms)[j].mask)))

/-- R107: FL_HDR decodes ten groups at the mark found; in FATAL, or without a sync length or a mark, it is SEQ (R91).
Where the flux ran out, FL_FSTAT is KIND 1, EOT and DONE and the field registers keep their values. Else the
field registers, the stored CRC (low byte first) and the computed CRC come from FB, and the header is valid exactly when
the marks, the symbols and the CRC are right, as the spec derives in R108. -/
def Obligations.FlHdrDecodesAHeader : Prop :=
  decode 0x26000000#32 = .ok .flHdr ∧
  ∀ s : State,
    (s.floppy.mode = .fatal ∨ s.floppy.svalid = false ∨ s.floppy.mfound = false →
        exec .flHdr s = .next { s with resp := some ⟨.seq, 0#32⟩ }) ∧
    (s.floppy.mode = .ready → s.floppy.svalid = true → s.floppy.mfound = true → s.FluxReadable →
      (mfmDecode s.cell s.floppy.count.toNat s.floppy.mpos.toNat 10 s.markedFlux = none →
        exec .flHdr s = .next { s with
          floppy := { s.floppy with mode := .fatal, err := .bitTiming }, resp := some ⟨.fatal, 3#32⟩ }) ∧
      (∀ o, mfmDecode s.cell s.floppy.count.toNat s.floppy.mpos.toNat 10 s.markedFlux = some o →
        ∃ s', exec .flHdr s = .next s' ∧
          s'.floppy.fblen.toNat = (assemble o.syms).length ∧ s'.floppy.nsym.toNat = o.syms.length ∧
          s'.floppy.pos.toNat = o.pos ∧ s'.resp = some ⟨.ok, s'.floppy.fstat.setWidth 32⟩ ∧
          (∀ j (hj : j < (assemble o.syms).length),
            Memory.read s'.fb j = some (assemble o.syms)[j].value ∧
            Memory.read s'.fom j = some (assemble o.syms)[j].mask) ∧
          (o.eot = true → s'.floppy = { s.floppy with
            fblen := s'.floppy.fblen, nsym := s'.floppy.nsym, pos := s'.floppy.pos, fstat := 0x43#8 }) ∧
          (o.eot = false → ∃ fb fom : Nat → BitVec 8,
            (∀ j < 10, Memory.read s'.fb j = some (fb j) ∧ Memory.read s'.fom j = some (fom j)) ∧
            s'.floppy = { s.floppy with
              fblen := 10#11, nsym := 81#14, pos := s'.floppy.pos
              track := fb 4, side := fb 5, sector := fb 6, size := fb 7
              crcRead := fb 9 ++ fb 8
              crcCalc := crcSeq 0xFFFF#16 [0xA1#8, 0xA1#8, 0xA1#8, 0xFE#8, fb 4, fb 5, fb 6, fb 7]
              fstat := s'.floppy.fstat } ∧
            ∃ mk se ck : Bool,
              (mk = true ↔ (∀ j < 3, fb j = 0xA1#8 ∧ fom j = 0x04#8) ∧ fb 3 = 0xFE#8 ∧ fom 3 = 0x00#8) ∧
              (se = true ↔ ∃ j, 4 ≤ j ∧ j < 10 ∧ fom j ≠ 0#8) ∧
              (ck = true ↔ s'.floppy.crcRead = s'.floppy.crcCalc) ∧
              s'.floppy.fstat = BitVec.ofNat 8 (1 + 4 * mk.toNat + 8 * se.toNat + 16 * ck.toNat +
                32 * (mk && !se && ck).toNat + 64))))

/-- R109: FL_DATA decodes a data field with a payload of 256, 512 or 1024 bytes; in FATAL, or without a sync length or a
mark, it is SEQ (R91). Where the flux ran out, FL_DLEN is
0 and FL_FSTAT is KIND 2, EOT and DONE. Else the stored and the computed CRC come from FB, the field is valid exactly
when the marks, the symbols and the CRC are right (R110, which the spec derives), and FL_DLEN is then the payload size,
else 0. -/
def Obligations.FlDataDecodesADataField : Prop :=
  ∀ (z : BitVec 2) (s : State),
    decode (0x27#8 ++ (0#22 ++ z)) = .ok (.flData z) ∧
    (z = 0#2 → exec (.flData z) s = .next { s with resp := some ⟨.badarg, 0#32⟩ }) ∧
    ∀ size : Nat, (z.toNat, size) ∈ [(1, 256), (2, 512), (3, 1024)] →
      (s.floppy.mode = .fatal ∨ s.floppy.svalid = false ∨ s.floppy.mfound = false →
        exec (.flData z) s = .next { s with resp := some ⟨.seq, 0#32⟩ }) ∧
      (s.floppy.mode = .ready → s.floppy.svalid = true → s.floppy.mfound = true → s.FluxReadable →
        (mfmDecode s.cell s.floppy.count.toNat s.floppy.mpos.toNat (size + 6) s.markedFlux = none →
          exec (.flData z) s = .next { s with
            floppy := { s.floppy with mode := .fatal, err := .bitTiming }, resp := some ⟨.fatal, 3#32⟩ }) ∧
        (∀ o, mfmDecode s.cell s.floppy.count.toNat s.floppy.mpos.toNat (size + 6) s.markedFlux = some o →
          ∃ s', exec (.flData z) s = .next s' ∧
            s'.floppy.fblen.toNat = (assemble o.syms).length ∧ s'.floppy.nsym.toNat = o.syms.length ∧
            s'.floppy.pos.toNat = o.pos ∧ s'.resp = some ⟨.ok, s'.floppy.fstat.setWidth 32⟩ ∧
            (∀ j (hj : j < (assemble o.syms).length),
              Memory.read s'.fb j = some (assemble o.syms)[j].value ∧
              Memory.read s'.fom j = some (assemble o.syms)[j].mask) ∧
            (o.eot = true → s'.floppy = { s.floppy with
              fblen := s'.floppy.fblen, nsym := s'.floppy.nsym, pos := s'.floppy.pos
              fstat := 0x83#8, dlen := 0#11 }) ∧
            (o.eot = false → ∃ fb fom : Nat → BitVec 8,
              (∀ j < size + 6, Memory.read s'.fb j = some (fb j) ∧ Memory.read s'.fom j = some (fom j)) ∧
              ∃ mk se ck : Bool,
                (mk = true ↔ (∀ j < 3, fb j = 0xA1#8 ∧ fom j = 0x04#8) ∧ fb 3 = 0xFB#8 ∧ fom 3 = 0x00#8) ∧
                (se = true ↔ ∃ j, 4 ≤ j ∧ j < size + 6 ∧ fom j ≠ 0#8) ∧
                (ck = true ↔ s'.floppy.crcRead = s'.floppy.crcCalc) ∧
                s'.floppy = { s.floppy with
                  fblen := s'.floppy.fblen, nsym := s'.floppy.nsym, pos := s'.floppy.pos
                  crcRead := fb (5 + size) ++ fb (4 + size)
                  crcCalc := crcSeq 0xFFFF#16
                    ([0xA1#8, 0xA1#8, 0xA1#8, 0xFB#8] ++ (List.range size).map fun k => fb (4 + k))
                  dlen := if mk && !se && ck then BitVec.ofNat 11 size else 0#11
                  fstat := BitVec.ofNat 8 (1 + 4 * mk.toNat + 8 * se.toNat + 16 * ck.toNat +
                    32 * (mk && !se && ck).toNat + 128) })))

/-! ### CRC and ADD units (43_checksum.md) -/

/-- R112, R113, R116 to R119: one CRC step over a byte, written out as its eight shift steps, the CRC of a sequence as
their left fold, and the CRC commands, in every state. That a step tests bit 15 before the shift is R112's own reading,
from general knowledge (log 16). -/
def Obligations.CrcCommandsUpdateCrc : Prop :=
  (∀ (c : BitVec 16) (b : BitVec 8) (x : Nat → BitVec 16),
    x 0 = c ^^^ (b.setWidth 16 <<< 8) →
    (∀ k < 8, x (k + 1) = if (x k).getLsbD 15 then (x k <<< 1) ^^^ 0x1021#16 else x k <<< 1) →
    crcByte c b = x 8) ∧
  (∀ c : BitVec 16, crcSeq c [] = c) ∧
  (∀ (c : BitVec 16) (b : BitVec 8) (bs : List (BitVec 8)), crcSeq c (b :: bs) = crcSeq (crcByte c b) bs) ∧
  decode 0x30000000#32 = .ok .crcInit ∧
  (∀ s : State, exec .crcInit s = .next { s with crc := 0xFFFF#16, resp := some ⟨.ok, 0xFFFF#32⟩ }) ∧
  (∀ (b : BitVec 8) (s : State), decode (0x31#8 ++ (0#16 ++ b)) = .ok (.crcByte b) ∧
    exec (.crcByte b) s = .next { s with
      crc := crcByte s.crc b, resp := some ⟨.ok, (crcByte s.crc b).setWidth 32⟩ }) ∧
  (∀ (m : BitVec 8) (s : State), decode (0x32#8 ++ (0#16 ++ m)) = .ok (.crcMark m) ∧
    exec (.crcMark m) s = .next { s with
      crc := crcSeq 0xFFFF#16 [0xA1#8, 0xA1#8, 0xA1#8, m]
      resp := some ⟨.ok, (crcSeq 0xFFFF#16 [0xA1#8, 0xA1#8, 0xA1#8, m]).setWidth 32⟩ }) ∧
  (∀ (w : BitVec 16) (s : State), decode (0x33#8 ++ (0#8 ++ w)) = .ok (.crcCheck w) ∧
    exec (.crcCheck w) s = .next { s with resp := some ⟨.ok, if s.crc = w then 1#32 else 0#32⟩ })

/-- Two byte sequences of the same length that differ in exactly one bit never share a CRC, whatever the initial value:
the spec derives it from R112 (R115). -/
def Obligations.CrcDetectsSingleBitErrors : Prop :=
  ∀ (c : BitVec 16) (before after : List (BitVec 8)) (b : BitVec 8) (k : Nat), k < 8 →
    crcSeq c (before ++ b :: after) ≠ crcSeq c (before ++ (b ^^^ BitVec.twoPow 8 k) :: after)

/-- CRC_MARK loads what CRC_INIT and four CRC_BYTE commands compute; the rest of a field folded in after it gives the
CRC of the prefixed field. -/
def Obligations.CrcMarkIsThePrefix : Prop :=
  (∀ (m : BitVec 8) (s : State),
    execList [.crcInit, .crcByte 0xA1#8, .crcByte 0xA1#8, .crcByte 0xA1#8, .crcByte m] s = exec (.crcMark m) s) ∧
  ∀ (m : BitVec 8) (data : List (BitVec 8)) (s : State), ∃ s',
    execList (.crcMark m :: data.map .crcByte) s = .next s' ∧
      s'.crc = crcSeq 0xFFFF#16 ([0xA1#8, 0xA1#8, 0xA1#8, m] ++ data) ∧
      s' = { s with crc := s'.crc, resp := s'.resp }

/-- R123 to R126: the ADD commands, in every state, with the end-around-carry sum written out. -/
def Obligations.AddCommandsUpdateSum : Prop :=
  decode 0x40000000#32 = .ok .addInit ∧
  (∀ s : State, exec .addInit s = .next { s with sum := 0#16, resp := some ⟨.ok, 0#32⟩ }) ∧
  (∀ (b : BitVec 8) (s : State) (t : BitVec 16),
    t.toNat = (if s.sum.toNat + b.toNat > 0xFFFF then s.sum.toNat + b.toNat - 0x10000 + 1 else s.sum.toNat + b.toNat) →
    decode (0x41#8 ++ (0#16 ++ b)) = .ok (.addByte b) ∧
    exec (.addByte b) s = .next { s with sum := t, resp := some ⟨.ok, t.setWidth 32⟩ }) ∧
  (∀ (w : BitVec 16) (s : State) (t : BitVec 16),
    t.toNat = (if s.sum.toNat + w.toNat > 0xFFFF then s.sum.toNat + w.toNat - 0x10000 + 1 else s.sum.toNat + w.toNat) →
    decode (0x42#8 ++ (0#8 ++ w)) = .ok (.addWord w) ∧
    exec (.addWord w) s = .next { s with sum := t, resp := some ⟨.ok, t.setWidth 32⟩ }) ∧
  (∀ (w : BitVec 16) (s : State), decode (0x43#8 ++ (0#8 ++ w)) = .ok (.addCheck w) ∧
    exec (.addCheck w) s = .next { s with resp := some ⟨.ok, if s.sum = w then 1#32 else 0#32⟩ })

/-- An all-zero input sums to 0 and only that does; the checksum of a whole is the end-around-carry sum of the checksums
of its parts: the spec derives these laws from R120 and R121 (R122). -/
def Obligations.EndAroundCarryLaws : Prop :=
  (∀ k : Nat, eacSeq 0#16 (List.replicate k 0#8) = 0#16) ∧
  (∀ x y : List (BitVec 8), eacSeq 0#16 (x ++ y) = eacAdd (eacSeq 0#16 x) (eacSeq 0#16 y)) ∧
  (∀ x : List (BitVec 8), eacSeq 0#16 x = 0#16 ↔ ∀ b ∈ x, b = 0#8)
end

