-- ==== Sys2Proof/Laws/Decode.lean ====
section
/-! SUPPORT. The operand formats (30_encoding.md R53): what each format reads from the operand field it is written
to, and the only field it reads an operand from. -/

namespace Sys2Proof

/-- The high part of a field made of two parts. -/
theorem extract_append_high {m n : Nat} (x : BitVec m) (y : BitVec n) : (x ++ y).extractLsb' n m = x := by
  apply BitVec.eq_of_getLsbD_eq; intro j hj
  simp only [BitVec.getLsbD_extractLsb', BitVec.getLsbD_append]; simp [hj]

/-- The low part of a field made of two parts. -/
theorem extract_append_low {m n : Nat} (x : BitVec m) (y : BitVec n) : (x ++ y).extractLsb' 0 n = y := by
  apply BitVec.eq_of_getLsbD_eq; intro j hj
  simp only [BitVec.getLsbD_extractLsb', BitVec.getLsbD_append]; simp [hj]

/-- A field is its high part above its low part. -/
theorem append_extract {m n : Nat} (f : BitVec (m + n)) : f.extractLsb' n m ++ f.extractLsb' 0 n = f := by
  apply BitVec.eq_of_getLsbD_eq; intro j hj
  simp only [BitVec.getLsbD_extractLsb', BitVec.getLsbD_append]
  by_cases h : j < n
  · simp [h]
  · simp [h, show j - n < m by omega, show n + (j - n) = j by omega]

theorem formatN_ok {f : BitVec 24} {i j : Instr} : formatN f i = .ok j ↔ f = 0#24 ∧ j = i := by
  unfold formatN
  constructor
  · split
    · rintro ⟨⟩; exact ⟨‹_›, rfl⟩
    · rintro ⟨⟩
  · rintro ⟨rfl, rfl⟩; rw [if_pos rfl]

theorem formatB8_ok {f : BitVec 24} {k : BitVec 8 → Instr} {j : Instr} :
    formatB8 f k = .ok j ↔ ∃ b : BitVec 8, f = 0#16 ++ b ∧ j = k b := by
  unfold formatB8
  constructor
  · split
    · rintro ⟨⟩; exact ⟨_, by rw [← ‹_ = 0#16›, append_extract (m := 16) (n := 8) f], rfl⟩
    · rintro ⟨⟩
  · rintro ⟨b, rfl, rfl⟩; rw [if_pos (extract_append_high _ _), extract_append_low]

theorem formatW16_ok {f : BitVec 24} {k : BitVec 16 → Instr} {j : Instr} :
    formatW16 f k = .ok j ↔ ∃ w : BitVec 16, f = 0#8 ++ w ∧ j = k w := by
  unfold formatW16
  constructor
  · split
    · rintro ⟨⟩; exact ⟨_, by rw [← ‹_ = 0#8›, append_extract (m := 8) (n := 16) f], rfl⟩
    · rintro ⟨⟩
  · rintro ⟨b, rfl, rfl⟩; rw [if_pos (extract_append_high _ _), extract_append_low]

theorem formatP21_ok {f : BitVec 24} {k : BitVec 21 → Instr} {j : Instr} :
    formatP21 f k = .ok j ↔ ∃ p : BitVec 21, f = 0#3 ++ p ∧ j = k p := by
  unfold formatP21
  constructor
  · split
    · rintro ⟨⟩; exact ⟨_, by rw [← ‹_ = 0#3›, append_extract (m := 3) (n := 21) f], rfl⟩
    · rintro ⟨⟩
  · rintro ⟨b, rfl, rfl⟩; rw [if_pos (extract_append_high _ _), extract_append_low]

theorem formatN11_ok {f : BitVec 24} {k : BitVec 11 → Instr} {j : Instr} :
    formatN11 f k = .ok j ↔ ∃ n : BitVec 11, f = 0#13 ++ n ∧ j = k n := by
  unfold formatN11
  constructor
  · split
    · rintro ⟨⟩; exact ⟨_, by rw [← ‹_ = 0#13›, append_extract (m := 13) (n := 11) f], rfl⟩
    · rintro ⟨⟩
  · rintro ⟨b, rfl, rfl⟩; rw [if_pos (extract_append_high _ _), extract_append_low]

theorem formatS2_ok {f : BitVec 24} {k : BitVec 2 → Instr} {j : Instr} :
    formatS2 f k = .ok j ↔ ∃ s : BitVec 2, f = 0#22 ++ s ∧ j = k s := by
  unfold formatS2
  constructor
  · split
    · rintro ⟨⟩; exact ⟨_, by rw [← ‹_ = 0#22›, append_extract (m := 22) (n := 2) f], rfl⟩
    · rintro ⟨⟩
  · rintro ⟨b, rfl, rfl⟩; rw [if_pos (extract_append_high _ _), extract_append_low]

theorem formatV24_ok {f : BitVec 24} {k : BitVec 24 → Instr} {j : Instr} : formatV24 f k = .ok j ↔ j = k f := by
  simp [formatV24, eq_comm]

theorem formatCF_ok {f : BitVec 24} {k : BitVec 8 → BitVec 16 → Instr} {j : Instr} :
    formatCF f k = .ok j ↔ ∃ (ci : BitVec 8) (val : BitVec 16), f = ci ++ val ∧ j = k ci val := by
  unfold formatCF
  constructor
  · rintro ⟨⟩; exact ⟨_, _, (append_extract (m := 8) (n := 16) f).symm, rfl⟩
  · rintro ⟨a, b, rfl, rfl⟩; rw [extract_append_high, extract_append_low]

theorem formatMA_ok {f : BitVec 24} {k : BitVec 4 → BitVec 20 → Instr} {j : Instr} :
    formatMA f k = .ok j ↔ ∃ (sp : BitVec 4) (a : BitVec 20), f = sp ++ a ∧ j = k sp a := by
  unfold formatMA
  constructor
  · rintro ⟨⟩; exact ⟨_, _, (append_extract (m := 4) (n := 20) f).symm, rfl⟩
  · rintro ⟨a, b, rfl, rfl⟩; rw [extract_append_high, extract_append_low]

end Sys2Proof
end

