-- ==== Sys2Proof/Laws/Memory.lean ====
section
/-! SUPPORT. The laws of the buffers: reads after writes, the canonical form, spans, and the fill invariant. -/

namespace Sys2Proof.Machine

variable {w : Nat}

@[simp] theorem Memory.read_nil (a : Nat) : Memory.read ([] : Memory w) a = none := rfl

/-- A read after a write to the same element gives the value written. -/
@[simp] theorem Memory.read_write_same (m : Memory w) (a : Nat) (v : BitVec w) :
    Memory.read (Memory.write m a v) a = some v := by
  induction m with
  | nil => simp [Memory.write, Memory.read]
  | cons e m ih =>
    obtain ⟨b, u⟩ := e
    simp only [Memory.write]
    split
    · simp [Memory.read]
    · split
      · simp [Memory.read]
      · simp_all [Memory.read]

/-- A write leaves every other element alone. -/
theorem Memory.read_write_other (m : Memory w) {a b : Nat} (v : BitVec w) (h : b ≠ a) :
    Memory.read (Memory.write m a v) b = Memory.read m b := by
  induction m with
  | nil => simp [Memory.write, Memory.read, h]
  | cons e m ih =>
    obtain ⟨c, u⟩ := e
    simp only [Memory.write]
    split
    · simp [Memory.read, h]
    · split
      · subst_vars; simp [Memory.read, h]
      · simp only [Memory.read, ih]

/-- The entries after a write are the one written and entries of before. -/
theorem Memory.mem_write {m : Memory w} {a : Nat} {v : BitVec w} {e : Nat × BitVec w}
    (h : e ∈ Memory.write m a v) : e = (a, v) ∨ e ∈ m := by
  induction m with
  | nil => simpa [Memory.write] using h
  | cons c m ih =>
    simp only [Memory.write] at h
    split at h
    · simpa using h
    · split at h
      · simp only [List.mem_cons] at h ⊢; tauto
      · simp only [List.mem_cons] at h ⊢
        rcases h with h | h
        · exact .inr (.inl h)
        · exact (ih h).imp_right .inr

/-- A write keeps the canonical form. -/
theorem Memory.write_wf {m : Memory w} (a : Nat) (v : BitVec w) (h : Memory.wf m) :
    Memory.wf (Memory.write m a v) := by
  induction m with
  | nil => simp [Memory.write, Memory.wf]
  | cons c m ih =>
    obtain ⟨b, u⟩ := c
    simp only [Memory.wf, List.pairwise_cons] at h
    simp only [Memory.write]
    split
    · simp only [Memory.wf, List.pairwise_cons, List.mem_cons]
      refine ⟨?_, h.1, h.2⟩
      rintro e (rfl | he)
      · assumption
      · exact lt_trans ‹_› (h.1 e he)
    · split
      · subst_vars; simpa [Memory.wf] using h
      · simp only [Memory.wf, List.pairwise_cons]
        refine ⟨fun e he => ?_, ih h.2⟩
        rcases Memory.mem_write he with rfl | he
        · show b < a
          omega
        · exact h.1 e he

/-- Writing a span keeps the canonical form. -/
theorem Memory.writeSpan_wf {m : Memory w} (a : Nat) (vs : List (BitVec w)) (h : Memory.wf m) :
    Memory.wf (Memory.writeSpan m a vs) := by
  induction vs generalizing m a with
  | nil => exact h
  | cons v vs ih => exact ih _ (Memory.write_wf a v h)

/-- The entries after writing a span are new ones inside it and entries of before. -/
theorem Memory.mem_writeSpan {m : Memory w} {a : Nat} {vs : List (BitVec w)} {e : Nat × BitVec w}
    (h : e ∈ Memory.writeSpan m a vs) : (a ≤ e.1 ∧ e.1 < a + vs.length) ∨ e ∈ m := by
  induction vs generalizing m a with
  | nil => exact .inr h
  | cons v vs ih =>
    simp only [Memory.writeSpan] at h
    rcases ih h with h | h
    · left; simp only [List.length_cons]; omega
    · rcases Memory.mem_write h with rfl | h
      · left; simp
      · exact .inr h

/-- Writing a span leaves every element outside it alone. -/
theorem Memory.read_writeSpan_other (m : Memory w) (a : Nat) (vs : List (BitVec w)) {b : Nat}
    (h : b < a ∨ a + vs.length ≤ b) : Memory.read (Memory.writeSpan m a vs) b = Memory.read m b := by
  induction vs generalizing m a with
  | nil => rfl
  | cons v vs ih =>
    simp only [List.length_cons] at h
    simp only [Memory.writeSpan]
    rw [ih _ _ (by omega), Memory.read_write_other _ _ (by omega)]

/-- Writing a span writes its values. -/
theorem Memory.read_writeSpan_same (m : Memory w) (a : Nat) (vs : List (BitVec w)) {k : Nat} (h : k < vs.length) :
    Memory.read (Memory.writeSpan m a vs) (a + k) = some vs[k] := by
  induction vs generalizing m a k with
  | nil => simp at h
  | cons v vs ih =>
    simp only [Memory.writeSpan]
    cases k with
    | zero => rw [Memory.read_writeSpan_other _ _ _ (by omega)]; simp
    | succ k =>
      have := ih (Memory.write m a v) (a + 1) (k := k) (by simpa using h)
      rw [show a + (k + 1) = a + 1 + k by omega, this]; rfl

/-- In a canonical buffer an element below the first listed address has no value. -/
theorem Memory.read_eq_none_of_lt {m : Memory w} {a : Nat} (h : ∀ e ∈ m, a < e.1) : Memory.read m a = none := by
  induction m with
  | nil => rfl
  | cons e m ih =>
    obtain ⟨b, u⟩ := e
    have hb := h (b, u) (by simp)
    have : a ≠ b := by simp only at hb; omega
    simp only [Memory.read, this, if_false]
    exact ih fun e he => h e (by simp [he])

/-- A span of no elements. -/
theorem Memory.readSpan_zero (m : Memory w) (a : Nat) (vs : List (BitVec w)) :
    Memory.readSpan m a 0 = some vs ↔
      vs.length = 0 ∧ ∀ k (hk : k < vs.length), Memory.read m (a + k) = some vs[k] := by
  cases vs <;> cases m <;> simp [Memory.readSpan]

/-- Reading a span of a canonical buffer is reading each of its elements. -/
theorem Memory.readSpan_eq_some {m : Memory w} (h : Memory.wf m) (a n : Nat) (vs : List (BitVec w)) :
    Memory.readSpan m a n = some vs ↔
      vs.length = n ∧ ∀ k (hk : k < vs.length), Memory.read m (a + k) = some vs[k] := by
  induction m generalizing a n vs with
  | nil =>
    cases n with
    | zero => exact Memory.readSpan_zero _ _ _
    | succ n =>
      simp only [Memory.readSpan, Memory.read_nil, reduceCtorEq, false_iff, not_and]
      intro hl hk
      exact hk 0 (by omega)
  | cons e m ih =>
    obtain ⟨b, u⟩ := e
    simp only [Memory.wf, List.pairwise_cons] at h
    cases n with
    | zero => exact Memory.readSpan_zero _ _ _
    | succ n =>
      have above : ∀ x, x ≤ b → Memory.read m x = none := fun x hx =>
        Memory.read_eq_none_of_lt fun e he => lt_of_le_of_lt hx (h.1 e he)
      simp only [Memory.readSpan]
      split
      · subst_vars
        cases vs with
        | nil => simp
        | cons v vs =>
          simp only [Option.map_eq_some_iff, List.cons.injEq, List.length_cons]
          constructor
          · rintro ⟨us, hus, rfl, rfl⟩
            rw [ih h.2] at hus
            refine ⟨by omega, fun k hk => ?_⟩
            cases k with
            | zero => simp [Memory.read]
            | succ k =>
              have := hus.2 k (by omega)
              simp only [Memory.read, show b + (k + 1) ≠ b by omega, if_false]
              rw [show b + (k + 1) = b + 1 + k by omega, this]; rfl
          · rintro ⟨hl, hk⟩
            refine ⟨vs, ?_, ?_, rfl⟩
            · rw [ih h.2]
              refine ⟨by omega, fun k hk' => ?_⟩
              have := hk (k + 1) (by omega)
              simp only [Memory.read, show b + (k + 1) ≠ b by omega, if_false] at this
              rw [show b + 1 + k = b + (k + 1) by omega, this]; rfl
            · have := hk 0 (by omega)
              simpa [Memory.read] using this
      · split
        · rw [ih h.2]
          have : ∀ k, Memory.read ((b, u) :: m) (a + k) = Memory.read m (a + k) := fun k => by
            simp [Memory.read, show a + k ≠ b by omega]
          simp only [this]
        · simp only [reduceCtorEq, false_iff, not_and]
          intro hl hk
          have h0 := hk 0 (by omega)
          simp only [Nat.add_zero, Memory.read, show a ≠ b by omega, if_false, above a (by omega)] at h0
          exact absurd h0 (by simp)

/-- Appending at the fill count keeps the fill invariant, one element higher. -/
theorem Memory.Holds.append {m : Memory w} {fill size : Nat} (h : Memory.Holds m fill size) (v : BitVec w)
    (hs : fill < size) : Memory.Holds (Memory.write m fill v) (fill + 1) size where
  form := Memory.write_wf _ _ h.form
  within e he := by
    rcases Memory.mem_write he with rfl | he
    · exact hs
    · exact h.within e he
  fits := hs
  filled a ha := by
    by_cases hf : a = fill
    · subst hf; exact ⟨v, Memory.read_write_same _ _ _⟩
    · rw [Memory.read_write_other _ _ hf]; exact h.filled a (by omega)

/-- Overwriting from element 0 makes the span the new fill. -/
theorem Memory.Holds.overwrite {m : Memory w} {fill size : Nat} (h : Memory.Holds m fill size)
    (vs : List (BitVec w)) (hs : vs.length ≤ size) : Memory.Holds (Memory.writeSpan m 0 vs) vs.length size where
  form := Memory.writeSpan_wf _ _ h.form
  within e he := by
    rcases Memory.mem_writeSpan he with he | he
    · omega
    · exact h.within e he
  fits := hs
  filled a ha := ⟨vs[a], by simpa using Memory.read_writeSpan_same m 0 vs ha⟩

/-- A lower fill count keeps the fill invariant. -/
theorem Memory.Holds.lower {m : Memory w} {fill fill' size : Nat} (h : Memory.Holds m fill size)
    (hf : fill' ≤ fill) : Memory.Holds m fill' size where
  form := h.form
  within := h.within
  fits := hf.trans h.fits
  filled a ha := h.filled a (by omega)

/-- The intervals of a readable FM, as the model reads them. -/
theorem State.fluxSpan_eq {s : State} (h : s.FluxReadable) {a n : Nat} (ha : a + n ≤ s.floppy.count.toNat ∨ n = 0) :
    s.fluxSpan a n = .ok (s.fluxList a n) := by
  have fits := h.fits
  have filled := h.filled
  simp only [State.limit] at fits filled
  have bound : ¬(n ≠ 0 ∧ s.size .fm < a + n) := by omega
  have span : Memory.readSpan s.fm a n = some ((List.range' a n).map fun k => (Memory.read s.fm k).getD 0#24) := by
    rw [Memory.readSpan_eq_some h.form]
    refine ⟨by simp, fun k hk => ?_⟩
    simp only [List.length_map, List.length_range'] at hk
    obtain ⟨v, hv⟩ := filled (a + k) (by omega)
    simp [hv]
  simp only [State.fluxSpan, bound, if_false, span, State.fluxList, List.map_map]
  rfl

@[simp] theorem State.fluxList_length (s : State) (a n : Nat) : (s.fluxList a n).length = n := by
  simp [State.fluxList]

/-- Everything a span of FM can be: the fault of an absent or unwritten element, or its `n` intervals. -/
theorem State.fluxSpan_inv {s : State} {a n : Nat} {fs : List Nat} (h : s.fluxSpan a n = .ok fs) :
    ∃ vs, Memory.readSpan s.fm a n = some vs ∧ fs = vs.map BitVec.toNat := by
  simp only [State.fluxSpan] at h
  split at h
  · cases h
  · split at h
    · cases h; exact ⟨_, ‹_›, rfl⟩
    · cases h

/-- A span of FM raises no fatal error. -/
theorem State.fluxSpan_error {s : State} {a n : Nat} {r : Stop} (h : s.fluxSpan a n = .error r) :
    r = .fault .noSuchElement ∨ r = .fault .unwrittenElement := by
  simp only [State.fluxSpan] at h
  split at h
  · cases h; exact .inl rfl
  · split at h
    · cases h
    · cases h; exact .inr rfl

/-- Everything a read of one element can be. -/
theorem State.memRead_cases (s : State) (sp : Space) (a : Nat) :
    (s.size sp ≤ a ∧ s.memRead sp a = .error .noSuchElement) ∨
      (a < s.size sp ∧ s.element sp a = none ∧ s.memRead sp a = .error .unwrittenElement) ∨
      (∃ v, a < s.size sp ∧ s.element sp a = some v ∧ s.memRead sp a = .ok v) := by
  simp only [State.memRead]
  by_cases h : s.size sp ≤ a
  · simp [h]
  · cases s.element sp a <;> simp [h] <;> omega

end Sys2Proof.Machine
end

