-- ==== Sys2Proof/Laws/State.lean ====
section
/-! SUPPORT. One lemma per field per named update of the state, each true by rfl. -/

namespace Sys2Proof.Machine

/-! ### A response -/

@[simp] theorem State.respond_params (s : State) (code : RespCode) (data : Word) : (s.respond code data).params = s.params := rfl
@[simp] theorem State.respond_crc (s : State) (code : RespCode) (data : Word) : (s.respond code data).crc = s.crc := rfl
@[simp] theorem State.respond_sum (s : State) (code : RespCode) (data : Word) : (s.respond code data).sum = s.sum := rfl
@[simp] theorem State.respond_tape (s : State) (code : RespCode) (data : Word) : (s.respond code data).tape = s.tape := rfl
@[simp] theorem State.respond_floppy (s : State) (code : RespCode) (data : Word) : (s.respond code data).floppy = s.floppy := rfl
@[simp] theorem State.respond_cfg (s : State) (code : RespCode) (data : Word) : (s.respond code data).cfg = s.cfg := rfl
@[simp] theorem State.respond_tb (s : State) (code : RespCode) (data : Word) : (s.respond code data).tb = s.tb := rfl
@[simp] theorem State.respond_hb (s : State) (code : RespCode) (data : Word) : (s.respond code data).hb = s.hb := rfl
@[simp] theorem State.respond_fb (s : State) (code : RespCode) (data : Word) : (s.respond code data).fb = s.fb := rfl
@[simp] theorem State.respond_fom (s : State) (code : RespCode) (data : Word) : (s.respond code data).fom = s.fom := rfl
@[simp] theorem State.respond_fm (s : State) (code : RespCode) (data : Word) : (s.respond code data).fm = s.fm := rfl
@[simp] theorem State.respond_pending (s : State) (code : RespCode) (data : Word) : (s.respond code data).pending = s.pending := rfl
@[simp] theorem State.respond_resp (s : State) (code : RespCode) (data : Word) : (s.respond code data).resp = some ⟨code, data⟩ := rfl

/-! ### A refusal -/

@[simp] theorem State.refuse_params (s : State) (code : RespCode) : (s.refuse code).params = s.params := rfl
@[simp] theorem State.refuse_crc (s : State) (code : RespCode) : (s.refuse code).crc = s.crc := rfl
@[simp] theorem State.refuse_sum (s : State) (code : RespCode) : (s.refuse code).sum = s.sum := rfl
@[simp] theorem State.refuse_tape (s : State) (code : RespCode) : (s.refuse code).tape = s.tape := rfl
@[simp] theorem State.refuse_floppy (s : State) (code : RespCode) : (s.refuse code).floppy = s.floppy := rfl
@[simp] theorem State.refuse_cfg (s : State) (code : RespCode) : (s.refuse code).cfg = s.cfg := rfl
@[simp] theorem State.refuse_tb (s : State) (code : RespCode) : (s.refuse code).tb = s.tb := rfl
@[simp] theorem State.refuse_hb (s : State) (code : RespCode) : (s.refuse code).hb = s.hb := rfl
@[simp] theorem State.refuse_fb (s : State) (code : RespCode) : (s.refuse code).fb = s.fb := rfl
@[simp] theorem State.refuse_fom (s : State) (code : RespCode) : (s.refuse code).fom = s.fom := rfl
@[simp] theorem State.refuse_fm (s : State) (code : RespCode) : (s.refuse code).fm = s.fm := rfl
@[simp] theorem State.refuse_pending (s : State) (code : RespCode) : (s.refuse code).pending = s.pending := rfl
@[simp] theorem State.refuse_resp (s : State) (code : RespCode) : (s.refuse code).resp = some ⟨code, 0#32⟩ := rfl

/-! ### A TAPE response -/

@[simp] theorem State.answerTape_params (s : State) (code : RespCode) : (s.answerTape code).params = s.params := rfl
@[simp] theorem State.answerTape_crc (s : State) (code : RespCode) : (s.answerTape code).crc = s.crc := rfl
@[simp] theorem State.answerTape_sum (s : State) (code : RespCode) : (s.answerTape code).sum = s.sum := rfl
@[simp] theorem State.answerTape_tape (s : State) (code : RespCode) : (s.answerTape code).tape = s.tape := rfl
@[simp] theorem State.answerTape_floppy (s : State) (code : RespCode) : (s.answerTape code).floppy = s.floppy := rfl
@[simp] theorem State.answerTape_cfg (s : State) (code : RespCode) : (s.answerTape code).cfg = s.cfg := rfl
@[simp] theorem State.answerTape_tb (s : State) (code : RespCode) : (s.answerTape code).tb = s.tb := rfl
@[simp] theorem State.answerTape_hb (s : State) (code : RespCode) : (s.answerTape code).hb = s.hb := rfl
@[simp] theorem State.answerTape_fb (s : State) (code : RespCode) : (s.answerTape code).fb = s.fb := rfl
@[simp] theorem State.answerTape_fom (s : State) (code : RespCode) : (s.answerTape code).fom = s.fom := rfl
@[simp] theorem State.answerTape_fm (s : State) (code : RespCode) : (s.answerTape code).fm = s.fm := rfl
@[simp] theorem State.answerTape_pending (s : State) (code : RespCode) : (s.answerTape code).pending = s.pending := rfl
@[simp] theorem State.answerTape_resp (s : State) (code : RespCode) : (s.answerTape code).resp = some ⟨code, tapeData s.tape⟩ := rfl

/-! ### A comparison -/

@[simp] theorem State.answerBool_params (s : State) (b : Bool) : (s.answerBool b).params = s.params := rfl
@[simp] theorem State.answerBool_crc (s : State) (b : Bool) : (s.answerBool b).crc = s.crc := rfl
@[simp] theorem State.answerBool_sum (s : State) (b : Bool) : (s.answerBool b).sum = s.sum := rfl
@[simp] theorem State.answerBool_tape (s : State) (b : Bool) : (s.answerBool b).tape = s.tape := rfl
@[simp] theorem State.answerBool_floppy (s : State) (b : Bool) : (s.answerBool b).floppy = s.floppy := rfl
@[simp] theorem State.answerBool_cfg (s : State) (b : Bool) : (s.answerBool b).cfg = s.cfg := rfl
@[simp] theorem State.answerBool_tb (s : State) (b : Bool) : (s.answerBool b).tb = s.tb := rfl
@[simp] theorem State.answerBool_hb (s : State) (b : Bool) : (s.answerBool b).hb = s.hb := rfl
@[simp] theorem State.answerBool_fb (s : State) (b : Bool) : (s.answerBool b).fb = s.fb := rfl
@[simp] theorem State.answerBool_fom (s : State) (b : Bool) : (s.answerBool b).fom = s.fom := rfl
@[simp] theorem State.answerBool_fm (s : State) (b : Bool) : (s.answerBool b).fm = s.fm := rfl
@[simp] theorem State.answerBool_pending (s : State) (b : Bool) : (s.answerBool b).pending = s.pending := rfl
@[simp] theorem State.answerBool_resp (s : State) (b : Bool) : (s.answerBool b).resp = some ⟨.ok, if b then 1#32 else 0#32⟩ := rfl

/-! ### A TAPE fatal error -/

@[simp] theorem State.failTape_params (s : State) (kind : ErrKind) : (s.failTape kind).params = s.params := rfl
@[simp] theorem State.failTape_crc (s : State) (kind : ErrKind) : (s.failTape kind).crc = s.crc := rfl
@[simp] theorem State.failTape_sum (s : State) (kind : ErrKind) : (s.failTape kind).sum = s.sum := rfl
@[simp] theorem State.failTape_tape (s : State) (kind : ErrKind) : (s.failTape kind).tape = { s.tape with phase := .fatal, err := kind } := rfl
@[simp] theorem State.failTape_floppy (s : State) (kind : ErrKind) : (s.failTape kind).floppy = s.floppy := rfl
@[simp] theorem State.failTape_cfg (s : State) (kind : ErrKind) : (s.failTape kind).cfg = s.cfg := rfl
@[simp] theorem State.failTape_tb (s : State) (kind : ErrKind) : (s.failTape kind).tb = s.tb := rfl
@[simp] theorem State.failTape_hb (s : State) (kind : ErrKind) : (s.failTape kind).hb = s.hb := rfl
@[simp] theorem State.failTape_fb (s : State) (kind : ErrKind) : (s.failTape kind).fb = s.fb := rfl
@[simp] theorem State.failTape_fom (s : State) (kind : ErrKind) : (s.failTape kind).fom = s.fom := rfl
@[simp] theorem State.failTape_fm (s : State) (kind : ErrKind) : (s.failTape kind).fm = s.fm := rfl
@[simp] theorem State.failTape_pending (s : State) (kind : ErrKind) : (s.failTape kind).pending = s.pending := rfl
@[simp] theorem State.failTape_resp (s : State) (kind : ErrKind) : (s.failTape kind).resp = some ⟨.fatal, tapeData { s.tape with phase := .fatal, err := kind }⟩ := rfl

/-! ### A FLOPPY fatal error -/

@[simp] theorem State.failFloppy_params (s : State) (kind : ErrKind) : (s.failFloppy kind).params = s.params := rfl
@[simp] theorem State.failFloppy_crc (s : State) (kind : ErrKind) : (s.failFloppy kind).crc = s.crc := rfl
@[simp] theorem State.failFloppy_sum (s : State) (kind : ErrKind) : (s.failFloppy kind).sum = s.sum := rfl
@[simp] theorem State.failFloppy_tape (s : State) (kind : ErrKind) : (s.failFloppy kind).tape = s.tape := rfl
@[simp] theorem State.failFloppy_floppy (s : State) (kind : ErrKind) : (s.failFloppy kind).floppy = { s.floppy with mode := .fatal, err := kind } := rfl
@[simp] theorem State.failFloppy_cfg (s : State) (kind : ErrKind) : (s.failFloppy kind).cfg = s.cfg := rfl
@[simp] theorem State.failFloppy_tb (s : State) (kind : ErrKind) : (s.failFloppy kind).tb = s.tb := rfl
@[simp] theorem State.failFloppy_hb (s : State) (kind : ErrKind) : (s.failFloppy kind).hb = s.hb := rfl
@[simp] theorem State.failFloppy_fb (s : State) (kind : ErrKind) : (s.failFloppy kind).fb = s.fb := rfl
@[simp] theorem State.failFloppy_fom (s : State) (kind : ErrKind) : (s.failFloppy kind).fom = s.fom := rfl
@[simp] theorem State.failFloppy_fm (s : State) (kind : ErrKind) : (s.failFloppy kind).fm = s.fm := rfl
@[simp] theorem State.failFloppy_pending (s : State) (kind : ErrKind) : (s.failFloppy kind).pending = s.pending := rfl
@[simp] theorem State.failFloppy_resp (s : State) (kind : ErrKind) : (s.failFloppy kind).resp = some ⟨.fatal, zext kind.code⟩ := rfl

/-! ### The CRC register -/

@[simp] theorem State.setCrc_params (s : State) (c : BitVec 16) : (s.setCrc c).params = s.params := rfl
@[simp] theorem State.setCrc_crc (s : State) (c : BitVec 16) : (s.setCrc c).crc = c := rfl
@[simp] theorem State.setCrc_sum (s : State) (c : BitVec 16) : (s.setCrc c).sum = s.sum := rfl
@[simp] theorem State.setCrc_tape (s : State) (c : BitVec 16) : (s.setCrc c).tape = s.tape := rfl
@[simp] theorem State.setCrc_floppy (s : State) (c : BitVec 16) : (s.setCrc c).floppy = s.floppy := rfl
@[simp] theorem State.setCrc_cfg (s : State) (c : BitVec 16) : (s.setCrc c).cfg = s.cfg := rfl
@[simp] theorem State.setCrc_tb (s : State) (c : BitVec 16) : (s.setCrc c).tb = s.tb := rfl
@[simp] theorem State.setCrc_hb (s : State) (c : BitVec 16) : (s.setCrc c).hb = s.hb := rfl
@[simp] theorem State.setCrc_fb (s : State) (c : BitVec 16) : (s.setCrc c).fb = s.fb := rfl
@[simp] theorem State.setCrc_fom (s : State) (c : BitVec 16) : (s.setCrc c).fom = s.fom := rfl
@[simp] theorem State.setCrc_fm (s : State) (c : BitVec 16) : (s.setCrc c).fm = s.fm := rfl
@[simp] theorem State.setCrc_pending (s : State) (c : BitVec 16) : (s.setCrc c).pending = s.pending := rfl
@[simp] theorem State.setCrc_resp (s : State) (c : BitVec 16) : (s.setCrc c).resp = some ⟨.ok, zext c⟩ := rfl

/-! ### The SUM register -/

@[simp] theorem State.setSum_params (s : State) (v : BitVec 16) : (s.setSum v).params = s.params := rfl
@[simp] theorem State.setSum_crc (s : State) (v : BitVec 16) : (s.setSum v).crc = s.crc := rfl
@[simp] theorem State.setSum_sum (s : State) (v : BitVec 16) : (s.setSum v).sum = v := rfl
@[simp] theorem State.setSum_tape (s : State) (v : BitVec 16) : (s.setSum v).tape = s.tape := rfl
@[simp] theorem State.setSum_floppy (s : State) (v : BitVec 16) : (s.setSum v).floppy = s.floppy := rfl
@[simp] theorem State.setSum_cfg (s : State) (v : BitVec 16) : (s.setSum v).cfg = s.cfg := rfl
@[simp] theorem State.setSum_tb (s : State) (v : BitVec 16) : (s.setSum v).tb = s.tb := rfl
@[simp] theorem State.setSum_hb (s : State) (v : BitVec 16) : (s.setSum v).hb = s.hb := rfl
@[simp] theorem State.setSum_fb (s : State) (v : BitVec 16) : (s.setSum v).fb = s.fb := rfl
@[simp] theorem State.setSum_fom (s : State) (v : BitVec 16) : (s.setSum v).fom = s.fom := rfl
@[simp] theorem State.setSum_fm (s : State) (v : BitVec 16) : (s.setSum v).fm = s.fm := rfl
@[simp] theorem State.setSum_pending (s : State) (v : BitVec 16) : (s.setSum v).pending = s.pending := rfl
@[simp] theorem State.setSum_resp (s : State) (v : BitVec 16) : (s.setSum v).resp = some ⟨.ok, zext v⟩ := rfl

/-! ### Every register at reset -/

@[simp] theorem State.resetRegisters_params (s : State) : (s.resetRegisters).params = s.params := rfl
@[simp] theorem State.resetRegisters_crc (s : State) : (s.resetRegisters).crc = 0xFFFF#16 := rfl
@[simp] theorem State.resetRegisters_sum (s : State) : (s.resetRegisters).sum = 0#16 := rfl
@[simp] theorem State.resetRegisters_tape (s : State) : (s.resetRegisters).tape = TapeRegs.reset := rfl
@[simp] theorem State.resetRegisters_floppy (s : State) : (s.resetRegisters).floppy = FloppyRegs.reset := rfl
@[simp] theorem State.resetRegisters_cfg (s : State) : (s.resetRegisters).cfg = ConfigRegs.reset s.params := rfl
@[simp] theorem State.resetRegisters_tb (s : State) : (s.resetRegisters).tb = s.tb := rfl
@[simp] theorem State.resetRegisters_hb (s : State) : (s.resetRegisters).hb = s.hb := rfl
@[simp] theorem State.resetRegisters_fb (s : State) : (s.resetRegisters).fb = s.fb := rfl
@[simp] theorem State.resetRegisters_fom (s : State) : (s.resetRegisters).fom = s.fom := rfl
@[simp] theorem State.resetRegisters_fm (s : State) : (s.resetRegisters).fm = s.fm := rfl
@[simp] theorem State.resetRegisters_pending (s : State) : (s.resetRegisters).pending = s.pending := rfl
@[simp] theorem State.resetRegisters_resp (s : State) : (s.resetRegisters).resp = s.resp := rfl

/-! ### An interval appended -/

@[simp] theorem State.pushFlux_params (s : State) (v : BitVec 24) : (s.pushFlux v).params = s.params := rfl
@[simp] theorem State.pushFlux_crc (s : State) (v : BitVec 24) : (s.pushFlux v).crc = s.crc := rfl
@[simp] theorem State.pushFlux_sum (s : State) (v : BitVec 24) : (s.pushFlux v).sum = s.sum := rfl
@[simp] theorem State.pushFlux_tape (s : State) (v : BitVec 24) : (s.pushFlux v).tape = s.tape := rfl
@[simp] theorem State.pushFlux_floppy (s : State) (v : BitVec 24) : (s.pushFlux v).floppy = { s.floppy with count := s.floppy.count + 1#21 } := rfl
@[simp] theorem State.pushFlux_cfg (s : State) (v : BitVec 24) : (s.pushFlux v).cfg = s.cfg := rfl
@[simp] theorem State.pushFlux_tb (s : State) (v : BitVec 24) : (s.pushFlux v).tb = s.tb := rfl
@[simp] theorem State.pushFlux_hb (s : State) (v : BitVec 24) : (s.pushFlux v).hb = s.hb := rfl
@[simp] theorem State.pushFlux_fb (s : State) (v : BitVec 24) : (s.pushFlux v).fb = s.fb := rfl
@[simp] theorem State.pushFlux_fom (s : State) (v : BitVec 24) : (s.pushFlux v).fom = s.fom := rfl
@[simp] theorem State.pushFlux_fm (s : State) (v : BitVec 24) : (s.pushFlux v).fm = Memory.write s.fm s.floppy.count.toNat v := rfl
@[simp] theorem State.pushFlux_pending (s : State) (v : BitVec 24) : (s.pushFlux v).pending = s.pending := rfl
@[simp] theorem State.pushFlux_resp (s : State) (v : BitVec 24) : (s.pushFlux v).resp = s.resp := rfl

/-! ### A field decoded -/

@[simp] theorem State.writeField_params (s : State) (o : MfmOut) : (s.writeField o).params = s.params := rfl
@[simp] theorem State.writeField_crc (s : State) (o : MfmOut) : (s.writeField o).crc = s.crc := rfl
@[simp] theorem State.writeField_sum (s : State) (o : MfmOut) : (s.writeField o).sum = s.sum := rfl
@[simp] theorem State.writeField_tape (s : State) (o : MfmOut) : (s.writeField o).tape = s.tape := rfl
@[simp] theorem State.writeField_floppy (s : State) (o : MfmOut) : (s.writeField o).floppy = { s.floppy with
      fblen := BitVec.ofNat 11 (assemble o.syms).length, nsym := BitVec.ofNat 14 o.syms.length,
      pos := BitVec.ofNat 21 o.pos } := rfl
@[simp] theorem State.writeField_cfg (s : State) (o : MfmOut) : (s.writeField o).cfg = s.cfg := rfl
@[simp] theorem State.writeField_tb (s : State) (o : MfmOut) : (s.writeField o).tb = s.tb := rfl
@[simp] theorem State.writeField_hb (s : State) (o : MfmOut) : (s.writeField o).hb = s.hb := rfl
@[simp] theorem State.writeField_fb (s : State) (o : MfmOut) : (s.writeField o).fb = Memory.writeSpan s.fb 0 ((assemble o.syms).map MfmGroup.value) := rfl
@[simp] theorem State.writeField_fom (s : State) (o : MfmOut) : (s.writeField o).fom = Memory.writeSpan s.fom 0 ((assemble o.syms).map MfmGroup.mask) := rfl
@[simp] theorem State.writeField_fm (s : State) (o : MfmOut) : (s.writeField o).fm = s.fm := rfl
@[simp] theorem State.writeField_pending (s : State) (o : MfmOut) : (s.writeField o).pending = s.pending := rfl
@[simp] theorem State.writeField_resp (s : State) (o : MfmOut) : (s.writeField o).resp = s.resp := rfl

/-! ### A word issued -/

@[simp] theorem State.withFetchWord_params (s : State) (nbits w : Nat) : (s.withFetchWord nbits w).params = s.params := rfl
@[simp] theorem State.withFetchWord_crc (s : State) (nbits w : Nat) : (s.withFetchWord nbits w).crc = s.crc := rfl
@[simp] theorem State.withFetchWord_sum (s : State) (nbits w : Nat) : (s.withFetchWord nbits w).sum = s.sum := rfl
@[simp] theorem State.withFetchWord_tape (s : State) (nbits w : Nat) : (s.withFetchWord nbits w).tape = s.tape := rfl
@[simp] theorem State.withFetchWord_floppy (s : State) (nbits w : Nat) : (s.withFetchWord nbits w).floppy = s.floppy := rfl
@[simp] theorem State.withFetchWord_cfg (s : State) (nbits w : Nat) : (s.withFetchWord nbits w).cfg = s.cfg := rfl
@[simp] theorem State.withFetchWord_tb (s : State) (nbits w : Nat) : (s.withFetchWord nbits w).tb = s.tb := rfl
@[simp] theorem State.withFetchWord_hb (s : State) (nbits w : Nat) : (s.withFetchWord nbits w).hb = s.hb := rfl
@[simp] theorem State.withFetchWord_fb (s : State) (nbits w : Nat) : (s.withFetchWord nbits w).fb = s.fb := rfl
@[simp] theorem State.withFetchWord_fom (s : State) (nbits w : Nat) : (s.withFetchWord nbits w).fom = s.fom := rfl
@[simp] theorem State.withFetchWord_fm (s : State) (nbits w : Nat) : (s.withFetchWord nbits w).fm = s.fm := rfl
@[simp] theorem State.withFetchWord_pending (s : State) (nbits w : Nat) : (s.withFetchWord nbits w).pending = BitVec.ofNat 32 (w % 2 ^ nbits) :: s.pending := rfl
@[simp] theorem State.withFetchWord_resp (s : State) (nbits w : Nat) : (s.withFetchWord nbits w).resp = s.resp := rfl

/-! ### What the reads of a state see -/

@[simp] theorem State.respond_element (s : State) (code : RespCode) (data : Word) (sp : Space) (a : Nat) : (s.respond code data).element sp a = s.element sp a := by
  cases sp <;> rfl
@[simp] theorem State.respond_limit (s : State) (code : RespCode) (data : Word) (sp : Space) : (s.respond code data).limit sp = s.limit sp := by
  cases sp <;> rfl
@[simp] theorem State.respond_size (s : State) (code : RespCode) (data : Word) (sp : Space) : (s.respond code data).size sp = s.size sp := by
  cases sp <;> rfl
@[simp] theorem State.refuse_element (s : State) (code : RespCode) (sp : Space) (a : Nat) : (s.refuse code).element sp a = s.element sp a := by
  cases sp <;> rfl
@[simp] theorem State.refuse_limit (s : State) (code : RespCode) (sp : Space) : (s.refuse code).limit sp = s.limit sp := by
  cases sp <;> rfl
@[simp] theorem State.refuse_size (s : State) (code : RespCode) (sp : Space) : (s.refuse code).size sp = s.size sp := by
  cases sp <;> rfl
@[simp] theorem State.answerTape_element (s : State) (code : RespCode) (sp : Space) (a : Nat) : (s.answerTape code).element sp a = s.element sp a := by
  cases sp <;> rfl
@[simp] theorem State.answerTape_limit (s : State) (code : RespCode) (sp : Space) : (s.answerTape code).limit sp = s.limit sp := by
  cases sp <;> rfl
@[simp] theorem State.answerTape_size (s : State) (code : RespCode) (sp : Space) : (s.answerTape code).size sp = s.size sp := by
  cases sp <;> rfl
@[simp] theorem State.setCrc_element (s : State) (c : BitVec 16) (sp : Space) (a : Nat) : (s.setCrc c).element sp a = s.element sp a := by
  cases sp <;> rfl
@[simp] theorem State.setCrc_limit (s : State) (c : BitVec 16) (sp : Space) : (s.setCrc c).limit sp = s.limit sp := by
  cases sp <;> rfl
@[simp] theorem State.setCrc_size (s : State) (c : BitVec 16) (sp : Space) : (s.setCrc c).size sp = s.size sp := by
  cases sp <;> rfl
@[simp] theorem State.setSum_element (s : State) (v : BitVec 16) (sp : Space) (a : Nat) : (s.setSum v).element sp a = s.element sp a := by
  cases sp <;> rfl
@[simp] theorem State.setSum_limit (s : State) (v : BitVec 16) (sp : Space) : (s.setSum v).limit sp = s.limit sp := by
  cases sp <;> rfl
@[simp] theorem State.setSum_size (s : State) (v : BitVec 16) (sp : Space) : (s.setSum v).size sp = s.size sp := by
  cases sp <;> rfl

/-- The host's word is the one the block takes next. -/
@[simp] theorem State.withFetchWord_takeCommand (s : State) (nbits w : Nat) :
    (s.withFetchWord nbits w).takeCommand = some (BitVec.ofNat 32 (w % 2 ^ nbits), s) := rfl

/-- Everything taking a command can be. -/
theorem State.takeCommand_cases (s : State) :
    (s.pending = [] ∧ s.takeCommand = none) ∨
      (∃ c cs, s.pending = c :: cs ∧ s.takeCommand = some (c, { s with pending := cs })) := by
  rcases h : s.pending with _ | ⟨c, cs⟩
  · exact .inl ⟨rfl, by simp [State.takeCommand, h]⟩
  · exact .inr ⟨c, cs, rfl, by simp [State.takeCommand, h]⟩

end Sys2Proof.Machine
end

