-- ==== Sys2Proof/Laws/Floppy.lean ====
section
/-! SUPPORT. What the FLOPPY unit's operations can do: one lemma per operation, saying everything it can answer. -/

namespace Sys2Proof.Machine

@[simp] theorem stopFloppy_fatal (s : State) (kind : ErrKind) :
    stopFloppy s (.fatal kind) = .next (s.failFloppy kind) := rfl

@[simp] theorem stopFloppy_fault (s : State) (f : Fault) : stopFloppy s (.fault f) = .fault f := rfl

/-- What `decode(n)` can compute: a stop on reading FM, a fatal interval, or a symbol list (R101, R102). -/
theorem State.decodeField_cases (s : State) (n : Nat) :
    (∃ f, s.decodeField n = .error (.fault f)) ∨
      (∃ fs, s.fluxSpan s.floppy.mpos.toNat (s.floppy.count.toNat - s.floppy.mpos.toNat) = .ok fs ∧
        ((mfmDecode s.cell s.floppy.count.toNat s.floppy.mpos.toNat n fs = none ∧
            s.decodeField n = .error (.fatal .bitTiming)) ∨
          ∃ o, mfmDecode s.cell s.floppy.count.toNat s.floppy.mpos.toNat n fs = some o ∧ s.decodeField n = .ok o)) := by
  unfold State.decodeField
  cases h : s.fluxSpan s.floppy.mpos.toNat (s.floppy.count.toNat - s.floppy.mpos.toNat) with
  | error r => left; rcases s.fluxSpan_error h with rfl | rfl <;> exact ⟨_, rfl⟩
  | ok fs =>
    right
    refine ⟨fs, rfl, ?_⟩
    cases hm : mfmDecode s.cell s.floppy.count.toNat s.floppy.mpos.toNat n fs with
    | none => exact .inl ⟨rfl, by simp only [hm, boundStop]⟩
    | some o => exact .inr ⟨o, rfl, by simp only [hm, boundStop]⟩

/-- What a decode command that passed its operand check can do (R91, R101, R106, R107, R109). -/
theorem State.runDecode_cases (s : State) (n : Nat) (finish : MfmOut → FloppyRegs → FloppyRegs) :
    (s.floppy.mayDecode = false ∧ s.runDecode n finish = .next (s.refuse .seq)) ∨
      (s.floppy.mayDecode = true ∧ s.decodeField n = .error (.fatal .bitTiming) ∧
        s.runDecode n finish = .next (s.failFloppy .bitTiming)) ∨
      (s.floppy.mayDecode = true ∧ ∃ f, s.decodeField n = .error (.fault f) ∧ s.runDecode n finish = .fault f) ∨
      (s.floppy.mayDecode = true ∧ ∃ o, s.decodeField n = .ok o ∧ s.runDecode n finish =
        .next ({ s.writeField o with floppy := finish o (s.writeField o).floppy }.respond .ok
          (zext (finish o (s.writeField o).floppy).fstat))) := by
  cases hg : s.floppy.mayDecode
  · exact .inl ⟨rfl, by simp [State.runDecode, hg]⟩
  · right
    rcases s.decodeField_cases n with ⟨f, hf⟩ | ⟨_, _, ⟨_, hf⟩ | ⟨o, _, hf⟩⟩
    · exact .inr (.inl ⟨rfl, f, hf, by simp [State.runDecode, hg, hf]⟩)
    · exact .inl ⟨rfl, hf, by simp [State.runDecode, hg, hf]⟩
    · exact .inr (.inr ⟨rfl, o, hf, by simp [State.runDecode, hg, hf]⟩)

/-- The gate of the decodes, in full (R91). -/
theorem FloppyRegs.mayDecode_iff (f : FloppyRegs) :
    f.mayDecode = true ↔ f.mode = .ready ∧ f.svalid = true ∧ f.mfound = true := by
  simp [FloppyRegs.mayDecode, and_assoc]

/-- A readable FM gives a decode its intervals. -/
theorem State.decodeField_eq {s : State} (h : s.FluxReadable) (n : Nat) :
    s.decodeField n =
      boundStop (mfmDecode s.cell s.floppy.count.toNat s.floppy.mpos.toNat n s.markedFlux) := by
  unfold State.decodeField State.markedFlux
  rw [State.fluxSpan_eq h (by omega)]

/-- What FL_EST can do (R95). -/
theorem execFlEst_cases (s : State) :
    (s.floppy.mode = .fatal ∧ execFlEst s = .next (s.refuse .seq)) ∨
      (s.floppy.mode = .ready ∧ s.floppy.svalid = true ∧ execFlEst s = .next (s.respond .ok (zext s.floppy.sk))) ∨
      (s.floppy.mode = .ready ∧ s.floppy.svalid = false ∧
        ((∃ f, execFlEst s = .fault f) ∨
          ∃ fs, s.fluxSpan 0 s.floppy.count.toNat = .ok fs ∧
            ((estimate fs 0 0 = none ∧ execFlEst s = .next (s.failFloppy .calibration)) ∨
              ∃ sum k, estimate fs 0 0 = some (sum, k) ∧ execFlEst s =
                .next ({ s with floppy := { s.floppy with
                  ss := BitVec.ofNat 64 sum, sk := BitVec.ofNat 21 k, svalid := true } }.respond .ok
                    (zext (BitVec.ofNat 21 k)))))) := by
  unfold execFlEst
  cases hm : s.floppy.mode <;> cases hv : s.floppy.svalid <;> simp only [reduceCtorEq, if_true, if_false]
  · refine .inr (.inr ⟨trivial, trivial, ?_⟩)
    cases hf : s.fluxSpan 0 s.floppy.count.toNat with
    | error r => left; rcases s.fluxSpan_error hf with rfl | rfl <;> exact ⟨_, rfl⟩
    | ok fs =>
      refine .inr ⟨fs, rfl, ?_⟩
      cases he : estimate fs 0 0 with
      | none => exact .inl ⟨rfl, by simp only [he]⟩
      | some r => exact .inr ⟨r.1, r.2, rfl, by simp only [he]⟩
  · exact .inr (.inl ⟨trivial, trivial, by simp⟩)
  all_goals exact .inl ⟨trivial, trivial⟩

/-- What FL_FIND can do (R91, R98). -/
theorem execFlFind_cases (s : State) :
    ((s.floppy.mode = .fatal ∨ s.floppy.svalid = false) ∧ execFlFind s = .next (s.refuse .seq)) ∨
      (s.floppy.mode = .ready ∧ s.floppy.svalid = true ∧
        ((∃ f, execFlFind s = .fault f) ∨
          ∃ fs, s.fluxSpan s.floppy.pos.toNat (s.floppy.count.toNat - s.floppy.pos.toNat) = .ok fs ∧
            execFlFind s =
              .next ({ s with floppy := s.floppy.afterSearch (findMark s.cell fs s.floppy.pos.toNat []) }.respond .ok
                (if (findMark s.cell fs s.floppy.pos.toNat []).isSome then 1#32 else 0#32)))) := by
  unfold execFlFind
  cases hm : s.floppy.mode <;> cases hv : s.floppy.svalid <;> simp only [reduceCtorEq, if_true, if_false]
  · exact .inl ⟨.inr trivial, by simp⟩
  · refine .inr ⟨trivial, trivial, ?_⟩
    cases hf : s.fluxSpan s.floppy.pos.toNat (s.floppy.count.toNat - s.floppy.pos.toNat) with
    | error r => left; rcases s.fluxSpan_error hf with rfl | rfl <;> exact ⟨_, rfl⟩
    | ok fs => exact .inr ⟨fs, rfl, rfl⟩
  all_goals exact .inl ⟨.inl trivial, trivial⟩

/-- What FL_PUSH can do (R94). -/
theorem execFlPush_cases (v : BitVec 24) (s : State) :
    (v = 0#24 ∧ execFlPush v s = .next (s.refuse .badarg)) ∨
      (v ≠ 0#24 ∧ (s.floppy.mode = .fatal ∨ s.floppy.count.toNat = s.params.fmDepth) ∧
        execFlPush v s = .next (s.refuse .seq)) ∨
      (v ≠ 0#24 ∧ s.params.fmDepth < s.floppy.count.toNat ∧ execFlPush v s = .fault .noSuchElement) ∨
      (v ≠ 0#24 ∧ s.floppy.mode = .ready ∧ s.floppy.count.toNat < s.params.fmDepth ∧
        execFlPush v s = .next ((s.pushFlux v).respond .ok (zext (s.floppy.count + 1#21)))) := by
  by_cases hv : v = 0#24
  · exact .inl ⟨hv, by simp [execFlPush, hv]⟩
  · by_cases hc : s.floppy.count.toNat = s.params.fmDepth
    · cases hm : s.floppy.mode <;> simp [execFlPush, hv, hm, hc]
    · cases hm : s.floppy.mode
      · by_cases hl : s.params.fmDepth ≤ s.floppy.count.toNat
        · refine .inr (.inr (.inl ⟨hv, by omega, ?_⟩)); simp [execFlPush, hv, hm, hc, State.size, hl]
        · refine .inr (.inr (.inr ⟨hv, rfl, by omega, ?_⟩)); simp [execFlPush, hv, hm, hc, State.size, hl]
      · exact .inr (.inl ⟨hv, .inl rfl, by simp [execFlPush, hv, hm]⟩)

/-- What one pass of the decode loop can do (R102, R103): it emits, then it stops at the target, re-tests, runs out of
flux, meets an interval over the bound, or goes on with the next interval. -/
theorem mfmPass_cases (c : SyncLen) (count target : Nat) (v : MfmVars) :
    ∃ emitted act, mfmBranch c v.rem = (emitted, act) ∧
      ((target ≤ emitted.length + v.rsyms.length ∧ mfmPass c count target v =
          .stop ⟨(v.rsyms.reverse ++ emitted).take target, v.idx + 1, false⟩) ∨
        (emitted.length + v.rsyms.length < target ∧ act = .same ∧ mfmPass c count target v =
          .more { v with rem := v.rem - 2 * (c.ss : Int), rsyms := emitted.reverse ++ v.rsyms }) ∨
        (emitted.length + v.rsyms.length < target ∧ act ≠ .same ∧ v.rest = [] ∧
          mfmPass c count target v = .stop ⟨v.rsyms.reverse ++ emitted, count, true⟩) ∨
        (emitted.length + v.rsyms.length < target ∧ act ≠ .same ∧ ∃ f rest, v.rest = f :: rest ∧
          ((mfmFetch c f act = none ∧ mfmPass c count target v = .overBound) ∨
            ∃ g, mfmFetch c f act = some g ∧
              mfmPass c count target v = .more ⟨g, v.idx + 1, rest, emitted.reverse ++ v.rsyms⟩))) := by
  refine ⟨(mfmBranch c v.rem).1, (mfmBranch c v.rem).2, rfl, ?_⟩
  unfold mfmPass
  rcases hb : mfmBranch c v.rem with ⟨emitted, act⟩
  simp only [List.length_append, List.length_reverse, List.reverse_append, List.reverse_reverse]
  by_cases ht : target ≤ emitted.length + v.rsyms.length
  · exact .inl ⟨ht, by simp [ht]⟩
  · have hlt : emitted.length + v.rsyms.length < target := by omega
    simp only [ht, if_false]
    by_cases ha : act = .same
    · exact .inr (.inl ⟨hlt, ha, by simp [ha]⟩)
    · simp only [ha, if_false]
      cases hr : v.rest with
      | nil => exact .inr (.inr (.inl ⟨hlt, fun h => ha h, rfl, rfl⟩))
      | cons f rest =>
        refine .inr (.inr (.inr ⟨hlt, fun h => ha h, f, rest, rfl, ?_⟩))
        cases hg : mfmFetch c f act with
        | none => exact .inl ⟨rfl, by simp only [hg]⟩
        | some g => exact .inr ⟨g, rfl, by simp only [hg]⟩

end Sys2Proof.Machine
end

