-- ==== Sys2Proof/Laws/PerInstr.lean ====
section
/-! SUPPORT. The family FieldsOfWord: the word of an instruction carries its opcode in bits 31:24 and its operand
field in bits 23:0 (30_encoding.md R51), so that decoding it is decoding those two. -/

namespace Sys2Proof.Laws

/-- A word made of an opcode and an operand field gives both back. -/
theorem fields_of_append (op : BitVec 8) (f : BitVec 24) :
    BitVec.extractLsb' 24 8 (op ++ f) = op ∧ BitVec.extractLsb' 0 24 (op ++ f) = f := by
  constructor
  · apply BitVec.eq_of_getLsbD_eq; intro i hi
    simp only [BitVec.getLsbD_extractLsb', BitVec.getLsbD_append]
    simp [hi]
  · apply BitVec.eq_of_getLsbD_eq; intro i hi
    simp only [BitVec.getLsbD_extractLsb', BitVec.getLsbD_append]
    simp [hi]

/-- The statement of the family. -/
def FieldsOfWord.Statement (i : Instr) : Prop :=
  (encode i).extractLsb' 24 8 = opcodeOf i ∧ (encode i).extractLsb' 0 24 = operandOf i

theorem FieldsOfWord.nop : FieldsOfWord.Statement .nop := fields_of_append _ _
theorem FieldsOfWord.reset : FieldsOfWord.Statement .reset := fields_of_append _ _
theorem FieldsOfWord.rdreg (r : BitVec 8) : FieldsOfWord.Statement (.rdreg r) := fields_of_append _ _
theorem FieldsOfWord.wrcfg (ci : BitVec 8) (val : BitVec 16) : FieldsOfWord.Statement (.wrcfg ci val) := fields_of_append _ _
theorem FieldsOfWord.memrd (sp : BitVec 4) (a : BitVec 20) : FieldsOfWord.Statement (.memrd sp a) := fields_of_append _ _
theorem FieldsOfWord.tpStart : FieldsOfWord.Statement .tpStart := fields_of_append _ _
theorem FieldsOfWord.tpPulse (v : BitVec 24) : FieldsOfWord.Statement (.tpPulse v) := fields_of_append _ _
theorem FieldsOfWord.tpEnd : FieldsOfWord.Statement .tpEnd := fields_of_append _ _
theorem FieldsOfWord.flClear : FieldsOfWord.Statement .flClear := fields_of_append _ _
theorem FieldsOfWord.flPush (v : BitVec 24) : FieldsOfWord.Statement (.flPush v) := fields_of_append _ _
theorem FieldsOfWord.flEst : FieldsOfWord.Statement .flEst := fields_of_append _ _
theorem FieldsOfWord.flFind : FieldsOfWord.Statement .flFind := fields_of_append _ _
theorem FieldsOfWord.flSetpos (p : BitVec 21) : FieldsOfWord.Statement (.flSetpos p) := fields_of_append _ _
theorem FieldsOfWord.flRead (n : BitVec 11) : FieldsOfWord.Statement (.flRead n) := fields_of_append _ _
theorem FieldsOfWord.flHdr : FieldsOfWord.Statement .flHdr := fields_of_append _ _
theorem FieldsOfWord.flData (s : BitVec 2) : FieldsOfWord.Statement (.flData s) := fields_of_append _ _
theorem FieldsOfWord.crcInit : FieldsOfWord.Statement .crcInit := fields_of_append _ _
theorem FieldsOfWord.crcByte (b : BitVec 8) : FieldsOfWord.Statement (.crcByte b) := fields_of_append _ _
theorem FieldsOfWord.crcMark (m : BitVec 8) : FieldsOfWord.Statement (.crcMark m) := fields_of_append _ _
theorem FieldsOfWord.crcCheck (w : BitVec 16) : FieldsOfWord.Statement (.crcCheck w) := fields_of_append _ _
theorem FieldsOfWord.addInit : FieldsOfWord.Statement .addInit := fields_of_append _ _
theorem FieldsOfWord.addByte (b : BitVec 8) : FieldsOfWord.Statement (.addByte b) := fields_of_append _ _
theorem FieldsOfWord.addWord (w : BitVec 16) : FieldsOfWord.Statement (.addWord w) := fields_of_append _ _
theorem FieldsOfWord.addCheck (w : BitVec 16) : FieldsOfWord.Statement (.addCheck w) := fields_of_append _ _

end Sys2Proof.Laws
end

