-- ==== Sys2Proof/Laws/Tape.lean ====
section
/-! SUPPORT. What the TAPE unit's operations can do: one lemma per operation, saying everything it can answer. -/

namespace Sys2Proof.Machine

/-- What the end of a TAPE command can be. -/
theorem finishTape_cases (s : State) (r : Except Stop State) :
    (∃ s', r = .ok s' ∧ finishTape s r = .next (s'.answerTape .ok)) ∨
      (∃ k, r = .error (.fatal k) ∧ finishTape s r = .next (s.failTape k)) ∨
      (∃ f, r = .error (.fault f) ∧ finishTape s r = .fault f) := by
  rcases r with (_ | _) | s'
  · exact .inr (.inl ⟨_, rfl, rfl⟩)
  · exact .inr (.inr ⟨_, rfl, rfl⟩)
  · exact .inl ⟨_, rfl, rfl⟩

/-- What TP_PULSE can do (R69). -/
theorem execTpPulse_cases (v : BitVec 24) (s : State) :
    (v = 0#24 ∧ execTpPulse v s = .next (s.refuse .badarg)) ∨
      (v ≠ 0#24 ∧ (s.tape.phase = .idle ∨ s.tape.phase = .fatal) ∧ execTpPulse v s = .next (s.refuse .seq)) ∨
      (v ≠ 0#24 ∧ s.tape.phase = .done ∧ execTpPulse v s = .next (s.answerTape .ok)) ∨
      (v ≠ 0#24 ∧ s.tape.phase ≠ .idle ∧ s.tape.phase ≠ .fatal ∧ s.tape.phase ≠ .done ∧
        execTpPulse v s = finishTape s (tapeStep v.toNat s)) := by
  by_cases hv : v = 0#24
  · exact .inl ⟨hv, by simp [execTpPulse, hv]⟩
  · cases hp : s.tape.phase <;> simp [execTpPulse, hv, hp]

/-- A TP_PULSE that reaches its phase's step. -/
theorem execTpPulse_step {v : BitVec 24} {s : State} (hv : v ≠ 0#24) (hi : s.tape.phase ≠ .idle)
    (hf : s.tape.phase ≠ .fatal) (hd : s.tape.phase ≠ .done) :
    execTpPulse v s = finishTape s (tapeStep v.toNat s) := by
  rcases execTpPulse_cases v s with ⟨h, _⟩ | ⟨_, h, _⟩ | ⟨_, h, _⟩ | ⟨_, _, _, _, h⟩
  · exact absurd h hv
  · rcases h with h | h <;> contradiction
  · contradiction
  · exact h

/-- A marker check: passed, or warned in lenient mode, or fatal (R77). -/
theorem markerCheck_cases (passed : Bool) (t : TapeRegs) :
    (passed = true ∧ markerCheck passed t = .ok t) ∨
      (passed = false ∧ t.mlenient = true ∧ markerCheck passed t = .ok t.warnMark) ∨
      (passed = false ∧ t.mlenient = false ∧ markerCheck passed t = .error (.fatal .marker)) := by
  cases passed <;> cases h : t.mlenient <;> simp [markerCheck, h]

/-- A marker check that goes on changes no register but TP_WARN. -/
theorem markerCheck_ok {passed : Bool} {t t' : TapeRegs} (h : markerCheck passed t = .ok t') :
    t' = t ∨ t' = t.warnMark := by
  rcases markerCheck_cases passed t with ⟨_, h'⟩ | ⟨_, _, h'⟩ | ⟨_, _, h'⟩ <;> rw [h'] at h <;> cases h <;> simp

@[simp] theorem TapeRegs.warnMark_eq (t : TapeRegs) : t.warnMark = { t with warn := setBit t.warn 2 } := rfl

/-- What a marker step that goes on can answer: the registers of before, perhaps with the warning, one sub-state
further (R76, R77, R78). -/
theorem markerStep_ok {p : Nat} {t t' : TapeRegs} (h : markerStep p t = .ok t') :
    t.msub ≠ .none ∧ (t' = t.advance ∨ t' = t.warnMark.advance) := by
  have lift {passed : Bool} {f : TapeRegs → TapeRegs} (h : (markerCheck passed t).map f = .ok t') :
      t' = f t ∨ t' = f t.warnMark := by
    cases hc : markerCheck passed t with
    | error e => rw [hc] at h; cases h
    | ok u =>
      rw [hc] at h; cases h
      rcases markerCheck_ok hc with rfl | rfl <;> simp
  cases hm : t.msub <;> simp only [markerStep, hm] at h
  case none => cases h
  case lead => exact ⟨by simp, by rcases lift h with rfl | rfl <;> simp [TapeRegs.advance, hm]⟩
  case final => exact ⟨by simp, by rcases lift h with rfl | rfl <;> simp [TapeRegs.advance, hm]⟩
  case sync1 => exact ⟨by simp, by rcases lift h with rfl | rfl <;> simp [TapeRegs.advance, hm]⟩
  case mid =>
    cases h
    refine ⟨by simp, .inl ?_⟩
    simp only [TapeRegs.advance, hm]
    have : t.mcnt - 1#16 = 0#16 ↔ t.mcnt = 1#16 := by
      constructor
      · intro h; have := congrArg (· + 1#16) h; simpa using this
      · rintro h; rw [h]; rfl
    simp only [this]
  case sync0 =>
    refine ⟨by simp, ?_⟩
    rcases lift h with rfl | rfl
    · left; cases hp : t.phase <;>
        simp [TapeRegs.advance, hm, markerComplete, hp, beginSegment, TapeRegs.enterSegment]
    · right; cases hp : t.phase <;>
        simp [TapeRegs.advance, hm, markerComplete, hp, beginSegment, TapeRegs.enterSegment]

/-- A marker step stops only with a violation in strict mode, or where there is no sub-state. -/
theorem markerStep_error {p : Nat} {t : TapeRegs} {r : Stop} (h : markerStep p t = .error r) :
    (r = .fatal .marker ∧ t.mlenient = false) ∨ (r = .fault .noMarkerStep ∧ t.msub = .none) := by
  have lift {passed : Bool} {f : TapeRegs → TapeRegs} (h : (markerCheck passed t).map f = .error r) :
      r = .fatal .marker ∧ t.mlenient = false := by
    rcases markerCheck_cases passed t with ⟨_, h'⟩ | ⟨_, _, h'⟩ | ⟨_, hl, h'⟩ <;> rw [h'] at h <;> cases h
    exact ⟨rfl, hl⟩
  cases hm : t.msub <;> simp only [markerStep, hm] at h
  case none => cases h; exact .inr ⟨rfl, rfl⟩
  case mid => cases h
  all_goals exact .inl (lift h)

/-- What the pilot step can answer (R71, R72). -/
theorem findPilotStep_cases (p : Nat) (t : TapeRegs) :
    (200 ≤ t.pn.toNat ∧ pilotLong t p = true ∧ findPilotStep p t = .ok { t with
        l0h := BitVec.ofNat 32 (rhe (100 * t.ps.toNat) t.pn.toNat)
        cut := BitVec.ofNat 32 (rhe (rhe (100 * t.ps.toNat) t.pn.toNat * 16) 1000)
        phase := .pilotFound }) ∨
      (¬(200 ≤ t.pn.toNat ∧ pilotLong t p = true) ∧ t.pn.toNat = 4294967295 ∧
        findPilotStep p t = .error (.fatal .calibration)) ∨
      (¬(200 ≤ t.pn.toNat ∧ pilotLong t p = true) ∧ t.pn.toNat ≠ 4294967295 ∧
        findPilotStep p t = .ok { t with ps := t.ps + BitVec.ofNat 64 p, pn := t.pn + 1#32 }) := by
  unfold findPilotStep
  split
  · exact .inl ⟨‹_ ∧ _›.1, ‹_ ∧ _›.2, rfl⟩
  · split
    · exact .inr (.inl ⟨‹_›, ‹_›, rfl⟩)
    · exact .inr (.inr ⟨‹_›, ‹_›, rfl⟩)

/-- An impulse of 24 bits that ends the pilot leaves the exact roundings in TP_L0H and TP_CUT, in every state (R71). -/
theorem findPilotStep_exact {p : Nat} {t : TapeRegs} (hn : 200 ≤ t.pn.toNat) (hl : pilotLong t p = true)
    (hp : p < 16777216) :
    (BitVec.ofNat 32 (rhe (100 * t.ps.toNat) t.pn.toNat)).toNat = rhe (100 * t.ps.toNat) t.pn.toNat ∧
      (BitVec.ofNat 32 (rhe (rhe (100 * t.ps.toNat) t.pn.toNat * 16) 1000)).toNat =
        rhe (rhe (100 * t.ps.toNat) t.pn.toNat * 16) 1000 := by
  have hr : ∀ a b : Nat, rhe a b ≤ a / b + 1 := fun a b => by unfold rhe; split_ifs <;> omega
  have h1 : 7 * t.ps.toNat < 2 * t.pn.toNat * p := by simpa [pilotLong] using hl
  have h2 : 2 * t.pn.toNat * p ≤ 2 * t.pn.toNat * 16777216 := Nat.mul_le_mul_left _ hp.le
  have h3 : 100 * t.ps.toNat / t.pn.toNat < 500000000 := by rw [Nat.div_lt_iff_lt_mul (by omega)]; omega
  have h4 := hr (100 * t.ps.toNat) t.pn.toNat
  have h5 := hr (rhe (100 * t.ps.toNat) t.pn.toNat * 16) 1000
  constructor <;> rw [BitVec.toNat_ofNat, Nat.mod_eq_of_lt] <;> omega

/-- Storing a byte, by phase (R84). -/
theorem storeByte_cases (b : BitVec 8) (s : State) :
    (s.tape.phase = .readHeader ∧ storeByte b s = storeHeader b s) ∨
      (s.tape.phase = .readData ∧ storeByte b s = storeBody b s) ∨
      (s.tape.phase = .cksum ∧ storeByte b s = storeChecksum b s) ∨
      (s.tape.phase.isSegment = false ∧ storeByte b s = .ok s) := by
  unfold storeByte
  cases s.tape.phase <;> simp [Phase.isSegment]

/-- What storing a byte that goes on can answer (R84). -/
theorem storeByte_ok {b : BitVec 8} {s s' : State} (h : storeByte b s = .ok s') :
    (s.tape.phase = .readHeader ∧ s.tape.hcnt.toNat < 20 ∧
        s' = { s with hb := Memory.write s.hb s.tape.hcnt.toNat b, tape := { s.tape with hcnt := s.tape.hcnt + 1#5 } }) ∨
      (s.tape.phase = .readData ∧ s.tape.bcnt.toNat < 65536 ∧
        s' = { s with
          tb := Memory.write s.tb s.tape.bcnt.toNat b
          tape := { s.tape with bcnt := s.tape.bcnt + 1#17, sum := eacAdd s.tape.sum (b.setWidth 16) } }) ∨
      (s.tape.phase = .cksum ∧ ∃ v, putByte s.tape.ckread s.tape.ccnt.toNat b = some v ∧
        s' = { s with tape := { s.tape with ckread := v, ccnt := s.tape.ccnt + 1#2 } }) ∨
      (s.tape.phase.isSegment = false ∧ s' = s) := by
  rcases storeByte_cases b s with ⟨hp, h'⟩ | ⟨hp, h'⟩ | ⟨hp, h'⟩ | ⟨hp, h'⟩ <;> rw [h'] at h
  · by_cases hs : 20 ≤ s.tape.hcnt.toNat <;> simp only [storeHeader, State.writeHb, State.size, hs, if_true, if_false] at h <;> cases h
    exact .inl ⟨hp, by omega, rfl⟩
  · by_cases hs : 65536 ≤ s.tape.bcnt.toNat <;> simp only [storeBody, State.writeTb, State.size, hs, if_true, if_false] at h <;>
      cases h
    exact .inr (.inl ⟨hp, by omega, rfl⟩)
  · cases hv : putByte s.tape.ckread s.tape.ccnt.toNat b <;> simp only [storeChecksum, hv] at h <;> cases h
    exact .inr (.inr (.inl ⟨hp, _, rfl, rfl⟩))
  · cases h; exact .inr (.inr (.inr ⟨hp, rfl⟩))

/-- Storing a byte stops only where there is no element, or no byte, to store to. -/
theorem storeByte_error {b : BitVec 8} {s : State} {r : Stop} (h : storeByte b s = .error r) :
    (s.tape.phase = .readHeader ∧ 20 ≤ s.tape.hcnt.toNat) ∨ (s.tape.phase = .readData ∧ 65536 ≤ s.tape.bcnt.toNat) ∨
      (s.tape.phase = .cksum ∧ 2 ≤ s.tape.ccnt.toNat) := by
  rcases storeByte_cases b s with ⟨hp, h'⟩ | ⟨hp, h'⟩ | ⟨hp, h'⟩ | ⟨hp, h'⟩ <;> rw [h'] at h
  · by_cases hs : 20 ≤ s.tape.hcnt.toNat <;> simp only [storeHeader, State.writeHb, State.size, hs, if_true, if_false] at h <;> cases h
    exact .inl ⟨hp, hs⟩
  · by_cases hs : 65536 ≤ s.tape.bcnt.toNat <;> simp only [storeBody, State.writeTb, State.size, hs, if_true, if_false] at h <;>
      cases h
    exact .inr (.inl ⟨hp, hs⟩)
  · refine .inr (.inr ⟨hp, ?_⟩)
    by_contra hc
    have : s.tape.ccnt.toNat = 0 ∨ s.tape.ccnt.toNat = 1 := by omega
    rcases this with h0 | h0 <;> simp [storeChecksum, h0, putByte] at h
  · cases h

/-- A header byte that is written is read (R85). -/
theorem State.headerByte_eq {s : State} {a : Nat} {b : BitVec 8} (ha : a < 20) (h : Memory.read s.hb a = some b) :
    s.headerByte a = .ok b := by
  have : ¬(20 ≤ a) := by omega
  simp [State.headerByte, State.memRead, State.size, State.element, this, h, BitVec.setWidth_setWidth_of_le]

/-- A header byte that is read is written. -/
theorem State.headerByte_ok {s : State} {a : Nat} {b : BitVec 8} (h : s.headerByte a = .ok b) :
    a < 20 ∧ Memory.read s.hb a = some b := by
  simp only [State.headerByte] at h
  rcases s.memRead_cases .hb a with ⟨_, hr⟩ | ⟨_, _, hr⟩ | ⟨v, ha, he, hr⟩ <;> rw [hr] at h
  · cases h
  · cases h
  · simp only [Except.ok.injEq] at h
    simp only [State.element, Option.map_eq_some_iff] at he
    obtain ⟨u, hu, rfl⟩ := he
    exact ⟨ha, by rw [hu, ← h]; simp [BitVec.setWidth_setWidth_of_le]⟩

/-- The end of a segment, by phase (R85). -/
theorem segmentComplete_cases (s : State) :
    (s.tape.phase = .readHeader ∧ segmentComplete s = unpackHeader s) ∨
      (s.tape.phase = .readData ∧
        segmentComplete s = .ok { s with tape := beginSegment 2#16 { s.tape with phase := .cksum } }) ∨
      (s.tape.phase = .cksum ∧ segmentComplete s = .ok { s with tape := checksumDone s.cfg s.tape }) ∨
      (s.tape.phase.isSegment = false ∧ segmentComplete s = .ok s) := by
  unfold segmentComplete
  cases s.tape.phase <;> simp [Phase.isSegment]

/-- What the end of a segment that goes on can answer (R85). -/
theorem segmentComplete_ok {s s' : State} (h : segmentComplete s = .ok s') :
    (s.tape.phase = .readHeader ∧ ∃ b0 b1 b2 b3,
        Memory.read s.hb 0 = some b0 ∧ Memory.read s.hb 1 = some b1 ∧ Memory.read s.hb 2 = some b2 ∧
          Memory.read s.hb 3 = some b3 ∧ s' = { s with tape := headerDone b0 b1 b2 b3 s.cfg s.tape }) ∨
      (s.tape.phase = .readData ∧ s' = { s with tape := beginSegment 2#16 { s.tape with phase := .cksum } }) ∨
      (s.tape.phase = .cksum ∧ s' = { s with tape := checksumDone s.cfg s.tape }) ∨
      (s.tape.phase.isSegment = false ∧ s' = s) := by
  rcases segmentComplete_cases s with ⟨hp, h'⟩ | ⟨hp, h'⟩ | ⟨hp, h'⟩ | ⟨hp, h'⟩ <;> rw [h'] at h
  · simp only [unpackHeader, bind, Except.bind] at h
    split at h
    · cases h
    rename_i b0 h0
    split at h
    · cases h
    rename_i b1 h1
    split at h
    · cases h
    rename_i b2 h2
    split at h
    · cases h
    rename_i b3 h3
    cases h
    exact .inl ⟨hp, b0, b1, b2, b3, (State.headerByte_ok h0).2, (State.headerByte_ok h1).2,
      (State.headerByte_ok h2).2, (State.headerByte_ok h3).2, rfl⟩
  · cases h; exact .inr (.inl ⟨hp, rfl⟩)
  · cases h; exact .inr (.inr (.inl ⟨hp, rfl⟩))
  · cases h; exact .inr (.inr (.inr ⟨hp, rfl⟩))

/-- The header segment is complete with its first four bytes written. -/
theorem segmentComplete_header {s : State} {b0 b1 b2 b3 : BitVec 8} (hp : s.tape.phase = .readHeader)
    (h0 : Memory.read s.hb 0 = some b0) (h1 : Memory.read s.hb 1 = some b1) (h2 : Memory.read s.hb 2 = some b2)
    (h3 : Memory.read s.hb 3 = some b3) :
    segmentComplete s = .ok { s with tape := headerDone b0 b1 b2 b3 s.cfg s.tape } := by
  simp [segmentComplete, unpackHeader, hp, State.headerByte_eq (by decide : (0 : Nat) < 20) h0,
    State.headerByte_eq (by decide : (1 : Nat) < 20) h1, State.headerByte_eq (by decide : (2 : Nat) < 20) h2,
    State.headerByte_eq (by decide : (3 : Nat) < 20) h3, bind, Except.bind]

/-- What the data-bit step can answer (R82). -/
theorem dataBitStep_cases (p : Nat) (s : State) :
    (s.tape.bitcnt ≠ 7#3 ∧ dataBitStep p s = .ok { s with tape := { s.tape with
        acc := shiftIn s.tape.acc (isOne s.tape p), bitcnt := s.tape.bitcnt + 1#3, syncph := true } }) ∨
      (s.tape.bitcnt = 7#3 ∧ dataBitStep p s =
        (storeByte (shiftIn s.tape.acc (isOne s.tape p)) s).map fun s =>
          { s with tape := { s.tape with rem := s.tape.rem - 1#16, acc := 0#8, bitcnt := 0#3, syncph := true } }) := by
  have : s.tape.bitcnt.toNat + 1 = 8 ↔ s.tape.bitcnt = 7#3 := by
    rw [← BitVec.toNat_inj]; simp
  unfold dataBitStep
  split
  · exact .inr ⟨this.1 ‹_›, rfl⟩
  · exact .inl ⟨fun h => ‹¬_› (this.2 h), rfl⟩

/-- What the sync-bit step can answer (R83). -/
theorem syncBitStep_cases (p : Nat) (s : State) :
    (s.tape.cut.toNat < p ∧ syncBitStep p s = .error (.fatal .protocol)) ∨
      (p ≤ s.tape.cut.toNat ∧ s.tape.rem ≠ 0#16 ∧
        syncBitStep p s = .ok { s with tape := { s.tape with syncph := false } }) ∨
      (p ≤ s.tape.cut.toNat ∧ s.tape.rem = 0#16 ∧
        syncBitStep p s = segmentComplete { s with tape := { s.tape with syncph := false } }) := by
  by_cases hz : p ≤ s.tape.cut.toNat
  · by_cases hr : s.tape.rem = 0#16 <;> simp [syncBitStep, isZero, hz, hr]
  · left; exact ⟨by omega, by simp [syncBitStep, isZero, hz]⟩

/-- What the read_bit step can answer (R80, R81). -/
theorem readBitStep_cases (p : Nat) (s : State) :
    (guardHit s.tape p = true ∧ readBitStep p s = .error (.fatal .bitTiming)) ∨
      (guardHit s.tape p = false ∧ s.tape.syncph = false ∧ readBitStep p s = dataBitStep p s) ∨
      (guardHit s.tape p = false ∧ s.tape.syncph = true ∧ readBitStep p s = syncBitStep p s) := by
  cases hg : guardHit s.tape p <;> cases hs : s.tape.syncph <;> simp [readBitStep, hg, hs]

/-- What TP_END can do (R70). -/
theorem execTpEnd_cases (s : State) :
    ((s.tape.phase = .idle ∨ s.tape.phase = .fatal) ∧ execTpEnd s = .next (s.refuse .seq)) ∨
      (s.tape.phase = .done ∧ execTpEnd s = .next (s.answerTape .ok)) ∨
      (s.tape.phase = .findPilot ∧ execTpEnd s = .next (s.failTape .calibration)) ∨
      (s.tape.phase ≠ .idle ∧ s.tape.phase ≠ .fatal ∧ s.tape.phase ≠ .done ∧ s.tape.phase ≠ .findPilot ∧
        execTpEnd s = .next (s.failTape .truncated)) := by
  cases hp : s.tape.phase <;> simp [execTpEnd, hp]

end Sys2Proof.Machine
end

