-- ==== Sys2Proof/Laws/Steps.lean ====
section
/-! SUPPORT. What a command can do when it leads to a next state: everything TP_PULSE and the decode commands do, said
once, from the lemmas of their steps. -/

namespace Sys2Proof.Machine

/-- Everything TP_PULSE can do (R69). -/
theorem execTpPulse_next (v : BitVec 24) (s s' : State) (h : exec (.tpPulse v) s = .next s') :
    (s' = s.refuse .badarg ∧ v = 0#24) ∨ (s' = s.refuse .seq ∧ v ≠ 0#24) ∨
    (s' = s.answerTape .ok ∧ s.tape.phase = .done) ∨
    (v ≠ 0#24 ∧ s.tape.phase ≠ .idle ∧ s.tape.phase ≠ .fatal ∧ s.tape.phase ≠ .done ∧
      ((∃ t, tapeStep v.toNat s = .ok t ∧ s' = t.answerTape .ok) ∨
        ∃ k, tapeStep v.toNat s = .error (.fatal k) ∧ s' = s.failTape k)) := by
  rcases execTpPulse_cases v s with ⟨h1, h2⟩ | ⟨h1, h3, h2⟩ | ⟨h1, h3, h2⟩ | ⟨h1, h3, h4, h5, h2⟩
  · left; rw [exec, h2] at h; cases h; exact ⟨rfl, h1⟩
  · right; left; rw [exec, h2] at h; cases h; exact ⟨rfl, h1⟩
  · right; right; left; rw [exec, h2] at h; cases h; exact ⟨rfl, h3⟩
  · right; right; right
    refine ⟨h1, h3, h4, h5, ?_⟩
    rw [exec, h2] at h
    rcases finishTape_cases s (tapeStep v.toNat s) with ⟨t, ht, hf⟩ | ⟨k, ht, hf⟩ | ⟨f, ht, hf⟩ <;> rw [hf] at h <;> cases h
    · exact .inl ⟨t, ht, rfl⟩
    · exact .inr ⟨k, ht, rfl⟩

/-- Everything the step of an impulse can do that raises no error (R71 to R85). -/
theorem tapeStep_ok {p : Nat} {s t : State} (h : tapeStep p s = .ok t) :
    ((s.tape.phase = .idle ∨ s.tape.phase = .done ∨ s.tape.phase = .fatal) ∧ t = s) ∨
    (s.tape.phase = .findPilot ∧
      ((200 ≤ s.tape.pn.toNat ∧ pilotLong s.tape p = true ∧ t = { s with tape := { s.tape with
          l0h := BitVec.ofNat 32 (rhe (100 * s.tape.ps.toNat) s.tape.pn.toNat)
          cut := BitVec.ofNat 32 (rhe (rhe (100 * s.tape.ps.toNat) s.tape.pn.toNat * 16) 1000)
          phase := .pilotFound } }) ∨
        (s.tape.pn.toNat ≠ 4294967295 ∧ t = { s with tape := { s.tape with
          ps := s.tape.ps + BitVec.ofNat 64 p, pn := s.tape.pn + 1#32 } }))) ∨
    (s.tape.phase = .pilotFound ∧ t = { s with tape := pilotFoundStep p s.tape }) ∨
    (s.tape.phase = .pilotFound2 ∧ t = { s with tape := pilotFound2Step p s.cfg s.tape }) ∨
    (s.tape.phase.isMarker = true ∧ s.tape.msub ≠ .none ∧
      (t = { s with tape := s.tape.advance } ∨ t = { s with tape := s.tape.warnMark.advance })) ∨
    (s.tape.phase.isSegment = true ∧ s.tape.syncph = false ∧ s.tape.bitcnt ≠ 7#3 ∧
      t = { s with tape := { s.tape with
        acc := shiftIn s.tape.acc (isOne s.tape p), bitcnt := s.tape.bitcnt + 1#3, syncph := true } }) ∨
    (s.tape.phase.isSegment = true ∧ s.tape.syncph = false ∧ s.tape.bitcnt = 7#3 ∧
      ∃ u, storeByte (shiftIn s.tape.acc (isOne s.tape p)) s = .ok u ∧
        t = { u with tape := { u.tape with rem := u.tape.rem - 1#16, acc := 0#8, bitcnt := 0#3, syncph := true } }) ∨
    (s.tape.phase.isSegment = true ∧ s.tape.syncph = true ∧ s.tape.rem ≠ 0#16 ∧
      t = { s with tape := { s.tape with syncph := false } }) ∨
    (s.tape.phase.isSegment = true ∧ s.tape.syncph = true ∧ s.tape.rem = 0#16 ∧
      segmentComplete { s with tape := { s.tape with syncph := false } } = .ok t) := by
  have onTape {r : Except Stop TapeRegs} (h : s.onTape r = .ok t) : ∃ u, r = .ok u ∧ t = { s with tape := u } := by
    cases r with
    | error e => cases h
    | ok u => cases h; exact ⟨u, rfl, rfl⟩
  have rb (h : readBitStep p s = .ok t) :
      (s.tape.syncph = false ∧ s.tape.bitcnt ≠ 7#3 ∧ t = { s with tape := { s.tape with
        acc := shiftIn s.tape.acc (isOne s.tape p), bitcnt := s.tape.bitcnt + 1#3, syncph := true } }) ∨
    (s.tape.syncph = false ∧ s.tape.bitcnt = 7#3 ∧
      ∃ u, storeByte (shiftIn s.tape.acc (isOne s.tape p)) s = .ok u ∧
        t = { u with tape := { u.tape with rem := u.tape.rem - 1#16, acc := 0#8, bitcnt := 0#3, syncph := true } }) ∨
    (s.tape.syncph = true ∧ s.tape.rem ≠ 0#16 ∧ t = { s with tape := { s.tape with syncph := false } }) ∨
    (s.tape.syncph = true ∧ s.tape.rem = 0#16 ∧
      segmentComplete { s with tape := { s.tape with syncph := false } } = .ok t) := by
    rcases readBitStep_cases p s with ⟨_, h1⟩ | ⟨_, hs, h1⟩ | ⟨_, hs, h1⟩ <;> rw [h1] at h
    · cases h
    · rcases dataBitStep_cases p s with ⟨h2, h3⟩ | ⟨h2, h3⟩ <;> rw [h3] at h
      · cases h; exact .inl ⟨hs, h2, rfl⟩
      · cases hu : storeByte (shiftIn s.tape.acc (isOne s.tape p)) s with
        | error e => rw [hu] at h; cases h
        | ok u => rw [hu] at h; cases h; exact .inr (.inl ⟨hs, h2, u, rfl, rfl⟩)
    · rcases syncBitStep_cases p s with ⟨h2, h3⟩ | ⟨h2, h4, h3⟩ | ⟨h2, h4, h3⟩ <;> rw [h3] at h
      · cases h
      · cases h; exact .inr (.inr (.inl ⟨hs, h4, rfl⟩))
      · exact .inr (.inr (.inr ⟨hs, h4, h⟩))
  cases hp : s.tape.phase <;> simp only [tapeStep, hp] at h
  case idle | done | fatal => cases h; simp
  case findPilot =>
    obtain ⟨u, hu, rfl⟩ := onTape h
    rcases findPilotStep_cases p s.tape with ⟨h1, h2, h3⟩ | ⟨h1, h2, h3⟩ | ⟨h1, h2, h3⟩ <;> rw [h3] at hu <;> cases hu
    · exact .inr (.inl ⟨rfl, .inl ⟨h1, h2, rfl⟩⟩)
    · exact .inr (.inl ⟨rfl, .inr ⟨h2, rfl⟩⟩)
  case pilotFound => cases h; simp
  case pilotFound2 => cases h; simp
  case headerMarker | bodyMarker | endTrailer =>
    obtain ⟨u, hu, rfl⟩ := onTape h
    obtain ⟨h1, h2⟩ := markerStep_ok hu
    refine .inr (.inr (.inr (.inr (.inl ⟨rfl, h1, ?_⟩))))
    rcases h2 with rfl | rfl <;> simp
  case readHeader | readData | cksum =>
    have := rb h
    simp only [Phase.isSegment, reduceCtorEq, false_and, or_false, false_or, true_and, Phase.isMarker]
    exact this

/-- A marker step raises a fatal error only for a failed check in strict mode (R76, R77). -/
theorem markerStep_fatal {p : Nat} {t : TapeRegs} {k} (h : markerStep p t = .error (.fatal k)) :
    k = .marker ∧ t.mlenient = false ∧ t.CheckFails p := by
  have lift {passed : Bool} {f : TapeRegs → TapeRegs} (h : (markerCheck passed t).map f = .error (.fatal k)) :
      k = .marker ∧ t.mlenient = false ∧ passed = false := by
    rcases markerCheck_cases passed t with ⟨_, h'⟩ | ⟨_, _, h'⟩ | ⟨hq, hl, h'⟩ <;> rw [h'] at h <;> cases h
    exact ⟨rfl, hl, hq⟩
  cases hm : t.msub <;> simp only [markerStep, hm] at h <;> simp only [TapeRegs.CheckFails, hm]
  case none => cases h
  case mid => cases h
  all_goals
    obtain ⟨h1, h2, h3⟩ := lift h
    refine ⟨h1, h2, ?_⟩
    simp [leadOk, longOk, isOne, isZero] at h3
    omega

/-- Why the step of an impulse raises a fatal error (R72, R77, R81, R83). -/
theorem tapeStep_fatal {p : Nat} {s : State} {k} (h : tapeStep p s = .error (.fatal k)) :
    (k = .calibration ∧ s.tape.phase = .findPilot ∧ s.tape.pn = 0xFFFFFFFF#32) ∨
    (k = .marker ∧ s.tape.phase.isMarker = true ∧ s.tape.mlenient = false ∧ s.tape.CheckFails p) ∨
    (k = .bitTiming ∧ s.tape.phase.isSegment = true ∧ 7 * s.tape.l0h.toNat < 250 * p) ∨
    (k = .protocol ∧ s.tape.phase.isSegment = true ∧ s.tape.syncph = true ∧ s.tape.cut.toNat < p) := by
  have onTape {r : Except Stop TapeRegs} {e} (h : s.onTape r = .error e) : r = .error e := by
    cases r with
    | error e => cases h; rfl
    | ok u => cases h
  have rb (h : readBitStep p s = .error (.fatal k)) :
      (k = .bitTiming ∧ 7 * s.tape.l0h.toNat < 250 * p) ∨
        (k = .protocol ∧ s.tape.syncph = true ∧ s.tape.cut.toNat < p) := by
    rcases readBitStep_cases p s with ⟨hg, h1⟩ | ⟨_, hs, h1⟩ | ⟨_, hs, h1⟩ <;> rw [h1] at h
    · cases h; exact .inl ⟨rfl, by simpa [guardHit] using hg⟩
    · exfalso
      rcases dataBitStep_cases p s with ⟨h2, h3⟩ | ⟨h2, h3⟩ <;> rw [h3] at h
      · cases h
      · cases hu : storeByte (shiftIn s.tape.acc (isOne s.tape p)) s with
        | error e =>
          rw [hu] at h; cases h
          unfold storeByte storeHeader storeBody storeChecksum State.writeHb State.writeTb at hu
          repeat' (first | split at hu | cases hu)
        | ok u => rw [hu] at h; cases h
    · rcases syncBitStep_cases p s with ⟨h2, h3⟩ | ⟨h2, h4, h3⟩ | ⟨h2, h4, h3⟩ <;> rw [h3] at h
      · cases h; exact .inr ⟨rfl, hs, h2⟩
      · cases h
      · exfalso
        have hb : ∀ (s : State) a e, s.headerByte a = .error e → ∃ f, e = .fault f := by
          intro s a e he; unfold State.headerByte at he; split at he <;> cases he; exact ⟨_, rfl⟩
        unfold segmentComplete unpackHeader at h
        split at h
        · simp only [bind, Except.bind] at h
          split at h
          · rename_i he; cases h; obtain ⟨f, hf⟩ := hb _ _ _ he; cases hf
          split at h
          · rename_i he; cases h; obtain ⟨f, hf⟩ := hb _ _ _ he; cases hf
          split at h
          · rename_i he; cases h; obtain ⟨f, hf⟩ := hb _ _ _ he; cases hf
          split at h
          · rename_i he; cases h; obtain ⟨f, hf⟩ := hb _ _ _ he; cases hf
          · cases h
        all_goals cases h
  cases hp : s.tape.phase <;> simp only [tapeStep, hp] at h
  case idle | done | fatal | pilotFound | pilotFound2 => cases h
  case findPilot =>
    have hu := onTape h
    rcases findPilotStep_cases p s.tape with ⟨h1, h2, h3⟩ | ⟨h1, h2, h3⟩ | ⟨h1, h2, h3⟩ <;> rw [h3] at hu <;> cases hu
    exact .inl ⟨rfl, rfl, BitVec.eq_of_toNat_eq h2⟩
  case headerMarker | bodyMarker | endTrailer =>
    obtain ⟨h1, h2, h3⟩ := markerStep_fatal (onTape h)
    exact .inr (.inl ⟨h1, rfl, h2, h3⟩)
  case readHeader | readData | cksum =>
    rcases rb h with ⟨h1, h2⟩ | ⟨h1, h2, h3⟩
    · exact .inr (.inr (.inl ⟨h1, rfl, h2⟩))
    · exact .inr (.inr (.inr ⟨h1, rfl, h2, h3⟩))

/-- TP_PULSE in a marker phase runs the marker step (R69). -/
theorem exec_tpPulse_marker {v : BitVec 24} {s : State} (hv : v ≠ 0#24) (hp : s.tape.phase.isMarker = true) :
    exec (.tpPulse v) s = finishTape s (s.onTape (markerStep v.toNat s.tape)) := by
  cases h : s.tape.phase <;> simp [h, Phase.isMarker] at hp <;>
    (rw [exec, execTpPulse_step hv (by simp [h]) (by simp [h]) (by simp [h])]; simp [tapeStep, h])

/-- TP_PULSE in a read_bit phase runs the read_bit step (R69). -/
theorem exec_tpPulse_segment {v : BitVec 24} {s : State} (hv : v ≠ 0#24) (hp : s.tape.phase.isSegment = true) :
    exec (.tpPulse v) s = finishTape s (readBitStep v.toNat s) := by
  cases h : s.tape.phase <;> simp [h, Phase.isSegment] at hp <;>
    (rw [exec, execTpPulse_step hv (by simp [h]) (by simp [h]) (by simp [h])]; simp [tapeStep, h])

/-- Everything a decode command can do that leads to a next state (R91, R101, R102). -/
theorem State.runDecode_next {s s' : State} {n : Nat} {fin : MfmOut → FloppyRegs → FloppyRegs}
    (h : s.runDecode n fin = .next s') :
    (s' = s.refuse .seq ∧ s.floppy.mayDecode = false) ∨
    (s.floppy.mayDecode = true ∧ s.decodeField n = .error (.fatal .bitTiming) ∧ s' = s.failFloppy .bitTiming) ∨
    (s.floppy.mayDecode = true ∧ ∃ o, s.decodeField n = .ok o ∧
      s' = { s.writeField o with floppy := fin o (s.writeField o).floppy }.respond .ok
          (zext (fin o (s.writeField o).floppy).fstat)) := by
  rcases s.runDecode_cases n fin with ⟨h1, h2⟩ | ⟨h1, h3, h2⟩ | ⟨h1, f, h3, h2⟩ | ⟨h1, o, h3, h2⟩ <;> rw [h2] at h <;> cases h
  · exact .inl ⟨rfl, h1⟩
  · exact .inr (.inl ⟨h1, h3, rfl⟩)
  · exact .inr (.inr ⟨h1, o, h3, rfl⟩)

end Sys2Proof.Machine
end

