-- ==== Sys2Proof/Laws/Sums.lean ====
section
/-! SUPPORT. The checksum functions are left folds (43_checksum.md R113, R121). -/

namespace Sys2Proof.Machine

@[simp] theorem crcSeq_nil (c : BitVec 16) : crcSeq c [] = c := rfl

@[simp] theorem crcSeq_cons (c : BitVec 16) (b : BitVec 8) (bs : List (BitVec 8)) :
    crcSeq c (b :: bs) = crcSeq (crcByte c b) bs := rfl

theorem crcSeq_append (c : BitVec 16) (xs ys : List (BitVec 8)) :
    crcSeq c (xs ++ ys) = crcSeq (crcSeq c xs) ys := by
  induction xs generalizing c with
  | nil => rfl
  | cons x xs ih => exact ih _

@[simp] theorem eacSeq_nil (s : BitVec 16) : eacSeq s [] = s := rfl

@[simp] theorem eacSeq_cons (s : BitVec 16) (b : BitVec 8) (bs : List (BitVec 8)) :
    eacSeq s (b :: bs) = eacSeq (eacAdd s (b.setWidth 16)) bs := rfl

theorem eacSeq_append (s : BitVec 16) (xs ys : List (BitVec 8)) :
    eacSeq s (xs ++ ys) = eacSeq (eacSeq s xs) ys := by
  induction xs generalizing s with
  | nil => rfl
  | cons x xs ih => exact ih _

/-- The end-around-carry sum as a number: the exact sum, less 65535 where it exceeds 65535 (R120). -/
theorem eacAdd_toNat (s v : BitVec 16) :
    (eacAdd s v).toNat = if 0xFFFF < s.toNat + v.toNat then s.toNat + v.toNat - 0xFFFF else s.toNat + v.toNat := by
  have hs := s.isLt
  have hv := v.isLt
  unfold eacAdd
  split
  · rw [BitVec.toNat_ofNat]; omega
  · rw [BitVec.toNat_ofNat]; omega

/-- A step of the CRC undoes to its operand: two values that shift to the same value are equal. -/
theorem crcShift_injective {c d : BitVec 16} (h : crcShift c = crcShift d) : c = d := by
  have key : ∀ k, (hk : k < 16) → (crcShift c).getLsbD k = (crcShift d).getLsbD k := fun k _ => by rw [h]
  have bit (c : BitVec 16) (k : Nat) (hk : k < 16) : (crcShift c).getLsbD k =
      ((decide (0 < k) && c.getLsbD (k - 1)) ^^ (c.getLsbD 15 && (0x1021#16).getLsbD k)) := by
    unfold crcShift
    split <;> rename_i h15
    · simp only [BitVec.getLsbD_xor, BitVec.getLsbD_shiftLeft, h15, hk]
      cases k <;> simp
    · simp only [Bool.not_eq_true] at h15
      simp only [BitVec.getLsbD_shiftLeft, h15, hk]
      cases k <;> simp
  have h15 : c.getLsbD 15 = d.getLsbD 15 := by
    have := key 0 (by omega)
    rw [bit c 0 (by omega), bit d 0 (by omega)] at this
    simpa using this
  apply BitVec.eq_of_getLsbD_eq
  intro i hi
  by_cases h : i = 15
  · subst h; exact h15
  · have := key (i + 1) (by omega)
    rw [bit c _ (by omega), bit d _ (by omega), h15] at this
    simpa using this

theorem crcShifts_injective (n : Nat) {c d : BitVec 16} (h : crcShifts n c = crcShifts n d) : c = d := by
  induction n generalizing c d with
  | zero => exact h
  | succ n ih => exact crcShift_injective (ih h)

end Sys2Proof.Machine
end

