-- ==== Sys2Proof/Tests/Slice0.lean ====
section
/-! SUPPORT. The model's own tests: a term that each check of WellFormed refuses, a word of every command written out
from its encoding, examples of the spec's rules and of 95_test_vectors.md, each on one step, and, for every statement
with hypotheses, a state and operands that meet them. Every expected value is the spec's or is counted by hand. -/

namespace Sys2Proof.Tests

open Sys2Proof.Machine

/-! ### Terms that WellFormed refuses -/

theorem test_illformed_rdreg : Instr.wellFormed (.rdreg 0x0F#8) = false ∧ Instr.wellFormed (.rdreg 0x28#8) = false ∧
    Instr.wellFormed (.rdreg 0x44#8) = false ∧ Instr.wellFormed (.rdreg 0x51#8) = false ∧
    Instr.wellFormed (.rdreg 0x77#8) = false := by decide
theorem test_illformed_wrcfg : Instr.wellFormed (.wrcfg 7#8 0#16) = false ∧ Instr.wellFormed (.wrcfg 0#8 0#16) = false ∧
    Instr.wellFormed (.wrcfg 1#8 0#16) = false ∧ Instr.wellFormed (.wrcfg 5#8 2#16) = false := by decide
theorem test_illformed_memrd : Instr.wellFormed (.memrd 5#4 0#20) = false := by decide
theorem test_illformed_tpPulse : Instr.wellFormed (.tpPulse 0#24) = false := by decide
theorem test_illformed_flPush : Instr.wellFormed (.flPush 0#24) = false := by decide
theorem test_illformed_flRead : Instr.wellFormed (.flRead 0#11) = false ∧ Instr.wellFormed (.flRead 1031#11) = false := by
  decide
theorem test_illformed_flData : Instr.wellFormed (.flData 0#2) = false := by decide

/-! ### Decoding: one word of every command, from R53 and R55 and the encodings in the commands' rules -/

theorem test_decode_nop : decode 0x00000000#32 = .ok .nop := by decide
theorem test_decode_reset : decode 0x01000000#32 = .ok .reset := by decide
theorem test_decode_rdreg : decode 0x02000050#32 = .ok (.rdreg 0x50#8) := by decide
theorem test_decode_wrcfg : decode 0x03020007#32 = .ok (.wrcfg 2#8 7#16) := by decide
theorem test_decode_memrd : decode 0x04100004#32 = .ok (.memrd 1#4 4#20) := by decide
theorem test_decode_tpStart : decode 0x10000000#32 = .ok .tpStart := by decide
theorem test_decode_tpPulse : decode 0x1100000A#32 = .ok (.tpPulse 10#24) := by decide
theorem test_decode_tpEnd : decode 0x12000000#32 = .ok .tpEnd := by decide
theorem test_decode_flClear : decode 0x20000000#32 = .ok .flClear := by decide
theorem test_decode_flPush : decode 0x210007D0#32 = .ok (.flPush 2000#24) := by decide
theorem test_decode_flEst : decode 0x22000000#32 = .ok .flEst := by decide
theorem test_decode_flFind : decode 0x23000000#32 = .ok .flFind := by decide
theorem test_decode_flSetpos : decode 0x241FFFFF#32 = .ok (.flSetpos 0x1FFFFF#21) := by decide
theorem test_decode_flRead : decode 0x25000004#32 = .ok (.flRead 4#11) := by decide
theorem test_decode_flHdr : decode 0x26000000#32 = .ok .flHdr := by decide
theorem test_decode_flData : decode 0x27000003#32 = .ok (.flData 3#2) := by decide
theorem test_decode_crcInit : decode 0x30000000#32 = .ok .crcInit := by decide
theorem test_decode_crcByte : decode 0x31000031#32 = .ok (.crcByte 0x31#8) := by decide
theorem test_decode_crcMark : decode 0x320000FE#32 = .ok (.crcMark 0xFE#8) := by decide
theorem test_decode_crcCheck : decode 0x33002778#32 = .ok (.crcCheck 0x2778#16) := by decide
theorem test_decode_addInit : decode 0x40000000#32 = .ok .addInit := by decide
theorem test_decode_addByte : decode 0x410000FF#32 = .ok (.addByte 0xFF#8) := by decide
theorem test_decode_addWord : decode 0x4200FEFF#32 = .ok (.addWord 0xFEFF#16) := by decide
theorem test_decode_addCheck : decode 0x43000102#32 = .ok (.addCheck 0x0102#16) := by decide

/-- Unlisted opcodes at the edges of the ranges of R56. -/
theorem test_decode_unlisted : [0x05000000#32, 0x0F000000#32, 0x13000000#32, 0x1F000000#32, 0x28000000#32, 0x2F000000#32,
    0x34000000#32, 0x3F000000#32, 0x44000000#32, 0xFF000000#32].map decode =
    List.replicate 10 (.error .unlistedOpcode) := by decide +kernel

/-- A reserved bit set, for every format that has one (R53, R57). -/
theorem test_decode_reserved : [0x00000001#32, 0x01800000#32, 0x02000150#32, 0x31000100#32, 0x33010000#32, 0x24200000#32,
    0x25000800#32, 0x27000004#32].map decode = List.replicate 8 (.error .reservedBits) := by decide +kernel

theorem test_decodeTableWord : decodeTableWord 32 0x0301000C = some (.wrcfg 1#8 12#16) ∧
    decodeTableWord 32 0x05000000 = none := by decide

/-! ### Helpers -/

/-- The response of an outcome. -/
def answer : Host.Outcome State Fault Refusal → Option Response
  | .next s => s.resp
  | .fault _ => none
  | .refused _ => none

/-- The state of an outcome. -/
def after : Host.Outcome State Fault Refusal → Option State
  | .next s => some s
  | .fault _ => none
  | .refused _ => none

/-- A tape read in phase `ph` after a pilot of 10-sample impulses (R71): length_of_0 is 10, the cutoff 16. -/
def inPhase (ph : Phase) : TapeRegs := { TapeRegs.reset with phase := ph, l0h := 1000#32, cut := 16#32 }

/-- A state with these TAPE registers. -/
def withTape (t : TapeRegs) : State := { State.reset with tape := t }

/-- A state with FM holding `vs`, and a sync length and a mark found at index 0. -/
def withFlux (ss : BitVec 64) (sk : BitVec 21) (vs : List (BitVec 24)) : State :=
  { State.reset with
    fm := Memory.writeSpan [] 0 vs
    floppy := { FloppyRegs.reset with
      count := BitVec.ofNat 21 vs.length, ss := ss, sk := sk, svalid := true, mfound := true } }

/-- A state whose FLOPPY unit is in FATAL. -/
def floppyFatal : State := { State.reset with floppy := { FloppyRegs.reset with mode := .fatal, err := .bitTiming } }

/-! ### One step of each command: examples of the rules -/

/-- R61. -/
theorem test_nop : answer (step (State.reset.withFetchWord 32 0x00000000)) = some ⟨.ok, 0#32⟩ := by decide
/-- R62: after WRCFG 1, 12 the reset value 9 is back. -/
theorem test_reset : (after (exec .reset { State.reset with cfg.ficEnd := 12#16 })).map (·.cfg.ficEnd) = some 9#16 := by
  decide
/-- R63. -/
theorem test_rdreg : answer (step (State.reset.withFetchWord 32 0x02000050)) = some ⟨.ok, 0x0000FFFF#32⟩ := by decide
/-- R18: an index no register has. -/
theorem test_rdreg_unlisted : answer (exec (.rdreg 0x60#8) State.reset) = some ⟨.badarg, 0#32⟩ := by decide
/-- R64: 0x03020007 writes CFG_MLEN_HDR. -/
theorem test_wrcfg : (after (step (State.reset.withFetchWord 32 0x03020007))).map (·.register 0x72#8) = some (some 7#32) := by
  decide
/-- R64: no illegal value is written. -/
theorem test_wrcfg_illegal : answer (exec (.wrcfg 5#8 2#16) State.reset) = some ⟨.badarg, 0#32⟩ := by decide
/-- 95_test_vectors.md: FL_PUSH 2000, then MEMRD FM, 0. -/
theorem test_memrd : answer (exec (.memrd 4#4 0#20) (withFlux 0 0 [2000#24])) = some ⟨.ok, 2000#32⟩ := by decide
/-- R65: an address at the fill count. -/
theorem test_memrd_limit : answer (exec (.memrd 4#4 1#20) (withFlux 0 0 [2000#24])) = some ⟨.badarg, 0#32⟩ := by decide
/-- R68. -/
theorem test_tpStart : answer (step (floppyFatal.withFetchWord 32 0x10000000)) = some ⟨.ok, 1#32⟩ := by decide
/-- R69: the first impulse of a read. -/
theorem test_tpPulse : (after (exec (.tpPulse 10#24) (withTape { TapeRegs.reset with phase := .findPilot }))).map
    (fun s => (s.tape.pn, s.tape.ps, s.resp)) = some (1#32, 10#64, some ⟨.ok, 1#32⟩) := by decide
/-- R71: after 200 impulses of 10 samples, an impulse of 40. -/
theorem test_tpPulse_pilot : (after (exec (.tpPulse 40#24) (withTape { TapeRegs.reset with
    phase := .findPilot, pn := 200#32, ps := 2000#64 }))).map
    (fun s => (s.tape.l0h, s.tape.cut, s.resp)) = some (1000#32, 16#32, some ⟨.ok, 2#32⟩) := by decide
/-- R70: TP_END in FIND_PILOT. -/
theorem test_tpEnd : answer (step ((withTape { TapeRegs.reset with phase := .findPilot }).withFetchWord 32 0x12000000)) =
    some ⟨.fatal, 0x1F#32⟩ := by decide
/-- R70: TP_END in a later phase. -/
theorem test_tpEnd_truncated : answer (exec .tpEnd (withTape (inPhase .readData))) = some ⟨.fatal, 0x5F#32⟩ := by decide
/-- R93. -/
theorem test_flClear : answer (exec .flClear floppyFatal) = some ⟨.ok, 0#32⟩ ∧
    (after (exec .flClear floppyFatal)).map (·.floppy) = some FloppyRegs.reset := by decide
/-- R94: the second interval pushed. -/
theorem test_flPush : answer (exec (.flPush 0xFFFFFF#24) (withFlux 0 0 [2000#24])) = some ⟨.ok, 2#32⟩ := by decide
/-- R95: 100, 100, 116 stops at the third with S = 200, k = 2. -/
theorem test_flEst : (after (exec .flEst { withFlux 0 0 [100#24, 100#24, 116#24] with
    floppy := { FloppyRegs.reset with count := 3#21 } })).map (fun s => (s.floppy.ss, s.floppy.sk, s.resp)) =
    some (200#64, 2#21, some ⟨.ok, 2#32⟩) := by decide
/-- R95: 100, 100, 115 deviates by exactly 15 %, so the walk does not stop. -/
theorem test_flEst_converges : answer (exec .flEst { withFlux 0 0 [100#24, 100#24, 115#24] with
    floppy := { FloppyRegs.reset with count := 3#21 } }) = some ⟨.fatal, 1#32⟩ := by decide
/-- R97, R98: one interval, then the pattern "434324343243432" with q = 2: the match ends at i = 15. -/
theorem test_flFind : (after (exec .flFind (withFlux 2 1
    [2, 4, 3, 4, 3, 2, 4, 3, 4, 3, 2, 4, 3, 4, 3, 2]))).map (fun s => (s.floppy.mpos, s.floppy.pos, s.resp)) =
    some (0#21, 16#21, some ⟨.ok, 1#32⟩) := by decide
/-- R98: a pattern from FM[0] on would start at −1 and is no match. -/
theorem test_flFind_none : (after (exec .flFind (withFlux 2 1
    [4, 3, 4, 3, 2, 4, 3, 4, 3, 2, 4, 3, 4, 3, 2]))).map (fun s => (s.floppy.mfound, s.floppy.pos, s.resp)) =
    some (false, 15#21, some ⟨.ok, 0#32⟩) := by decide
/-- R100. -/
theorem test_flSetpos : answer (exec (.flSetpos 1#21) (withFlux 0 0 [2000#24])) = some ⟨.ok, 0#32⟩ ∧
    answer (exec (.flSetpos 2#21) (withFlux 0 0 [2000#24])) = some ⟨.badarg, 0#32⟩ := by decide
/-- R102, R104, q = 4: 4 emits '0'; 2 emits '1'; 4 − 2 = 2 emits '1'; then 8, 6, 4, 4, 4, 4. By hand: 0 11 then
8 − 2 = 6 > q emits '0', 2 emits '1'; 6 − 2 = 4 emits '0'; 4, 4, 4: the nine symbols 0 1 1 0 1 0 0 0 0. -/
theorem test_flRead : (after (exec (.flRead 1#11) (withFlux 4 1 [4, 2, 4, 8, 6, 4, 4, 4, 4]))).map
    (fun s => (Memory.read s.fb 0, Memory.read s.fom 0, s.floppy.nsym, s.resp)) =
    some (some 0xD0#8, some 0x00#8, 9#14, some ⟨.ok, 0x01#32⟩) := by decide
/-- R101: an interval over 2.8 q is fatal, and nothing is written. -/
theorem test_flRead_bound : (after (exec (.flRead 1#11) (withFlux 5 1 [5, 15]))).map
    (fun s => (s.fb, s.floppy.err, s.resp)) = some ([], .bitTiming, some ⟨.fatal, 3#32⟩) := by decide
/-- R107: the flux ends before ten groups. -/
theorem test_flHdr : answer (exec .flHdr (withFlux 4 1 [4, 4])) = some ⟨.ok, 0x43#32⟩ := by decide
/-- R109: likewise. -/
theorem test_flData : answer (exec (.flData 1#2) (withFlux 4 1 [4, 4])) = some ⟨.ok, 0x83#32⟩ := by decide
/-- R91: no sync length. -/
theorem test_flData_gate : answer (exec (.flData 1#2) State.reset) = some ⟨.seq, 0#32⟩ := by decide
/-- R116. -/
theorem test_crcInit : answer (exec .crcInit State.reset) = some ⟨.ok, 0x0000FFFF#32⟩ := by decide
/-- R117. -/
theorem test_crcByte : answer (step (State.reset.withFetchWord 32 0x31000000)) = some ⟨.ok, 0xE1F0#32⟩ := by decide
/-- R117: the bytes "123456789". -/
theorem test_crc_check_value : crcSeq 0xFFFF#16 [0x31, 0x32, 0x33, 0x34, 0x35, 0x36, 0x37, 0x38, 0x39] = 0x29B1#16 := by
  decide +kernel
/-- R118. -/
theorem test_crcMark : answer (exec (.crcMark 0xFE#8) State.reset) = some ⟨.ok, 0xB230#32⟩ ∧
    answer (exec (.crcMark 0xFB#8) State.reset) = some ⟨.ok, 0xE295#32⟩ := by decide +kernel
/-- R119. -/
theorem test_crcCheck : answer (exec (.crcCheck 0x2778#16) { State.reset with crc := 0x2778#16 }) = some ⟨.ok, 1#32⟩ ∧
    answer (exec (.crcCheck 0x2778#16) State.reset) = some ⟨.ok, 0#32⟩ := by decide
/-- R123. -/
theorem test_addInit : (after (exec .addInit { State.reset with sum := 5#16 })).map (·.sum) = some 0#16 := by decide
/-- R124: the carry comes around. -/
theorem test_addByte : answer (exec (.addByte 1#8) { State.reset with sum := 0xFFFF#16 }) = some ⟨.ok, 1#32⟩ := by decide
/-- R125. -/
theorem test_addWord : answer (exec (.addWord 0xFFFF#16) { State.reset with sum := 0xFFFF#16 }) =
    some ⟨.ok, 0xFFFF#32⟩ := by decide
/-- R126. -/
theorem test_addCheck : answer (exec (.addCheck 0x0102#16) { State.reset with sum := 0x0102#16 }) = some ⟨.ok, 1#32⟩ ∧
    answer (exec (.addCheck 0x0102#16) State.reset) = some ⟨.ok, 0#32⟩ := by decide

/-! ### Witnesses: the hypotheses of the statements can be met -/

/-- FM, or another buffer, written from element 0 on holds its elements. -/
theorem holds_writeSpan {w : Nat} (vs : List (BitVec w)) {size : Nat} (h : vs.length ≤ size) :
    Memory.Holds (Memory.writeSpan [] 0 vs) vs.length size where
  form := Memory.writeSpan_wf 0 vs List.Pairwise.nil
  within := fun e he => by
    rcases Memory.mem_writeSpan he with h' | h'
    · omega
    · cases h'
  fits := h
  filled := fun a ha => ⟨vs[a], by simpa using Memory.read_writeSpan_same [] 0 vs ha⟩

theorem fluxReadable_withFlux (ss : BitVec 64) (sk : BitVec 21) (vs : List (BitVec 24)) (h : vs.length ≤ 1048576) :
    (withFlux ss sk vs).FluxReadable := by
  have e : (BitVec.ofNat 21 vs.length).toNat = vs.length := by
    rw [BitVec.toNat_ofNat, Nat.mod_eq_of_lt (by omega)]
  show Memory.Holds (Memory.writeSpan [] 0 vs) (BitVec.ofNat 21 vs.length).toNat 1048576
  rw [e]
  exact holds_writeSpan vs h

theorem markedFlux_withFlux (ss : BitVec 64) (sk : BitVec 21) (vs : List (BitVec 24)) (h : vs.length ≤ 1048576) :
    (withFlux ss sk vs).markedFlux = vs.map BitVec.toNat := by
  have e : (BitVec.ofNat 21 vs.length).toNat = vs.length := by
    rw [BitVec.toNat_ofNat, Nat.mod_eq_of_lt (by omega)]
  have hm : (withFlux ss sk vs).markedFlux = (List.range' 0 vs.length).map fun k =>
      ((Memory.read (Memory.writeSpan [] 0 vs) k).getD 0#24).toNat := by
    unfold State.markedFlux State.fluxList
    simp only [withFlux, FloppyRegs.reset, e, BitVec.toNat_zero, Nat.sub_zero]
  rw [hm]
  refine List.ext_getElem (by simp) fun k h1 h2 => ?_
  have hk : k < vs.length := by simpa using h2
  have := Memory.read_writeSpan_same ([] : Memory 24) 0 vs hk
  rw [Nat.zero_add] at this
  simp [this]

/-! #### Encoding, and the whole machine -/

theorem witness_EncodeInvertsDecode : decode 0x04FFFFFF#32 = .ok (.memrd 0xF#4 0xFFFFF#20) := by decide

theorem witness_DecodeFollowsOpcodeTable : ∃ (s : State) (cs : List Word), s.pending = 0xFF000000#32 :: cs :=
  ⟨State.reset.withFetchWord 32 0xFF000000, [], by decide⟩

theorem witness_IllegalWordsChangeNothing :
    (∃ (s : State) (cs : List Word), s.pending = 0x05000000#32 :: cs ∧
      ∀ row ∈ opcodeTable, 0x05000000#32 &&& 0xFF000000#32 ≠ row.pattern) ∧
    ∃ (s : State) (cs : List Word), s.pending = 0x24200000#32 :: cs ∧
      ∃ row ∈ opcodeTable, 0x24200000#32 &&& 0xFF000000#32 = row.pattern ∧ 0x24200000#32 &&& row.mask ≠ row.pattern :=
  ⟨⟨State.reset.withFetchWord 32 0x05000000, [], by decide, by decide +kernel⟩,
   ⟨State.reset.withFetchWord 32 0x24200000, [], by decide, ⟨"FL_SETPOS", 0x24000000#32, 0xFFE00000#32⟩, by decide +kernel⟩⟩

theorem witness_StepRunsDecodedCommand :
    (∃ (s : State) (c : Word) (cs : List Word), s.pending = c :: cs ∧ decode c = .ok (.flRead 0#11)) ∧
      State.reset.pending = [] :=
  ⟨⟨State.reset.withFetchWord 32 0x25000000, 0x25000000#32, [], by decide, by decide⟩, rfl⟩

/-- A state in the middle of a tape read, one bit before its second body byte is complete, with a revolution and a sync
length held, and an impulse pending. -/
def busy : State :=
  { withFlux 400#64 3#21 (List.replicate 17 100#24) with
    tape := { TapeRegs.reset with
      phase := .readData, l0h := 1000#32, cut := 16#32, hcnt := 20#5, bcnt := 1#17, rem := 1#16, bitcnt := 7#3
      startAddr := 0x0200#16, length := 2#16, sum := 5#16 }
    hb := Memory.writeSpan [] 0 ([0x00#8, 0x02#8, 0x02#8, 0x00#8] ++ List.replicate 16 0x20#8)
    tb := Memory.writeSpan [] 0 [0x05#8]
    fb := Memory.writeSpan [] 0 [0xD0#8]
    fom := Memory.writeSpan [] 0 [0x00#8]
    floppy := { FloppyRegs.reset with
      count := 17#21, ss := 400#64, sk := 3#21, svalid := true, mfound := true, fstat := 0x01#8, fblen := 1#11, nsym := 9#14 }
    pending := [0x11000014#32] }

theorem busy_inv : busy.Inv where
  params := by decide
  cfg := ⟨by decide, by decide⟩
  tape := ⟨by decide, ⟨rfl, rfl, by decide, rfl, rfl, by decide⟩, by decide, by decide⟩
  floppy := ⟨by decide, by decide, by decide, by decide, by decide, by decide, by decide, by decide, by decide, by decide,
    by decide⟩
  buffers :=
    { tb := holds_writeSpan [0x05#8] (size := 65536) (by decide)
      hb := holds_writeSpan ([0x00#8, 0x02#8, 0x02#8, 0x00#8] ++ List.replicate 16 0x20#8) (size := 20) (by decide)
      fb := holds_writeSpan [0xD0#8] (size := 1030) (by decide)
      fom := holds_writeSpan [0x00#8] (size := 1030) (by decide)
      fm := fluxReadable_withFlux 400#64 3#21 (List.replicate 17 100#24) (by decide) }
  flux := by decide

theorem witness_StepKeepsInvariant : ∃ s', busy.Inv ∧ step busy = .next s' :=
  ⟨_, busy_inv, rfl⟩

theorem witness_StepNeverStops : busy.Inv := busy_inv

theorem witness_StepKeepsTapeRecord : ∃ s', busy.Inv ∧ busy.RecordInv ∧ step busy = .next s' :=
  ⟨_, busy_inv, ⟨by decide, fun _ => ⟨_, _, _, _, rfl, rfl, rfl, rfl, by decide, by decide⟩⟩, rfl⟩

/-- The impulse stores the second body byte, 0x01, and leaves the first. -/
theorem test_busy_step : (after (step busy)).map (fun s => (s.tb, s.tape.sum, s.tape.rem)) =
    some ([(0, 0x05#8), (1, 0x01#8)], 6#16, 0#16) := by decide

theorem witness_PowerOnSatisfiesInvariants :
    Params.legal { Params.default with ficStd := 0xFFFF#16, fmDepth := 1, boundNum := 1, boundDen := 1000 } = true := by
  decide

theorem witness_ResetRestoresEveryRegister : listedRegister 0x10#8 = true ∧ listedRegister 0x76#8 = true := by decide

theorem witness_CommandsAnswerOnce : ∃ (s : State) (i : Instr) (s' : State), exec i s = .next s' :=
  ⟨busy, .tpPulse 29#24, _, rfl⟩

theorem witness_RefusedCommandsChangeNothing :
    ∀ x ∈ [(0x05000000#32, RespCode.illegal), (0x25000407#32, .badarg), (0x23000000#32, .seq), (0x1100001D#32, .fatal)],
      ∃ (s s' : State) (r : Response), s.pending = [x.1] ∧ step s = .next s' ∧ s'.resp = some r ∧ r.code = x.2 := by
  simp only [List.mem_cons, List.not_mem_nil, or_false, forall_eq_or_imp, forall_eq]
  exact ⟨⟨State.reset.withFetchWord 32 0x05000000, _, _, rfl, rfl, rfl, rfl⟩,
    ⟨State.reset.withFetchWord 32 0x25000407, _, _, rfl, rfl, rfl, rfl⟩,
    ⟨State.reset.withFetchWord 32 0x23000000, _, _, rfl, rfl, rfl, rfl⟩,
    ⟨{ busy with pending := [0x1100001D#32] }, _, _, rfl, rfl, rfl, rfl⟩⟩

/-- One state for each cause of a fatal error, in the order of the statement. -/
theorem witness_FatalErrorsHaveTheirCauses :
    ∀ x ∈ [(withTape { TapeRegs.reset with phase := .findPilot }, Instr.tpEnd, 0x1F#32),
        (withTape { TapeRegs.reset with phase := .findPilot, pn := 0xFFFFFFFF#32, ps := 0xFFFFFFFF#64 }, .tpPulse 3#24, 0x1F#32),
        (withTape { inPhase .headerMarker with msub := .lead, mfic := 4#16 }, .tpPulse 34#24, 0x2F#32),
        (withTape (inPhase .readHeader), .tpPulse 29#24, 0x3F#32),
        (withTape { inPhase .cksum with syncph := true }, .tpPulse 17#24, 0x4F#32),
        (withTape (inPhase .endTrailer), .tpEnd, 0x5F#32),
        ({ State.reset with floppy := FloppyRegs.reset }, .flEst, 1#32),
        (withFlux 5 1 [15], .flRead 1#11, 3#32)],
      (after (exec x.2.1 x.1)).map State.resp = some (some ⟨.fatal, x.2.2⟩) := by decide +kernel

theorem witness_OperandOutOfRangeIsBadarg : Instr.wellFormed (.memrd 0xF#4 0#20) = false := by decide

theorem witness_FatalUnitsRefuseUntilRestarted :
    (withTape { inPhase .fatal with err := .marker }).tape.phase = .fatal ∧ floppyFatal.floppy.mode = .fatal ∧
    (0#21).toNat ≤ floppyFatal.floppy.count.toNat ∧ 1 ≤ (1030#11).toNat ∧ (1030#11).toNat ≤ 1030 ∧
    (∃ s', exec .tpStart (withTape (inPhase .fatal)) = .next s' ∧ s'.tape.phase ≠ .fatal) ∧
    ∃ s', exec .flClear floppyFatal = .next s' ∧ s'.floppy.mode ≠ .fatal :=
  ⟨rfl, rfl, by decide, by decide, by decide, ⟨_, rfl, by decide⟩, ⟨_, rfl, by decide⟩⟩

/-- Every command leads to a next state somewhere: in `busy` itself. -/
theorem witness_UnitsShareNothing : ∀ i ∈ [Instr.nop, .reset, .rdreg 0x10#8, .wrcfg 6#8 1#16, .memrd 1#4 0#20, .tpStart,
    .tpPulse 20#24, .tpEnd, .flClear, .flPush 1#24, .flEst, .flFind, .flSetpos 17#21, .flRead 1#11, .flHdr, .flData 1#2,
    .crcInit, .crcByte 1#8, .crcMark 1#8, .crcCheck 1#16, .addInit, .addByte 1#8, .addWord 1#16, .addCheck 1#16],
    (after (exec i busy)).isSome = true := by decide +kernel

/-- States that differ from `busy` in every unit but one, and agree with it on what that unit's commands read. -/
theorem witness_UnitsShareNothing_reads :
    (∃ t : State, t ≠ busy ∧ t.tape = busy.tape ∧ t.cfg = busy.cfg ∧ t.tb = busy.tb ∧ t.hb = busy.hb ∧
      t.crc ≠ busy.crc ∧ t.sum ≠ busy.sum ∧ t.floppy ≠ busy.floppy ∧ t.fm ≠ busy.fm) ∧
    (∃ t : State, t.floppy = busy.floppy ∧ t.params = busy.params ∧ t.fm = busy.fm ∧ t.fb = busy.fb ∧ t.fom = busy.fom ∧
      t.tape ≠ busy.tape ∧ t.cfg ≠ busy.cfg) ∧
    ∃ t : State, t.crc = busy.crc ∧ t.sum = busy.sum ∧ t.tape ≠ busy.tape ∧ t.floppy ≠ busy.floppy :=
  ⟨⟨{ busy with crc := 1#16, sum := 1#16, floppy := FloppyRegs.reset, fm := [] }, by decide⟩,
    ⟨{ busy with tape := TapeRegs.reset, cfg := { busy.cfg with ficEnd := 12#16 } }, by decide⟩,
    { busy with tape := TapeRegs.reset, floppy := FloppyRegs.reset }, by decide⟩

theorem witness_TapeCommandsMemoryFrame : ∃ s' s'',
    exec (.tpPulse 20#24) busy = .next s' ∧ s'.element .tb 1 ≠ busy.element .tb 1 ∧
    exec (.tpPulse 20#24) (withTape { inPhase .readHeader with rem := 20#16, bitcnt := 7#3 }) = .next s'' ∧
    s''.element .hb 0 = some 1#32 :=
  ⟨_, _, rfl, by decide, rfl, by decide⟩

theorem witness_FloppyCommandsMemoryFrame :
    (∃ s', exec (.flPush 9#24) busy = .next s' ∧ s'.element .fm 17 = some 9#32) ∧
    (∃ s', exec (.flRead (BitVec.ofNat 11 1)) (withFlux 4 1 (List.replicate 9 4)) = .next s') ∧
    (∃ o, (withFlux 4 1 (List.replicate 9 4)).decodeField 1 = .ok o) ∧
    ∃ e, (withFlux 5 1 [15]).decodeField 1 = .error e :=
  ⟨⟨_, rfl, by decide⟩, ⟨_, rfl⟩, ⟨_, rfl⟩, ⟨_, rfl⟩⟩

theorem witness_CutoffIsFrozen : ∃ s', exec (.tpPulse 40#24)
    (withTape { TapeRegs.reset with phase := .findPilot, pn := 200#32, ps := 2000#64 }) = .next s' ∧
    s'.tape.cut ≠ 0#32 :=
  ⟨_, rfl, by decide⟩

theorem witness_SyncLengthIsFrozen : (∃ s', exec .flClear busy = .next s') ∧ ∃ s', exec .flEst busy = .next s' ∧
    busy.floppy.svalid = true :=
  ⟨⟨_, rfl⟩, ⟨_, rfl, rfl⟩⟩

theorem witness_DebugVerbosityHasNoEffect : Instr.rdreg 0x75#8 ≠ .rdreg 0x76#8 ∧ Instr.rdreg 0x75#8 ≠ .reset ∧
    ∀ w, Instr.rdreg 0x75#8 ≠ .wrcfg 6#8 w := ⟨by decide, by decide, by simp⟩

theorem witness_WarningsHaveNoEffect : Instr.rdreg 0x11#8 ≠ .rdreg 0x12#8 := by decide

theorem witness_TapePhasesOnlyAdvance : ∃ s', exec (.tpPulse 20#24) (withTape (inPhase .pilotFound)) = .next s' ∧
    s'.tape.phase = .pilotFound2 := ⟨_, rfl, by decide⟩

/-! #### Block control -/

theorem witness_RdregReadsListedRegisters : listedRegister 0x27#8 = true ∧ listedRegister 0x28#8 = false := by decide

theorem witness_WrcfgWritesLegalValues : (7#8).toNat > 6 ∧ (0xFF#8).toNat > 6 := by decide

/-- The last readable address of every space, and the fill count itself, in one state. -/
theorem witness_MemrdReadsBelowFillCount : (5#4).toNat > 4 ∧ busy.BuffersHold ∧
    busy.tape.bcnt.toNat = 0 + 1 ∧ busy.tape.hcnt.toNat = 19 + 1 ∧ busy.floppy.fblen.toNat = 0 + 1 ∧
    busy.floppy.count.toNat = 16 + 1 ∧ (16#20).toNat = 16 :=
  ⟨by decide, busy_inv.buffers, rfl, rfl, rfl, rfl, rfl⟩

/-! #### TAPE -/

theorem witness_TpPulseGates : (0xFFFFFF#24 ≠ 0#24) ∧ State.reset.tape.phase = .idle ∧
    (withTape (inPhase .fatal)).tape.phase = .fatal ∧ (withTape (inPhase .done)).tape.phase = .done ∧
    (withTape (inPhase .done)).tape.err = .none := by decide

theorem witness_TpEndEndsTheCapture : ∀ ph : Phase, (withTape (inPhase ph)).tape.phase = ph := fun _ => rfl

/-- A read in FIND_PILOT with a running average of `ps / pn`. -/
def pilotAt (pn : BitVec 32) (ps : BitVec 64) : State :=
  withTape { TapeRegs.reset with phase := .findPilot, pn := pn, ps := ps }

/-- At 200 impulses of 10 samples, 36 ends the pilot and 35 does not; at the counter cap, of impulses of 1, nor does 3. -/
theorem witness_PilotStepCalibrates :
    (∀ pn ps, (pilotAt pn ps).tape.phase = .findPilot) ∧
    (200 ≤ (pilotAt 200 2000).tape.pn.toNat ∧
      7 * (pilotAt 200 2000).tape.ps.toNat < 2 * (pilotAt 200 2000).tape.pn.toNat * (36#24).toNat) ∧
    ¬(200 ≤ (pilotAt 200 2000).tape.pn.toNat ∧
      7 * (pilotAt 200 2000).tape.ps.toNat < 2 * (pilotAt 200 2000).tape.pn.toNat * (35#24).toNat) ∧
    (pilotAt 200 2000).tape.pn ≠ 0xFFFFFFFF#32 ∧
    (pilotAt 0xFFFFFFFF 0xFFFFFFFF).tape.pn = 0xFFFFFFFF#32 ∧
    ¬(200 ≤ (pilotAt 0xFFFFFFFF 0xFFFFFFFF).tape.pn.toNat ∧ 7 * (pilotAt 0xFFFFFFFF 0xFFFFFFFF).tape.ps.toNat <
      2 * (pilotAt 0xFFFFFFFF 0xFFFFFFFF).tape.pn.toNat * (3#24).toNat) :=
  ⟨fun _ _ => rfl, by decide, by decide, by decide, by decide, by decide⟩

theorem witness_PostPilotPairIsLenient : 16#24 ≠ 0#24 ∧ (withTape (inPhase .pilotFound)).tape.phase = .pilotFound ∧
    (withTape (inPhase .pilotFound2)).tape.phase = .pilotFound2 := by decide

/-- A header marker in sub-state `m`, strict or lenient. -/
def atSub (m : MarkerSub) (lenient : Bool) : TapeRegs :=
  { inPhase .headerMarker with msub := m, mfic := 4#16, mcnt := 2#16, mlenient := lenient }

theorem witness_MarkerImpulsesAdvance : (∀ m, (atSub m false).phase.isMarker = true) ∧
    ¬(atSub .lead false).CheckFails (35#24).toNat ∧ ¬(atSub .mid false).CheckFails (1#24).toNat ∧
    ¬(atSub .final false).CheckFails (35#24).toNat ∧ ¬(atSub .sync1 false).CheckFails (17#24).toNat ∧
    ¬(atSub .sync0 false).CheckFails (16#24).toNat := by
  refine ⟨fun _ => rfl, ?_, not_false, ?_, ?_, ?_⟩ <;> unfold TapeRegs.CheckFails atSub inPhase <;> decide

theorem witness_MarkerViolations : ∀ lenient, (atSub .lead lenient).mlenient = lenient ∧
    (atSub .lead lenient).CheckFails (34#24).toNat ∧ (atSub .final lenient).CheckFails (34#24).toNat ∧
    (atSub .sync1 lenient).CheckFails (16#24).toNat ∧ (atSub .sync0 lenient).CheckFails (17#24).toNat := by
  intro lenient
  refine ⟨rfl, ?_, ?_, ?_, ?_⟩ <;> cases lenient <;> unfold TapeRegs.CheckFails atSub inPhase <;> decide

theorem witness_GuardAbortsReadBit : (withTape (inPhase .cksum)).tape.phase.isSegment = true ∧
    7 * (withTape (inPhase .cksum)).tape.l0h.toNat < 250 * (29#24).toNat ∧
    ¬7 * (withTape (inPhase .cksum)).tape.l0h.toNat < 250 * (28#24).toNat := by decide

/-- A read_bit state: phase, TP_SYNCPH, TP_BITCNT and TP_REM, with TP_ACC = 0x85. -/
def inSegment (ph : Phase) (sync : Bool) (bitcnt : BitVec 3) (rem : BitVec 16) : State :=
  { withTape { inPhase ph with syncph := sync, bitcnt := bitcnt, rem := rem, acc := 0x85#8 } with hb := busy.hb }

/-- In every phase of a segment an impulse at the cutoff is bit 0 (0x0A), one above it, or the longest that the guard
passes, bit 1 (0x0B); with the last free element of each target. -/
theorem witness_DataBitsAssembleBytes : ∀ ph ∈ [Phase.readHeader, .readData, .cksum], ∀ k ∈ [6, 7],
    (inSegment ph false (BitVec.ofNat 3 k) 1).tape.phase.isSegment = true ∧ (inSegment ph false (BitVec.ofNat 3 k) 1).tape.syncph = false ∧
    (∀ x ∈ [(16, 0x0A), (17, 0x0B), (28, 0x0B)],
      250 * (BitVec.ofNat 24 x.1).toNat ≤ 7 * (inSegment ph false (BitVec.ofNat 3 k) 1).tape.l0h.toNat ∧
      (BitVec.ofNat 8 x.2).toNat = (2 * (inSegment ph false (BitVec.ofNat 3 k) 1).tape.acc.toNat +
        if (inSegment ph false (BitVec.ofNat 3 k) 1).tape.cut.toNat < (BitVec.ofNat 24 x.1).toNat then 1 else 0) % 256) ∧
    (19#5).toNat < 20 ∧ (65535#17).toNat < 65536 ∧ (inSegment ph false (BitVec.ofNat 3 k) 1).tape.ccnt = 0#2 := by decide

/-- In every phase of a segment an impulse of 17 is over the cutoff and one of 16 is not, in the middle of the segment
and at its end, with a header to unpack. -/
theorem witness_SyncBitsEndSegments : ∀ ph ∈ [Phase.readHeader, .readData, .cksum], ∀ rem ∈ [0, 1],
    (inSegment ph true 0 (BitVec.ofNat 16 rem)).tape.phase.isSegment = true ∧ (inSegment ph true 0 (BitVec.ofNat 16 rem)).tape.syncph = true ∧
    250 * (17#24).toNat ≤ 7 * (inSegment ph true 0 (BitVec.ofNat 16 rem)).tape.l0h.toNat ∧
    (inSegment ph true 0 (BitVec.ofNat 16 rem)).tape.cut.toNat < (17#24).toNat ∧ (16#24).toNat ≤ (inSegment ph true 0 (BitVec.ofNat 16 rem)).tape.cut.toNat ∧
    (inSegment ph true 0 (BitVec.ofNat 16 rem)).tape.rem.toNat = rem ∧
    Memory.read (inSegment ph true 0 (BitVec.ofNat 16 rem)).hb 0 = some 0x00#8 ∧ Memory.read (inSegment ph true 0 (BitVec.ofNat 16 rem)).hb 1 = some 0x02#8 ∧
    Memory.read (inSegment ph true 0 (BitVec.ofNat 16 rem)).hb 2 = some 0x02#8 ∧ Memory.read (inSegment ph true 0 (BitVec.ofNat 16 rem)).hb 3 = some 0x00#8 := by
  decide +kernel

/-- R10: ties go to the even integer. -/
theorem test_rhe : rhe 5 2 = 2 ∧ rhe 7 2 = 4 ∧ rhe 8 3 = 3 ∧ rhe 7 3 = 2 ∧ rhe 6 1 = 6 := by decide

theorem witness_RheRoundsHalfToEven : 0 < 1 := by decide

theorem witness_PulseTestsAreRationalComparisons : (inPhase .findPilot).pn = 0#32 ∧ 1#32 ≠ 0#32 := by decide

theorem witness_EqualPilotCalibrates : 200 ≤ 200 ∧ 200 < 4294967296 ∧ 0 < 4194303 ∧ 4 * 4194303 < 16777216 := by decide

/-- The byte 0xA5 in impulses of 17 (bit 1) and 16 (bit 0), each followed by a sync impulse of 16. -/
theorem witness_SixteenImpulsesStoreAByte : ∃ (s : State) (b : BitVec 8) (d z : Fin 8 → BitVec 24),
    s.tape.phase = .readData ∧ s.tape.syncph = false ∧ s.tape.bitcnt = 0#3 ∧ 2 ≤ s.tape.rem.toNat ∧
    s.tape.bcnt.toNat < 65536 ∧
    (∀ k, d k ≠ 0#24 ∧ 250 * (d k).toNat ≤ 7 * s.tape.l0h.toNat ∧
      (b.getLsbD (7 - k.val) = true ↔ s.tape.cut.toNat < (d k).toNat)) ∧
    (∀ k, z k ≠ 0#24 ∧ 250 * (z k).toNat ≤ 7 * s.tape.l0h.toNat ∧ (z k).toNat ≤ s.tape.cut.toNat) :=
  ⟨withTape { inPhase .readData with rem := 2#16 }, 0xA5#8,
    fun k => if (0xA5#8).getLsbD (7 - k.val) then 17#24 else 16#24, fun _ => 16#24,
    by decide, by decide, by decide, by decide, by decide, by decide, by decide⟩

/-! #### FLOPPY -/

theorem witness_ClearAndSetpos : busy.floppy.count.toNat < (18#21).toNat ∧ (17#21).toNat ≤ busy.floppy.count.toNat ∧
    busy.floppy.mode = .ready ∧ (0#21).toNat ≤ floppyFatal.floppy.count.toNat ∧ floppyFatal.floppy.mode = .fatal := by
  decide

/-- The last free entry of FM, and the full memory. -/
theorem witness_PushAppendsAnInterval : busy.floppy.mode = .ready ∧ busy.floppy.count.toNat < busy.params.fmDepth ∧
    (1048575#21).toNat < State.reset.params.fmDepth ∧ (1048576#21).toNat = State.reset.params.fmDepth := by decide

theorem witness_EstimateStopsAtFirstDeviation : estimate [100, 100, 116] 0 0 = some (200, 2) ∧
    estimate [100, 100, 84] 0 0 = some (200, 2) ∧ estimate [100, 100, 115] 0 0 = none := by decide

/-- FM holding 100, 100, 116, or 100, 100, 115, before FL_EST. -/
def unestimated (last : BitVec 24) : State :=
  { withFlux 0 0 [100#24, 100#24, last] with floppy := { FloppyRegs.reset with count := 3#21 } }

theorem witness_FlEstCachesTheEstimate : busy.floppy.mode = .ready ∧ busy.floppy.svalid = true ∧
    ∀ last, (unestimated last).floppy.mode = .ready ∧ (unestimated last).floppy.svalid = false ∧
      (unestimated last).FluxReadable ∧
      (last = 116#24 → estimate ((unestimated last).fluxList 0 (unestimated last).floppy.count.toNat) 0 0 = some (200, 2)) ∧
      (last = 115#24 → estimate ((unestimated last).fluxList 0 (unestimated last).floppy.count.toNat) 0 0 = none) :=
  ⟨rfl, rfl, fun last => ⟨rfl, rfl, holds_writeSpan [100#24, 100#24, last] (size := 1048576) (by simp),
    fun h => by subst h; decide, fun h => by subst h; decide⟩⟩

theorem witness_SearchFindsFirstMark :
    markPattern = [.four, .three, .four, .three, .two, .four, .three, .four, .three, .two, .four, .three, .four, .three, .two] ∧
    findMark ⟨2, 1, 14, 5⟩ [2, 4, 3, 4, 3, 2, 4, 3, 4, 3, 2, 4, 3, 4, 3, 2] 0 [] = some 15 ∧
    findMark ⟨2, 1, 14, 5⟩ [4, 3, 4, 3, 2, 4, 3, 4, 3, 2, 4, 3, 4, 3, 2] 0 [] = none := by decide

theorem witness_FlFindSearchesFromPos : floppyFatal.floppy.mode = .fatal ∧ State.reset.floppy.svalid = false ∧
    busy.floppy.mode = .ready ∧ busy.floppy.svalid = true ∧ busy.FluxReadable ∧
    findMark busy.cell (busy.fluxList busy.floppy.pos.toNat (busy.floppy.count.toNat - busy.floppy.pos.toNat))
      busy.floppy.pos.toNat [] = none ∧
    ∃ s : State, s.floppy.mode = .ready ∧ s.floppy.svalid = true ∧ s.FluxReadable ∧
      findMark s.cell (s.fluxList s.floppy.pos.toNat (s.floppy.count.toNat - s.floppy.pos.toNat))
        s.floppy.pos.toNat [] = some 15 :=
  ⟨rfl, rfl, rfl, rfl, busy_inv.buffers.fm, by decide +kernel, withFlux 2 1 [2, 4, 3, 4, 3, 2, 4, 3, 4, 3, 2, 4, 3, 4, 3, 2],
    rfl, rfl, fluxReadable_withFlux _ _ _ (by decide), by decide +kernel⟩

/-- A bound of 14/5 · 5: an interval of 14 is fetched, one of 15 is over it. -/
theorem witness_FluxTestsAreRationalComparisons : ∃ (c : SyncLen) (q : ℚ), 0 < c.sk ∧ 0 < c.den ∧ q = (c.ss : ℚ) / c.sk ∧
    (∃ (g : Int) (f : ℚ), f = (g : ℚ) / (2 * c.sk)) ∧ mfmFetch c 14 .half = some 23 ∧ mfmFetch c 15 .half = none :=
  ⟨⟨5, 1, 14, 5⟩, _, by decide, by decide, rfl, ⟨100, _, rfl⟩, by decide, by decide⟩

/-- With q = 4 and the bound 11.2: a remainder in every branch, at 1.75q, q, 0.75q and 0.25q and beside them; the list at
the target and below it; an interval at each side of the bound; and a decode that ends in order, one that does not. -/
theorem witness_DecodeLoopRunsAndEnds :
    (∀ x ∈ [((15 / 2 : ℚ), (15 : Int), [Sym.zero, .oh], Act.next), (7, 14, [.zero], .same), (4, 8, [.zero], .next),
        (3, 6, [.one], .half), (1, 2, [.one], .half), (1 / 2, 1, [], .next)],
      x.1 = (x.2.1 : ℚ) / (2 * (1 : Nat)) ∧
      (x.2.2.1, x.2.2.2) =
        (if 7 / 4 * (4 : ℚ) < x.1 then ([.zero, .oh], .next)
         else if 4 < x.1 then ([.zero], .same)
         else if 3 / 4 * 4 < x.1 then ([.zero], .next)
         else if x.1 < 1 / 4 * 4 then ([], .next)
         else ([.one], .half))) ∧
    (4 : ℚ) = (4 : Nat) / (1 : Nat) ∧ 9 ≤ (List.replicate 8 Sym.one ++ [Sym.zero]).length ∧
    (List.replicate 7 Sym.one ++ [Sym.zero]).length < 9 ∧
    ((14 : Nat) : ℚ) / (5 : Nat) * 4 < (12 : Nat) ∧ ((11 : Nat) : ℚ) ≤ (14 : Nat) / (5 : Nat) * 4 ∧
    overBound ⟨4, 1, 14, 5⟩ 12 = true ∧
    (∃ v w, mfmPass ⟨4, 1, 14, 5⟩ 9 9 v = .more w) ∧ (∃ v o, mfmPass ⟨4, 1, 14, 5⟩ 9 1 v = .stop o) ∧
    (∃ v, mfmPass ⟨4, 1, 14, 5⟩ 9 9 v = .overBound) ∧
    (∃ o, mfmDecode ⟨4, 1, 14, 5⟩ (0 + 9) 0 1 [4, 4, 4, 4, 4, 4, 4, 4, 4] = some o ∧ o.eot = false) ∧
    (∃ o, mfmDecode ⟨4, 1, 14, 5⟩ (0 + 8) 0 1 [4, 4, 4, 4, 4, 4, 4, 4] = some o ∧ o.eot = true) ∧
    ∀ f ∈ [4, 11], overBound ⟨4, 1, 14, 5⟩ f = false := by
  refine ⟨?_, by norm_num, by decide, by decide, by norm_num, by norm_num, by decide, ⟨⟨8, 0, [4], []⟩, _, rfl⟩,
    ⟨⟨8, 0, [], []⟩, _, rfl⟩, ⟨⟨8, 0, [12], []⟩, rfl⟩, ⟨_, rfl, rfl⟩, ⟨_, rfl, rfl⟩, by decide⟩
  simp only [List.mem_cons, List.not_mem_nil, or_false, forall_eq_or_imp, forall_eq]
  norm_num

theorem witness_GroupsHoldTheirSymbols :
    0 < (assemble [.zero, .one, .zero, .one, .zero, .zero, .oh, .zero, .one]).length ∧ 7 < 8 := by decide

/-- A loop over intervals of one bit cell each emits a '0' for each of them, and ends in order. -/
theorem uniform_loop (count target : Nat) : ∀ (k p idx : Nat) (rs : List Sym), k + 1 ≤ p → rs.length + 1 + k = target →
    ∃ o, mfmLoop ⟨4, 1, 14, 5⟩ count target p ⟨8, idx, List.replicate k 4, rs⟩ = some o ∧ o.eot = false := by
  intro k
  induction k with
  | zero =>
    intro p idx rs hp ht
    obtain ⟨p, rfl⟩ : ∃ q, p = q + 1 := ⟨p - 1, by omega⟩
    refine ⟨⟨((.zero :: rs).reverse).take target, idx + 1, false⟩, ?_, rfl⟩
    simp [mfmLoop, mfmPass, mfmBranch, ← ht]
  | succ k ih =>
    intro p idx rs hp ht
    obtain ⟨p, rfl⟩ : ∃ q, p = q + 1 := ⟨p - 1, by omega⟩
    obtain ⟨o, ho, he⟩ := ih p (idx + 1) (.zero :: rs) (by omega) (by simp; omega)
    refine ⟨o, ?_, he⟩
    have hn : ¬target ≤ rs.length + 1 := by omega
    simpa [mfmLoop, mfmPass, mfmBranch, hn, mfmFetch, overBound, List.replicate_succ] using ho

/-- Enough intervals of one bit cell each for `n` groups. -/
def flat (n : Nat) : State := withFlux 4 1 (List.replicate (8 * n + 1) 4#24)

/-- The gate of the decodes and a readable FM, together. -/
def Ready (s : State) : Prop :=
  s.floppy.mode = .ready ∧ s.floppy.svalid = true ∧ s.floppy.mfound = true ∧ s.FluxReadable

theorem withFlux_ready (ss : BitVec 64) (sk : BitVec 21) (vs : List (BitVec 24)) (h : vs.length ≤ 1048576) :
    Ready (withFlux ss sk vs) := ⟨rfl, rfl, rfl, fluxReadable_withFlux _ _ _ h⟩

/-- Each part of the gate can be missing. -/
theorem gates_closed : floppyFatal.floppy.mode = .fatal ∧ State.reset.floppy.svalid = false ∧
    State.reset.floppy.mfound = false := by decide

/-- Every decode of up to 1030 groups completes somewhere, and runs out of flux elsewhere. -/
theorem flat_decodes (n : Nat) (hn : n ≤ 1030) : Ready (flat n) ∧
    ∃ o, mfmDecode (flat n).cell (flat n).floppy.count.toNat (flat n).floppy.mpos.toNat n (flat n).markedFlux = some o ∧
      o.eot = false := by
  have hl : (List.replicate (8 * n + 1) 4#24).length ≤ 1048576 := by simp; omega
  refine ⟨withFlux_ready _ _ _ hl, ?_⟩
  unfold flat
  rw [markedFlux_withFlux _ _ _ hl, List.map_replicate]
  exact uniform_loop _ _ (8 * n) _ _ [] (by rw [List.length_replicate]; omega) (by simp only [List.length_nil]; omega)

/-- A decode of `n` groups that meets an interval over the bound, and one that runs out of flux. -/
theorem short_decodes (n : Nat) (hn : 1 ≤ n) :
    (Ready (withFlux 5 1 [15]) ∧
      mfmDecode (withFlux 5 1 [15]).cell 1 0 n (withFlux 5 1 [15]).markedFlux = none) ∧
    Ready (withFlux 4 1 [4]) ∧
      ∃ o, mfmDecode (withFlux 4 1 [4]).cell 1 0 n (withFlux 4 1 [4]).markedFlux = some o ∧ o.eot = true := by
  refine ⟨⟨withFlux_ready _ _ _ (by decide), rfl⟩, withFlux_ready _ _ _ (by decide), ⟨[.zero], 1, true⟩, ?_, rfl⟩
  have : ¬8 * n ≤ 0 := by omega
  rw [show (withFlux 4 1 [4]).markedFlux = [4] from rfl, show (withFlux 4 1 [4]).cell = ⟨4, 1, 14, 5⟩ from rfl]
  simp [mfmDecode, mfmFetch, overBound, mfmLoop, mfmPass, mfmBranch, this]

theorem witness_FlReadDecodesGroups : (0#11).toNat = 0 ∧ 1030 < (1031#11).toNat ∧ 1 ≤ (1#11).toNat ∧
    (1030#11).toNat ≤ 1030 ∧ Ready (flat 1030) ∧
    ∃ o, mfmDecode (flat 1030).cell (flat 1030).floppy.count.toNat (flat 1030).floppy.mpos.toNat 1030 (flat 1030).markedFlux =
      some o ∧ o.eot = false :=
  ⟨by decide, by decide, by decide, by decide, flat_decodes 1030 (by decide)⟩

theorem witness_FlHdrDecodesAHeader : Ready (flat 10) ∧
    ∃ o, mfmDecode (flat 10).cell (flat 10).floppy.count.toNat (flat 10).floppy.mpos.toNat 10 (flat 10).markedFlux =
      some o ∧ o.eot = false := flat_decodes 10 (by decide)

/-- The three payload sizes. -/
theorem witness_FlDataDecodesADataField : ∀ x ∈ [(1#2, 256), (2#2, 512), (3#2, 1024)],
    (x.1.toNat, x.2) ∈ [(1, 256), (2, 512), (3, 1024)] ∧ Ready (flat (x.2 + 6)) ∧
      ∃ o, mfmDecode (flat (x.2 + 6)).cell (flat (x.2 + 6)).floppy.count.toNat (flat (x.2 + 6)).floppy.mpos.toNat
        (x.2 + 6) (flat (x.2 + 6)).markedFlux = some o ∧ o.eot = false :=
  fun x hx => ⟨by revert x; decide, flat_decodes _ (by simp at hx; rcases hx with rfl | rfl | rfl <;> decide)⟩

/-- R105: the group "10100o01" has the value 0xA1 and the mask 0x04; a whole mark passes. -/
theorem test_markOk : groupByte .one [.one, .zero, .one, .zero, .zero, .oh, .zero, .one] = 0xA1#8 ∧
    groupByte .oh [.one, .zero, .one, .zero, .zero, .oh, .zero, .one] = 0x04#8 ∧
    markOk [⟨0xA1, 0x04⟩, ⟨0xA1, 0x04⟩, ⟨0xA1, 0x04⟩, ⟨0xFE, 0x00⟩] 0xFE#8 = true ∧
    markOk [⟨0xA1, 0x04⟩, ⟨0xA1, 0x00⟩, ⟨0xA1, 0x04⟩, ⟨0xFE, 0x00⟩] 0xFE#8 = false := by decide

/-- 95_test_vectors.md: the header 05 01 03 02 with stored CRC bytes 78 27 is valid, FL_FSTAT 0x75. -/
theorem test_header_status : fieldStatus 1#2 [⟨0xA1, 0x04⟩, ⟨0xA1, 0x04⟩, ⟨0xA1, 0x04⟩, ⟨0xFE, 0⟩, ⟨5, 0⟩, ⟨1, 0⟩, ⟨3, 0⟩,
    ⟨2, 0⟩, ⟨0x78, 0⟩, ⟨0x27, 0⟩] 0xFE#8 4 = 0x75#8 := by decide +kernel

/-! #### CRC and ADD -/

/-- The eight shift steps of the byte 0x31 after the seed. -/
theorem witness_CrcCommandsUpdateCrc : ∃ x : Nat → BitVec 16, x 0 = 0xFFFF#16 ^^^ ((0x31#8).setWidth 16 <<< 8) ∧
    ∀ k < 8, x (k + 1) = if (x k).getLsbD 15 then (x k <<< 1) ^^^ 0x1021#16 else x k <<< 1 :=
  ⟨fun k => crcShifts k (0xFFFF#16 ^^^ ((0x31#8).setWidth 16 <<< 8)), by decide, by decide⟩

theorem witness_CrcDetectsSingleBitErrors : 7 < 8 ∧ 0 < 8 := by decide

theorem witness_AddCommandsUpdateSum :
    (0x0001#16).toNat = (if (0xFFFF#16).toNat + (0x01#8).toNat > 0xFFFF then
      (0xFFFF#16).toNat + (0x01#8).toNat - 0x10000 + 1 else (0xFFFF#16).toNat + (0x01#8).toNat) ∧
    (0xFFFF#16).toNat = (if (0xFF00#16).toNat + (0xFF#16).toNat > 0xFFFF then
      (0xFF00#16).toNat + (0xFF#16).toNat - 0x10000 + 1 else (0xFF00#16).toNat + (0xFF#16).toNat) := by decide

end Sys2Proof.Tests
end

section
/-! PROOF. Exact arithmetic (00_scope.md R10): the rounding `rhe`, and the comparisons of classified pulses and flux
intervals, which the model multiplies through by a positive constant, as comparisons of exact rationals. -/

namespace Sys2Proof.Machine

/-! ### Rounding -/

/-- The quotient and the fractional part of a division of naturals. -/
theorem cast_div_eq_quot_add_frac (a : Nat) {b : Nat} (hb : 0 < b) :
    (a : ℚ) / b = (a / b : Nat) + ((a % b : Nat) : ℚ) / b := by
  have hb' : (b : ℚ) ≠ 0 := by exact_mod_cast hb.ne'
  rw [add_div' _ _ _ hb']
  congr 1
  exact_mod_cast (Nat.div_add_mod' a b).symm

/-- `rhe` rounds down below the half and up above it; at the half it takes the even neighbour. -/
theorem rhe_cases (a b : Nat) :
    (2 * (a % b) < b ∧ rhe a b = a / b) ∨ (b < 2 * (a % b) ∧ rhe a b = a / b + 1) ∨
      (2 * (a % b) = b ∧ rhe a b % 2 = 0 ∧ (rhe a b = a / b ∨ rhe a b = a / b + 1)) := by
  rcases lt_trichotomy (2 * (a % b)) b with hlt | heq | hgt
  · exact .inl ⟨hlt, if_pos hlt⟩
  · refine .inr (.inr ⟨heq, ?_⟩)
    rcases Nat.mod_two_eq_zero_or_one (a / b) with he | ho
    · have h : rhe a b = a / b := by simp [rhe, heq, he]
      exact ⟨h ▸ he, .inl h⟩
    · have h : rhe a b = a / b + 1 := by simp [rhe, heq, ho]
      exact ⟨by omega, .inr h⟩
  · exact .inr (.inl ⟨hgt, by rw [rhe, if_neg hgt.not_gt, if_pos hgt]⟩)

/-- The rounding error is below a half, or it is a half and the result is even. -/
theorem rhe_error_cases (a : Nat) {b : Nat} (hb : 0 < b) :
    |(rhe a b : ℚ) - (a : ℚ) / b| < 1 / 2 ∨ (|(rhe a b : ℚ) - (a : ℚ) / b| = 1 / 2 ∧ rhe a b % 2 = 0) := by
  have hbq : (0 : ℚ) < b := by exact_mod_cast hb
  rw [cast_div_eq_quot_add_frac a hb]
  have hfrac_nonneg : (0 : ℚ) ≤ ((a % b : Nat) : ℚ) / b := by positivity
  have hfrac_lt_one : ((a % b : Nat) : ℚ) / b < 1 := by
    rw [div_lt_one hbq]; exact_mod_cast Nat.mod_lt a hb
  rcases rhe_cases a b with ⟨hlt, h⟩ | ⟨hgt, h⟩ | ⟨heq, heven, h⟩
  · have hfrac : ((a % b : Nat) : ℚ) / b < 1 / 2 := by
      rw [div_lt_div_iff₀ hbq two_pos]; exact_mod_cast (by omega : a % b * 2 < 1 * b)
    left; rw [h, abs_lt]; constructor <;> linarith
  · have hfrac : 1 / 2 < ((a % b : Nat) : ℚ) / b := by
      rw [div_lt_div_iff₀ two_pos hbq]; exact_mod_cast (by omega : 1 * b < a % b * 2)
    left; rw [h, abs_lt]; push_cast; constructor <;> linarith
  · have hfrac : ((a % b : Nat) : ℚ) / b = 1 / 2 := by
      rw [div_eq_div_iff hbq.ne' two_ne_zero]; exact_mod_cast (by omega : a % b * 2 = 1 * b)
    refine .inr ⟨?_, heven⟩
    rcases h with h | h <;> rw [h, hfrac] <;> push_cast
    · rw [sub_add_cancel_left, abs_neg, abs_of_pos one_half_pos]
    · rw [add_sub_add_left_eq_sub, sub_half, abs_of_pos one_half_pos]

/-- Settles O40: the error is below a half, or a half at an even result. -/
theorem rheRoundsHalfToEven : Obligations.RheRoundsHalfToEven := by
  intro a b hb
  rcases rhe_error_cases a hb with hlt | ⟨heq, heven⟩
  · exact ⟨hlt.le, fun h => absurd h hlt.ne⟩
  · exact ⟨heq.le, fun _ => heven⟩

/-! ### Comparisons multiplied through -/

section Scaling
variable {m k n d x : ℚ}

/-- `m/k` of the ratio `n/d` is below `x`, multiplied through by `k·d`. -/
theorem frac_mul_ratio_lt_iff (hk : 0 < k) (hd : 0 < d) : m / k * (n / d) < x ↔ m * n < k * (d * x) := by
  rw [div_mul_div_comm, div_lt_iff₀' (mul_pos hk hd), mul_assoc]

/-- `m/k` of the ratio `n/d` is at most `x`, multiplied through by `k·d`. -/
theorem frac_mul_ratio_le_iff (hk : 0 < k) (hd : 0 < d) : m / k * (n / d) ≤ x ↔ m * n ≤ k * (d * x) := by
  rw [div_mul_div_comm, div_le_iff₀' (mul_pos hk hd), mul_assoc]

end Scaling

/-! ### TAPE: the pulse tests (41_tape.md R66, R67) -/

theorem guardHit_iff (t : TapeRegs) (p : Nat) :
    guardHit t p = true ↔ (14 / 5 : ℚ) * (t.l0h.toNat / 100) < p := by
  rw [guardHit, decide_eq_true_iff, frac_mul_ratio_lt_iff (by norm_num) (by norm_num)]
  norm_cast
  omega

/-- The factor fic − 1/2 is (2·fic − 1) / 2, negative at fic = 0; so the comparison is one of integers. -/
theorem leadOk_iff (t : TapeRegs) (p : Nat) :
    leadOk t p = true ↔ ((t.mfic.toNat : ℚ) - 1 / 2) * (t.l0h.toNat / 100) ≤ p := by
  have hfactor : (t.mfic.toNat : ℚ) - 1 / 2 = (2 * t.mfic.toNat - 1) / 2 := by ring
  have hconst : (200 : ℚ) * p = 2 * (100 * p) := by ring
  rw [leadOk, decide_eq_true_iff, hfactor, frac_mul_ratio_le_iff (by norm_num) (by norm_num), ← hconst]
  exact_mod_cast Iff.rfl

theorem longOk_iff (t : TapeRegs) (p : Nat) : longOk t p = true ↔ (7 / 2 : ℚ) * (t.l0h.toNat / 100) ≤ p := by
  rw [longOk, decide_eq_true_iff, frac_mul_ratio_le_iff (by norm_num) (by norm_num)]
  norm_cast
  omega

theorem pilotLong_iff {t : TapeRegs} (hpn : t.pn ≠ 0#32) (p : Nat) :
    pilotLong t p = true ↔ (7 / 2 : ℚ) * (t.ps.toNat / t.pn.toNat) < p := by
  have hpos : (0 : ℚ) < t.pn.toNat := by
    exact_mod_cast Nat.pos_of_ne_zero fun h => hpn (BitVec.eq_of_toNat_eq h)
  rw [pilotLong, decide_eq_true_iff, frac_mul_ratio_lt_iff two_pos hpos, mul_assoc]
  exact_mod_cast Iff.rfl

theorem isOne_iff (t : TapeRegs) (p : Nat) : isOne t p = true ↔ t.cut.toNat < p := decide_eq_true_iff

theorem isZero_iff (t : TapeRegs) (p : Nat) : isZero t p = true ↔ ¬isOne t p = true := by
  rw [isOne_iff, not_lt, isZero, decide_eq_true_iff]

/-- Settles O41: each test by its own comparison. -/
theorem pulseTestsAreRationalComparisons : Obligations.PulseTestsAreRationalComparisons := fun t p =>
  ⟨guardHit_iff t p, leadOk_iff t p, longOk_iff t p, fun hpn => pilotLong_iff hpn p, isOne_iff t p, isZero_iff t p⟩

/-! ### FLOPPY: the sync length and the interval tests (42_floppy.md R90, R96, R101, R102) -/

/-- The sync length `q`, an exact rational (R90). -/
def SyncLen.q (c : SyncLen) : ℚ := c.ss / c.sk

theorem State.cell_eq (s : State) :
    s.cell = ⟨s.floppy.ss.toNat, s.floppy.sk.toNat, s.params.boundNum, s.params.boundDen⟩ := rfl

/-- A fetch fails exactly over the bound (R101). -/
theorem mfmFetch_eq_none_iff {c : SyncLen} {f : Nat} {act : Act} :
    mfmFetch c f act = none ↔ overBound c f = true := by
  cases h : overBound c f <;> simp [mfmFetch, h]

/-- Within the bound, a fetch returns the scaled interval, less half a q after a '1' (R101, R102). -/
theorem mfmFetch_eq_some_iff {c : SyncLen} {f : Nat} {act : Act} {g : Int} :
    mfmFetch c f act = some g ↔
      overBound c f = false ∧ 2 * ((c.sk * f : Nat) : Int) - (if act = .half then (c.ss : Int) else 0) = g := by
  cases h : overBound c f <;> simp [mfmFetch, h]

section SyncLength
variable {c : SyncLen} (hsk : 0 < c.sk)
include hsk

/-- `x` is above `m` quarters of q. -/
theorem SyncLen.quarters_lt_iff (m x : ℚ) : m / 4 * c.q < x ↔ m * c.ss < 4 * (c.sk * x) :=
  frac_mul_ratio_lt_iff four_pos (by exact_mod_cast hsk)

/-- `x` is at least `m` quarters of q. -/
theorem SyncLen.quarters_le_iff (m x : ℚ) : m / 4 * c.q ≤ x ↔ m * c.ss ≤ 4 * (c.sk * x) :=
  frac_mul_ratio_le_iff four_pos (by exact_mod_cast hsk)

/-- The classes of R96: adjacent ranges of the interval, each closed below, the topmost closed above too. -/
theorem cls4_eq (f : Nat) : cls4 c f =
    if 7 / 4 * c.q ≤ f ∧ (f : ℚ) ≤ 9 / 4 * c.q then .four
    else if 5 / 4 * c.q ≤ f ∧ (f : ℚ) < 7 / 4 * c.q then .three
    else if 3 / 4 * c.q ≤ f ∧ (f : ℚ) < 5 / 4 * c.q then .two
    else .star := by
  have atLeast (m : Nat) : m * c.ss ≤ 4 * (c.sk * f) ↔ (m : ℚ) / 4 * c.q ≤ f := by
    rw [SyncLen.quarters_le_iff hsk]; exact_mod_cast Iff.rfl
  have above (m : Nat) : m * c.ss < 4 * (c.sk * f) ↔ (m : ℚ) / 4 * c.q < f := by
    rw [SyncLen.quarters_lt_iff hsk]; exact_mod_cast Iff.rfl
  have below (m : Nat) : 4 * (c.sk * f) < m * c.ss ↔ (f : ℚ) < m / 4 * c.q := lt_iff_lt_of_le_iff_le (atLeast m)
  have atMost (m : Nat) : 4 * (c.sk * f) ≤ m * c.ss ↔ (f : ℚ) ≤ m / 4 * c.q := le_iff_le_iff_lt_iff_lt.2 (above m)
  exact if_congr (and_congr (atLeast 7) (atMost 9)) rfl <|
    if_congr (and_congr (atLeast 5) (below 7)) rfl <| if_congr (and_congr (atLeast 3) (below 5)) rfl rfl

/-- The bound of R101. -/
theorem overBound_iff (hden : 0 < c.den) (f : Nat) :
    overBound c f = true ↔ (c.num : ℚ) / c.den * c.q < f := by
  rw [overBound, decide_eq_true_iff, SyncLen.q,
    frac_mul_ratio_lt_iff (by exact_mod_cast hden) (by exact_mod_cast hsk)]
  exact_mod_cast Iff.rfl

/-- The branches of R102, for the remainder `f` that `g` stands for. -/
theorem mfmBranch_eq {g : Int} {f : ℚ} (hf : f = (g : ℚ) / (2 * c.sk)) : mfmBranch c g =
    if 7 / 4 * c.q < f then ([.zero, .oh], .next)
    else if c.q < f then ([.zero], .same)
    else if 3 / 4 * c.q < f then ([.zero], .next)
    else if f < 1 / 4 * c.q then ([], .next)
    else ([.one], .half) := by
  have hscaled : 4 * (c.sk * f) = 2 * g := by
    have hskq : (c.sk : ℚ) ≠ 0 := by exact_mod_cast hsk.ne'
    rw [hf]; field_simp; ring
  have above (m : Nat) : m * (c.ss : Int) < 2 * g ↔ (m : ℚ) / 4 * c.q < f := by
    rw [SyncLen.quarters_lt_iff hsk, hscaled]; exact_mod_cast Iff.rfl
  have atLeast (m : Nat) : m * (c.ss : Int) ≤ 2 * g ↔ (m : ℚ) / 4 * c.q ≤ f := by
    rw [SyncLen.quarters_le_iff hsk, hscaled]; exact_mod_cast Iff.rfl
  have aboveOne : 2 * (c.ss : Int) < g ↔ c.q < f := by
    have hone : c.q = ((4 : Nat) : ℚ) / 4 * c.q := by norm_num
    rw [hone, ← above 4]; omega
  have belowQuarter : 2 * g < (c.ss : Int) ↔ f < 1 / 4 * c.q := by
    simpa using lt_iff_lt_of_le_iff_le (atLeast 1)
  exact if_congr (above 7) rfl <| if_congr aboveOne rfl <| if_congr (above 3) rfl <| if_congr belowQuarter rfl rfl

/-- What a fetch within the bound returns, as a remainder: the interval, less half a q after a '1' (R101, R102). -/
theorem rem_of_mfmFetch {f : Nat} {act : Act} {g : Int} (h : mfmFetch c f act = some g) :
    (g : ℚ) / (2 * c.sk) = (f : ℚ) - (if act = .half then c.q / 2 else 0) := by
  have hskq : (c.sk : ℚ) ≠ 0 := by exact_mod_cast hsk.ne'
  obtain ⟨-, rfl⟩ := mfmFetch_eq_some_iff.1 h
  by_cases ha : act = .half
  · simp only [if_pos ha, SyncLen.q]; push_cast; field_simp
  · simp only [if_neg ha]; push_cast; field_simp; ring

end SyncLength

/-- Settles O50: each test by its own comparison. -/
theorem fluxTestsAreRationalComparisons : Obligations.FluxTestsAreRationalComparisons := by
  refine ⟨State.cell_eq, fun c q hsk hden hq => ?_⟩
  obtain rfl : q = c.q := hq
  exact ⟨cls4_eq hsk, overBound_iff hsk hden, fun g f hf => mfmBranch_eq hsk hf,
    fun f act => mfmFetch_eq_none_iff, fun f act g h => rem_of_mfmFetch hsk h⟩

end Sys2Proof.Machine
end

section
/-! PROOF. What each command may change and what it may read (20_memory.md R44, 10_state.md R50): the frame of every
command, and the same command in two states that agree on what it reads. -/

namespace Sys2Proof.Machine

/-! ### What a command may change -/

/-- A byte stored changes the TAPE registers, TB and HB (41_tape.md R84). -/
theorem storeByte_frame {b : BitVec 8} {s u : State} (h : storeByte b s = .ok u) :
    u = { s with tape := u.tape, tb := u.tb, hb := u.hb } := by
  rcases storeByte_ok h with ⟨-, -, rfl⟩ | ⟨-, -, rfl⟩ | ⟨-, _, -, rfl⟩ | ⟨-, rfl⟩ <;> rfl

/-- The end of a segment changes the TAPE registers (41_tape.md R85). -/
theorem segmentComplete_frame {s u : State} (h : segmentComplete s = .ok u) : u = { s with tape := u.tape } := by
  rcases segmentComplete_ok h with ⟨-, _, _, _, _, -, -, -, -, rfl⟩ | ⟨-, rfl⟩ | ⟨-, rfl⟩ | ⟨-, rfl⟩ <;> rfl

/-- The step of an impulse changes the TAPE registers, TB and HB (41_tape.md R69). -/
theorem tapeStep_frame {p : Nat} {s u : State} (h : tapeStep p s = .ok u) :
    u = { s with tape := u.tape, tb := u.tb, hb := u.hb } := by
  rcases tapeStep_ok h with ⟨-, rfl⟩ | ⟨-, ⟨-, -, rfl⟩ | ⟨-, rfl⟩⟩ | ⟨-, rfl⟩ | ⟨-, rfl⟩ | ⟨-, -, rfl | rfl⟩ |
    ⟨-, -, -, rfl⟩ | ⟨-, -, -, v, hv, rfl⟩ | ⟨-, -, -, rfl⟩ | ⟨-, -, -, hc⟩
  case inr.inr.inr.inr.inr.inr.inl => rw [storeByte_frame hv]
  case inr.inr.inr.inr.inr.inr.inr.inr => rw [segmentComplete_frame hc]
  all_goals rfl

theorem exec_tpPulse_frame {v : BitVec 24} {s s' : State} (h : exec (.tpPulse v) s = .next s') :
    s' = { s with tape := s'.tape, tb := s'.tb, hb := s'.hb, resp := s'.resp } := by
  rcases execTpPulse_next v s s' h with ⟨rfl, -⟩ | ⟨rfl, -⟩ | ⟨rfl, -⟩ | ⟨-, -, -, -, ⟨u, hu, rfl⟩ | ⟨k, -, rfl⟩⟩
  case inr.inr.inr.inl => rw [tapeStep_frame hu]; rfl
  all_goals rfl

theorem exec_tpEnd_frame {s s' : State} (h : exec .tpEnd s = .next s') :
    s' = { s with tape := s'.tape, resp := s'.resp } := by
  rw [exec] at h
  rcases execTpEnd_cases s with ⟨-, h'⟩ | ⟨-, h'⟩ | ⟨-, h'⟩ | ⟨-, -, -, -, h'⟩ <;> rw [h'] at h <;> cases h <;> rfl

theorem exec_rdreg_frame {r : BitVec 8} {s s' : State} (h : exec (.rdreg r) s = .next s') :
    s' = { s with resp := s'.resp } := by
  simp only [exec, execRdreg] at h
  split at h <;> cases h <;> rfl

theorem exec_wrcfg_frame {ci : BitVec 8} {val : BitVec 16} {s s' : State} (h : exec (.wrcfg ci val) s = .next s') :
    s' = { s with cfg := s'.cfg, resp := s'.resp } := by
  simp only [exec, execWrcfg] at h
  split at h <;> cases h <;> rfl

theorem exec_memrd_frame {sp : BitVec 4} {a : BitVec 20} {s s' : State} (h : exec (.memrd sp a) s = .next s') :
    s' = { s with resp := s'.resp } := by
  simp only [exec, execMemrd] at h
  split at h
  · cases h; rfl
  · split at h
    · cases h; rfl
    · split at h <;> cases h
      rfl

theorem exec_flPush_frame {v : BitVec 24} {s s' : State} (h : exec (.flPush v) s = .next s') :
    s' = { s with floppy := s'.floppy, fm := s'.fm, resp := s'.resp } := by
  rw [exec] at h
  rcases execFlPush_cases v s with ⟨-, h'⟩ | ⟨-, -, h'⟩ | ⟨-, -, h'⟩ | ⟨-, -, -, h'⟩ <;> rw [h'] at h <;>
    cases h <;> rfl

theorem exec_flEst_frame {s s' : State} (h : exec .flEst s = .next s') :
    s' = { s with floppy := s'.floppy, resp := s'.resp } := by
  rw [exec] at h
  rcases execFlEst_cases s with ⟨-, h'⟩ | ⟨-, -, h'⟩ | ⟨-, -, ⟨_, h'⟩ | ⟨_, -, ⟨-, h'⟩ | ⟨_, _, -, h'⟩⟩⟩ <;>
    rw [h'] at h <;> cases h <;> rfl

theorem exec_flFind_frame {s s' : State} (h : exec .flFind s = .next s') :
    s' = { s with floppy := s'.floppy, resp := s'.resp } := by
  rw [exec] at h
  rcases execFlFind_cases s with ⟨-, h'⟩ | ⟨-, -, ⟨_, h'⟩ | ⟨_, -, h'⟩⟩ <;> rw [h'] at h <;> cases h <;> rfl

theorem exec_flSetpos_frame {p : BitVec 21} {s s' : State} (h : exec (.flSetpos p) s = .next s') :
    s' = { s with floppy := s'.floppy, resp := s'.resp } := by
  simp only [exec, execFlSetpos] at h
  split at h
  · cases h; rfl
  · split at h <;> cases h <;> rfl

/-- A decode changes the FLOPPY registers, FB and FOM (42_floppy.md R102 to R104). -/
theorem State.runDecode_frame {s s' : State} {n : Nat} {finish : MfmOut → FloppyRegs → FloppyRegs}
    (h : s.runDecode n finish = .next s') :
    s' = { s with floppy := s'.floppy, fb := s'.fb, fom := s'.fom, resp := s'.resp } := by
  rcases State.runDecode_next h with ⟨rfl, -⟩ | ⟨-, -, rfl⟩ | ⟨-, _, -, rfl⟩ <;> rfl

theorem exec_flRead_frame {n : BitVec 11} {s s' : State} (h : exec (.flRead n) s = .next s') :
    s' = { s with floppy := s'.floppy, fb := s'.fb, fom := s'.fom, resp := s'.resp } := by
  simp only [exec, execFlRead] at h
  split at h
  · cases h; rfl
  · exact State.runDecode_frame h

theorem exec_flData_frame {c : BitVec 2} {s s' : State} (h : exec (.flData c) s = .next s') :
    s' = { s with floppy := s'.floppy, fb := s'.fb, fom := s'.fom, resp := s'.resp } := by
  simp only [exec, execFlData] at h
  split at h
  · cases h; rfl
  · exact State.runDecode_frame h

/-! ### What a command may read -/

/-- Two changes of the next state that agree on the states an outcome leads to. -/
theorem mapNext_congr {o : Host.Outcome State Fault Refusal} {f g : State → State}
    (h : ∀ s', o = .next s' → f s' = g s') : mapNext f o = mapNext g o := by
  cases o with
  | next s => exact congrArg _ (h s rfl)
  | fault r => rfl
  | refused r => rfl

theorem mapNext_mapNext (f g : State → State) (o : Host.Outcome State Fault Refusal) :
    mapNext f (mapNext g o) = mapNext (fun s => f (g s)) o := by
  cases o <;> rfl

/-- RDREG reads the one register of its index. -/
theorem exec_rdreg_reads {r : BitVec 8} {s t : State} (h : t.register r = s.register r) :
    exec (.rdreg r) t = mapNext (fun s' => { t with resp := s'.resp }) (exec (.rdreg r) s) := by
  simp only [exec, execRdreg, h]
  split <;> rfl

/-- MEMRD reads the fill counts, the sizes and the elements of the buffers. -/
theorem exec_memrd_reads {sp : BitVec 4} {a : BitVec 20} {s t : State} (hl : ∀ sp, t.limit sp = s.limit sp)
    (hs : ∀ sp, t.size sp = s.size sp) (he : ∀ sp a, t.element sp a = s.element sp a) :
    exec (.memrd sp a) t = mapNext (fun s' => { t with resp := s'.resp }) (exec (.memrd sp a) s) := by
  have hm : ∀ sp a, t.memRead sp a = s.memRead sp a := fun sp a => by simp only [State.memRead, hs, he]
  simp only [exec, execMemrd, hl, hm]
  split
  · rfl
  · split
    · rfl
    · split <;> rfl

/-- Outside the read_bit phases no byte is stored. -/
theorem storeByte_of_not_segment {b : BitVec 8} {s : State} (h : s.tape.phase.isSegment = false) :
    storeByte b s = .ok s := by
  rcases storeByte_cases b s with ⟨hp, -⟩ | ⟨hp, -⟩ | ⟨hp, -⟩ | ⟨-, h'⟩
  case inr.inr.inr => exact h'
  all_goals simp [hp, Phase.isSegment] at h

/-- Outside the read_bit phases no segment ends. -/
theorem segmentComplete_of_not_segment {s : State} (h : s.tape.phase.isSegment = false) :
    segmentComplete s = .ok s := by
  rcases segmentComplete_cases s with ⟨hp, -⟩ | ⟨hp, -⟩ | ⟨hp, -⟩ | ⟨-, h'⟩
  case inr.inr.inr => exact h'
  all_goals simp [hp, Phase.isSegment] at h

/-- WRCFG reads and changes CFG. -/
theorem exec_wrcfg_graft (ci : BitVec 8) (val : BitVec 16) (s t : State) :
    exec (.wrcfg ci val) { t with cfg := s.cfg } =
      mapNext (fun s' => { t with cfg := s'.cfg, resp := s'.resp }) (exec (.wrcfg ci val) s) := by
  simp only [exec, execWrcfg]
  split <;> rfl

/-- TP_END reads and changes the TAPE registers. -/
theorem exec_tpEnd_graft (s t : State) :
    exec .tpEnd { t with tape := s.tape } =
      mapNext (fun s' => { t with tape := s'.tape, resp := s'.resp }) (exec .tpEnd s) := by
  simp only [exec, execTpEnd]
  split <;> rfl

/-- FL_SETPOS reads and changes the FLOPPY registers. -/
theorem exec_flSetpos_graft (p : BitVec 21) (s t : State) :
    exec (.flSetpos p) { t with floppy := s.floppy } =
      mapNext (fun s' => { t with floppy := s'.floppy, resp := s'.resp }) (exec (.flSetpos p) s) := by
  simp only [exec, execFlSetpos]
  split
  · rfl
  · split <;> rfl

/-- FL_PUSH reads and changes the FLOPPY registers and FM, and reads P_FM_DEPTH. -/
theorem exec_flPush_graft (v : BitVec 24) (s t : State) :
    exec (.flPush v) { t with floppy := s.floppy, params := s.params, fm := s.fm } =
      mapNext (fun s' => { t with params := s.params, floppy := s'.floppy, fm := s'.fm, resp := s'.resp })
        (exec (.flPush v) s) := by
  have hsize : State.size { t with floppy := s.floppy, params := s.params, fm := s.fm } .fm = s.size .fm := rfl
  simp only [exec, execFlPush, hsize]
  repeat' split
  all_goals rfl

/-- FL_EST reads and changes the FLOPPY registers, and reads FM below P_FM_DEPTH. -/
theorem exec_flEst_graft (s t : State) :
    exec .flEst { t with floppy := s.floppy, params := s.params, fm := s.fm } =
      mapNext (fun s' => { t with params := s.params, fm := s.fm, floppy := s'.floppy, resp := s'.resp })
        (exec .flEst s) := by
  have hspan : ∀ a n, State.fluxSpan { t with floppy := s.floppy, params := s.params, fm := s.fm } a n =
      s.fluxSpan a n := fun _ _ => rfl
  simp only [exec, execFlEst, hspan]
  split
  · rfl
  · split
    · rfl
    · split
      next r _ => cases r <;> rfl
      next => split <;> rfl

/-- FL_FIND reads and changes the FLOPPY registers, and reads FM below P_FM_DEPTH. -/
theorem exec_flFind_graft (s t : State) :
    exec .flFind { t with floppy := s.floppy, params := s.params, fm := s.fm } =
      mapNext (fun s' => { t with params := s.params, fm := s.fm, floppy := s'.floppy, resp := s'.resp })
        (exec .flFind s) := by
  have hspan : ∀ a n, State.fluxSpan { t with floppy := s.floppy, params := s.params, fm := s.fm } a n =
      s.fluxSpan a n := fun _ _ => rfl
  simp only [exec, execFlFind, hspan]
  split
  · rfl
  · split
    · rfl
    · split
      next r _ => cases r <;> rfl
      next => rfl

/-- A decode reads and changes the FLOPPY registers, FB and FOM, and reads FM below P_FM_DEPTH, and P_FL_BOUND. -/
theorem State.runDecode_graft (n : Nat) (finish : MfmOut → FloppyRegs → FloppyRegs) (s t : State) :
    State.runDecode { t with floppy := s.floppy, params := s.params, fm := s.fm, fb := s.fb, fom := s.fom } n finish =
      mapNext (fun s' => { t with
          params := s.params, fm := s.fm, floppy := s'.floppy, fb := s'.fb, fom := s'.fom, resp := s'.resp })
        (s.runDecode n finish) := by
  have hfield : State.decodeField { t with
      floppy := s.floppy, params := s.params, fm := s.fm, fb := s.fb, fom := s.fom } n = s.decodeField n := rfl
  simp only [State.runDecode, hfield]
  split
  · rfl
  · split
    next r _ => cases r <;> rfl
    next => rfl

theorem exec_flRead_graft (n : BitVec 11) (s t : State) :
    exec (.flRead n) { t with floppy := s.floppy, params := s.params, fm := s.fm, fb := s.fb, fom := s.fom } =
      mapNext (fun s' => { t with
          params := s.params, fm := s.fm, floppy := s'.floppy, fb := s'.fb, fom := s'.fom, resp := s'.resp })
        (exec (.flRead n) s) := by
  simp only [exec, execFlRead]
  split
  · rfl
  · exact State.runDecode_graft _ _ s t

theorem exec_flData_graft (c : BitVec 2) (s t : State) :
    exec (.flData c) { t with floppy := s.floppy, params := s.params, fm := s.fm, fb := s.fb, fom := s.fom } =
      mapNext (fun s' => { t with
          params := s.params, fm := s.fm, floppy := s'.floppy, fb := s'.fb, fom := s'.fom, resp := s'.resp })
        (exec (.flData c) s) := by
  simp only [exec, execFlData]
  split
  · rfl
  · exact State.runDecode_graft _ _ s t

/-- `t` with what TAPE reads taken from `s`, but CFG_DBG set to `d` and TP_WARN changed by `g`. -/
def State.graftTape (t : State) (d : BitVec 16) (g : BitVec 3 → BitVec 3) (s : State) : State :=
  { t with
    tape := { s.tape with warn := g s.tape.warn }
    cfg := { s.cfg with dbg := d }
    tb := s.tb
    hb := s.hb }

section Graft
variable (t : State) (d : BitVec 16) (g : BitVec 3 → BitVec 3)

/-- A byte is stored alike in a grafted state (41_tape.md R84). -/
theorem storeByte_graft (b : BitVec 8) (s : State) :
    storeByte b (t.graftTape d g s) = (storeByte b s).map (t.graftTape d g) := by
  rcases storeByte_cases b s with ⟨hp, h⟩ | ⟨hp, h⟩ | ⟨hp, h⟩ | ⟨hp, h⟩ <;> rw [h]
  · by_cases hfull : 20 ≤ s.tape.hcnt.toNat <;>
      simp [storeByte, storeHeader, State.writeHb, State.size, State.graftTape, hp, hfull, Except.map]
  · by_cases hfull : 65536 ≤ s.tape.bcnt.toNat <;>
      simp [storeByte, storeBody, State.writeTb, State.size, State.graftTape, hp, hfull, Except.map]
  · cases hput : putByte s.tape.ckread s.tape.ccnt.toNat b <;>
      simp [storeByte, storeChecksum, State.graftTape, hp, hput, Except.map]
  · exact storeByte_of_not_segment hp

theorem segmentComplete_graft (s : State) :
    segmentComplete (t.graftTape d g s) = (segmentComplete s).map (t.graftTape d g) := by
  rcases segmentComplete_cases s with ⟨hp, h⟩ | ⟨hp, h⟩ | ⟨hp, h⟩ | ⟨hp, h⟩ <;> rw [h]
  · have hb : ∀ a, (t.graftTape d g s).headerByte a = s.headerByte a := fun a => rfl
    simp only [segmentComplete, unpackHeader, hb, bind, Except.bind]
    rw [show (t.graftTape d g s).tape.phase = .readHeader from hp]
    dsimp only
    cases s.headerByte 0
    · rfl
    cases s.headerByte 1
    · rfl
    cases s.headerByte 2
    · rfl
    cases s.headerByte 3 <;> rfl
  · simp only [segmentComplete, State.graftTape, hp]; rfl
  · simp only [segmentComplete, State.graftTape, hp]; rfl
  · exact segmentComplete_of_not_segment hp

theorem dataBitStep_graft (p : Nat) (s : State) :
    dataBitStep p (t.graftTape d g s) = (dataBitStep p s).map (t.graftTape d g) := by
  have hstore := storeByte_graft t d g (shiftIn s.tape.acc (isOne s.tape p)) s
  rcases dataBitStep_cases p s with ⟨hb, h⟩ | ⟨hb, h⟩ <;>
    rcases dataBitStep_cases p (t.graftTape d g s) with ⟨hb', h'⟩ | ⟨hb', h'⟩
  · rw [h, h']; rfl
  · exact absurd hb' hb
  · exact absurd hb hb'
  · rw [h, h']
    refine (congrArg _ hstore).trans ?_
    cases storeByte (shiftIn s.tape.acc (isOne s.tape p)) s <;> rfl

theorem syncBitStep_graft (p : Nat) (s : State) :
    syncBitStep p (t.graftTape d g s) = (syncBitStep p s).map (t.graftTape d g) := by
  have hzero : isZero (t.graftTape d g s).tape p = isZero s.tape p := rfl
  cases hz : isZero s.tape p
  · simp [syncBitStep, hzero, hz, Except.map]
  · simp only [syncBitStep, hzero, hz, Bool.not_true, Bool.false_eq_true, if_false]
    by_cases hr : s.tape.rem = 0#16
    · rw [if_pos hr]
      exact (if_pos hr).trans (segmentComplete_graft t d g { s with tape := { s.tape with syncph := false } })
    · rw [if_neg hr]
      exact (if_neg hr).trans rfl

theorem readBitStep_graft (p : Nat) (s : State) :
    readBitStep p (t.graftTape d g s) = (readBitStep p s).map (t.graftTape d g) := by
  have hguard : guardHit (t.graftTape d g s).tape p = guardHit s.tape p := rfl
  have hsync : (t.graftTape d g s).tape.syncph = s.tape.syncph := rfl
  cases hg : guardHit s.tape p <;> cases hs : s.tape.syncph <;>
    simp only [readBitStep, hguard, hsync, hg, hs, if_true, if_false, Bool.false_eq_true]
  · exact dataBitStep_graft t d g p s
  · exact syncBitStep_graft t d g p s
  all_goals rfl

/-- The step of an impulse reads and changes what TAPE owns, and CFG (41_tape.md R69). -/
theorem tapeStep_graft (p : Nat) (s : State) :
    tapeStep p (t.graftTape d id s) = (tapeStep p s).map (t.graftTape d id) := by
  have hphase : (t.graftTape d id s).tape.phase = s.tape.phase := rfl
  have onTape (r : Except Stop TapeRegs) : (t.graftTape d id s).onTape r = (s.onTape r).map (t.graftTape d id) := by
    cases r <;> rfl
  cases hp : s.tape.phase <;> simp only [tapeStep, hphase, hp]
  case findPilot | headerMarker | bodyMarker | endTrailer => exact onTape _
  case readHeader | readData | cksum => exact readBitStep_graft t d id p s
  all_goals rfl

/-- TP_PULSE reads what TAPE owns, and CFG but for CFG_DBG (41_tape.md R69). -/
theorem exec_tpPulse_graft (v : BitVec 24) (s : State) :
    exec (.tpPulse v) (t.graftTape d id s) =
      mapNext (fun s' => { t.graftTape d id s' with resp := s'.resp }) (exec (.tpPulse v) s) := by
  have hphase : (t.graftTape d id s).tape.phase = s.tape.phase := rfl
  simp only [exec]
  rcases execTpPulse_cases v s with ⟨hv, h⟩ | ⟨hv, hp, h⟩ | ⟨hv, hp, h⟩ | ⟨hv, hi, hf, hd, h⟩ <;> rw [h]
  · simp only [execTpPulse, hv, if_true]; rfl
  · rcases hp with hp | hp <;> simp only [execTpPulse, hv, hphase, hp, if_false] <;> rfl
  · simp only [execTpPulse, hv, hphase, hp, if_false]; rfl
  · rw [execTpPulse_step (s := t.graftTape d id s) hv hi hf hd, tapeStep_graft]
    rcases tapeStep v.toNat s with (_ | _) | u <;> rfl

end Graft

/-- TP_PULSE reads and changes what TAPE owns, and reads CFG. -/
theorem exec_tpPulse_reads (v : BitVec 24) {s t : State} (ht : t.tape = s.tape) (hc : t.cfg = s.cfg)
    (htb : t.tb = s.tb) (hhb : t.hb = s.hb) :
    exec (.tpPulse v) t =
      mapNext (fun s' => { t with tape := s'.tape, tb := s'.tb, hb := s'.hb, resp := s'.resp })
        (exec (.tpPulse v) s) := by
  have hgraft : t.graftTape s.cfg.dbg id s = t := by
    show ({ t with tape := s.tape, cfg := s.cfg, tb := s.tb, hb := s.hb } : State) = t
    rw [← ht, ← hc, ← htb, ← hhb]
  rw [← hgraft, exec_tpPulse_graft, hgraft]
  refine mapNext_congr fun s' hs' => ?_
  rw [exec_tpPulse_frame hs']
  show ({ t with cfg := s.cfg, tape := s'.tape, tb := s'.tb, hb := s'.hb, resp := s'.resp } : State) = _
  rw [← hc]

/-! ### The statement -/

/-- Settles O17: the frame of every command, then the fields it reads, of which another state's may take the place. -/
theorem unitsShareNothing : Obligations.UnitsShareNothing := by
  constructor
  · intro i s s' h
    cases i
    case rdreg => exact exec_rdreg_frame h
    case wrcfg => exact exec_wrcfg_frame h
    case memrd => exact exec_memrd_frame h
    case tpPulse => exact exec_tpPulse_frame h
    case tpEnd => exact exec_tpEnd_frame h
    case flPush => exact exec_flPush_frame h
    case flEst => exact exec_flEst_frame h
    case flFind => exact exec_flFind_frame h
    case flSetpos => exact exec_flSetpos_frame h
    case flRead => exact exec_flRead_frame h
    case flHdr => exact State.runDecode_frame h
    case flData => exact exec_flData_frame h
    all_goals cases h; rfl
  · intro i s t
    cases i
    case nop | crcInit | crcMark | addInit | tpStart | flClear => rfl
    case crcByte b => intro h; exact congrArg (fun c => Host.Outcome.next (t.setCrc (crcByte c b))) h
    case crcCheck w => intro h; exact congrArg (fun c => Host.Outcome.next (t.answerBool (c == w))) h
    case addByte b => intro h; exact congrArg (fun v => Host.Outcome.next (t.setSum (eacAdd v (b.setWidth 16)))) h
    case addWord w => intro h; exact congrArg (fun v => Host.Outcome.next (t.setSum (eacAdd v w))) h
    case addCheck w => intro h; exact congrArg (fun v => Host.Outcome.next (t.answerBool (v == w))) h
    case reset =>
      intro hp
      exact congrArg (fun p => Host.Outcome.next
        (({ t.resetRegisters with cfg := ConfigRegs.reset p } : State).respond .ok 0#32)) hp
    case rdreg =>
      intro hcrc hsum ht hf hc
      exact exec_rdreg_reads (by simp only [State.register, hcrc, hsum, ht, hf, hc])
    case memrd =>
      intro ht hf hp htb hhb hfb hfom hfm
      exact exec_memrd_reads (fun sp => by cases sp <;> simp only [State.limit, ht, hf])
        (fun sp => by cases sp <;> simp only [State.size, hp])
        (fun sp a => by cases sp <;> simp only [State.element, htb, hhb, hfb, hfom, hfm])
    case wrcfg ci val =>
      intro hc
      have h := exec_wrcfg_graft ci val s t
      rwa [← hc] at h
    case tpPulse v => exact exec_tpPulse_reads v
    case tpEnd =>
      intro ht
      have h := exec_tpEnd_graft s t
      rwa [← ht] at h
    case flSetpos p =>
      intro hf
      have h := exec_flSetpos_graft p s t
      rwa [← hf] at h
    case flPush v =>
      intro hf hp hm
      have h := exec_flPush_graft v s t
      rwa [← hf, ← hp, ← hm] at h
    case flEst =>
      intro hf hp hm
      have h := exec_flEst_graft s t
      rwa [← hf, ← hp, ← hm] at h
    case flFind =>
      intro hf hp hm
      have h := exec_flFind_graft s t
      rwa [← hf, ← hp, ← hm] at h
    case flRead n =>
      intro hf hp hm hfb hfom
      have h := exec_flRead_graft n s t
      rwa [← hf, ← hp, ← hm, ← hfb, ← hfom] at h
    case flHdr =>
      intro hf hp hm hfb hfom
      have h := State.runDecode_graft 10 finishHeader s t
      rwa [← hf, ← hp, ← hm, ← hfb, ← hfom] at h
    case flData c =>
      intro hf hp hm hfb hfom
      have h := exec_flData_graft c s t
      rwa [← hf, ← hp, ← hm, ← hfb, ← hfom] at h

end Sys2Proof.Machine
end

section
/-! PROOF. The invariant of the TAPE registers (41_tape.md): what starts, fails or advances a read keeps it. -/

namespace Sys2Proof.Machine

/-- In every phase the byte counters fit their buffers. -/
theorem TapeRegs.Progress.counters {t : TapeRegs} (h : t.Progress) :
    t.hcnt.toNat ≤ 20 ∧ t.bcnt.toNat ≤ 65535 ∧ t.ccnt.toNat ≤ 2 := by
  have hlen := t.length.isLt
  cases hp : t.phase <;> simp only [TapeRegs.Progress, hp] at h
  case idle => rw [h]; decide
  case fatal => exact h
  case findPilot | pilotFound | pilotFound2 | headerMarker | bodyMarker =>
    obtain ⟨-, hh, hb, hc, -⟩ := h; rw [hh, hb, hc]; decide
  case readHeader => obtain ⟨-, hh, hb, hc, -⟩ := h; rw [hb, hc]; exact ⟨by omega, by decide, by decide⟩
  case readData => obtain ⟨-, hh, hb, hc, -⟩ := h; rw [hh, hc]; exact ⟨by decide, by omega, by decide⟩
  case cksum => obtain ⟨-, hh, hb, hc, -⟩ := h; rw [hh]; exact ⟨by decide, by omega, by omega⟩
  case endTrailer | done => obtain ⟨-, hh, hb, hc, -⟩ := h; rw [hh, hc]; exact ⟨by decide, by omega, by decide⟩

theorem TapeRegs.inv_reset : TapeRegs.reset.Inv where
  err := by decide
  progress := rfl
  mid := by decide
  pilot := by decide

/-- The read that TP_START begins (R68). -/
theorem TapeRegs.inv_start : ({ TapeRegs.reset with phase := .findPilot } : TapeRegs).Inv where
  err := by decide
  progress := ⟨rfl, rfl, rfl, rfl, rfl⟩
  mid := by decide
  pilot := by decide

/-- A fatal error needs of the progress only that the counters fit (60_exceptions.md R131). -/
theorem TapeRegs.Inv.fail {t : TapeRegs} (h : t.Inv) {k : ErrKind} (hk : k ≠ .none) :
    ({ t with phase := .fatal, err := k } : TapeRegs).Inv where
  err := by simp [hk]
  progress := h.progress.counters
  mid := h.mid
  pilot := h.pilot

/-- Outside FATAL no error kind is held. -/
theorem TapeRegs.Inv.err_none {t : TapeRegs} (h : t.Inv) (hp : t.phase ≠ .fatal) : t.err = .none := by
  by_contra he
  exact hp (h.err.2 he)

/-- The invariant of a read in progress: what a phase asks for, with no error held. -/
theorem TapeRegs.inv_of_progress {t : TapeRegs} (hp : t.phase ≠ .fatal) (herr : t.err = .none) (hprog : t.Progress)
    (hmid : t.msub = .mid → t.mcnt ≠ 0#16) (hpilot : t.ps.toNat ≤ t.pn.toNat * 16777215) : t.Inv :=
  ⟨by simp [hp, herr], hprog, hmid, hpilot⟩

/-- A marker starts in LEAD, with its parameters latched (R75). -/
theorem startMarker_frame (k : MarkerKind) (c : ConfigRegs) (t : TapeRegs) :
    startMarker k c t = { t with
      msub := .lead, mfic := (startMarker k c t).mfic, mcnt := (startMarker k c t).mcnt
      mlenient := (startMarker k c t).mlenient } := by
  cases k <;> rfl

@[simp] theorem startMarker_msub (k : MarkerKind) (c : ConfigRegs) (t : TapeRegs) :
    (startMarker k c t).msub = .lead := by
  rw [startMarker_frame]

/-- The invariant of a read whose marker starts: no impulse of the marker has come yet (R75). -/
theorem TapeRegs.inv_startMarker {k : MarkerKind} {c : ConfigRegs} {t : TapeRegs} (hp : t.phase ≠ .fatal)
    (herr : t.err = .none) (hprog : (startMarker k c t).Progress) (hpilot : t.ps.toNat ≤ t.pn.toNat * 16777215) :
    (startMarker k c t).Inv := by
  refine TapeRegs.inv_of_progress ?_ ?_ hprog (by simp) ?_ <;> rw [startMarker_frame] <;> assumption

/-- The invariant of a read whose segment begins: it is outside the markers (R79). -/
theorem TapeRegs.inv_enterSegment {t : TapeRegs} {ph : Phase} {k : BitVec 16} (hp : ph ≠ .fatal)
    (herr : t.err = .none) (hprog : (t.enterSegment ph k).Progress) (hpilot : t.ps.toNat ≤ t.pn.toNat * 16777215) :
    (t.enterSegment ph k).Inv :=
  TapeRegs.inv_of_progress hp herr hprog (by simp [TapeRegs.enterSegment]) hpilot

/-- The warning bits are free once a read has begun (10_state.md R23). -/
theorem TapeRegs.Inv.withWarn {t : TapeRegs} (h : t.Inv) (hp : t.phase ≠ .idle) (w : BitVec 3) :
    ({ t with warn := w } : TapeRegs).Inv := by
  refine ⟨h.err, ?_, h.mid, h.pilot⟩
  have hprog := h.progress
  unfold TapeRegs.Progress at hprog ⊢
  cases hp' : t.phase <;> simp only [hp'] at hp hprog ⊢
  case idle => exact absurd rfl hp
  all_goals exact hprog

/-! ### The pilot (R71 to R74) -/

/-- One more impulse of 24 bits keeps TP_PS below its bound, and inside its width. -/
theorem pilotSum_le {ps : BitVec 64} {pn : BitVec 32} {p : Nat} (h : ps.toNat ≤ pn.toNat * 16777215)
    (hp : p < 16777216) (hpn : pn.toNat ≠ 4294967295) :
    (ps + BitVec.ofNat 64 p).toNat ≤ (pn + 1#32).toNat * 16777215 := by
  have hlt := pn.isLt
  have hsum : (ps + BitVec.ofNat 64 p).toNat ≤ ps.toNat + p := by
    rw [BitVec.toNat_add, BitVec.toNat_ofNat]
    exact (Nat.mod_le _ _).trans (Nat.add_le_add_left (Nat.mod_le _ _) _)
  have hcount : (pn + 1#32).toNat = pn.toNat + 1 := by
    rw [BitVec.toNat_add, BitVec.toNat_ofNat]; omega
  rw [hcount]; omega

theorem TapeRegs.Inv.countPilot {t : TapeRegs} (h : t.Inv) (hph : t.phase = .findPilot) {p : Nat}
    (hp : p < 16777216) (hpn : t.pn.toNat ≠ 4294967295) :
    ({ t with ps := t.ps + BitVec.ofNat 64 p, pn := t.pn + 1#32 } : TapeRegs).Inv := by
  have hprog := h.progress
  simp only [TapeRegs.Progress, hph] at hprog
  refine TapeRegs.inv_of_progress (by simp [hph]) (h.err_none (by simp [hph])) ?_ h.mid (pilotSum_le h.pilot hp hpn)
  simpa only [TapeRegs.Progress, hph] using hprog

theorem TapeRegs.Inv.endPilot {t : TapeRegs} (h : t.Inv) (hph : t.phase = .findPilot) (l0h cut : BitVec 32) :
    ({ t with l0h := l0h, cut := cut, phase := .pilotFound } : TapeRegs).Inv := by
  have hprog := h.progress
  simp only [TapeRegs.Progress, hph] at hprog
  exact TapeRegs.inv_of_progress (by simp) (h.err_none (by simp [hph])) hprog h.mid h.pilot

/-- The first impulse after the pilot writes the warnings and the phase (R73). -/
theorem pilotFoundStep_frame (p : Nat) (t : TapeRegs) :
    pilotFoundStep p t = { t with warn := (pilotFoundStep p t).warn, phase := .pilotFound2 } := by
  unfold pilotFoundStep
  split <;> rfl

/-- The second writes the warnings, and starts the header marker (R74, R75). -/
theorem pilotFound2Step_frame (p : Nat) (c : ConfigRegs) (t : TapeRegs) :
    pilotFound2Step p c t =
      startMarker .hdr c { t with warn := (pilotFound2Step p c t).warn, phase := .headerMarker } := by
  unfold pilotFound2Step
  split <;> rfl

theorem TapeRegs.Inv.pilotFoundStep {t : TapeRegs} (h : t.Inv) (hph : t.phase = .pilotFound) (p : Nat) :
    (pilotFoundStep p t).Inv := by
  have hprog := h.progress
  simp only [TapeRegs.Progress, hph] at hprog
  rw [pilotFoundStep_frame]
  exact TapeRegs.inv_of_progress (by simp) (h.err_none (by simp [hph])) hprog h.mid h.pilot

theorem TapeRegs.Inv.pilotFound2Step {t : TapeRegs} (h : t.Inv) (hph : t.phase = .pilotFound2) (p : Nat)
    (c : ConfigRegs) : (pilotFound2Step p c t).Inv := by
  have hprog := h.progress
  simp only [TapeRegs.Progress, hph] at hprog
  obtain ⟨-, hcounts⟩ := hprog
  rw [pilotFound2Step_frame]
  exact TapeRegs.inv_startMarker (by simp) (h.err_none (by simp [hph])) ⟨by simp, hcounts⟩ h.pilot

/-! ### The markers (R75 to R78, R86) -/

/-- In a marker phase any open sub-state may come next; MID needs impulses still to consume (R76). -/
theorem TapeRegs.Inv.withMarkerSub {t : TapeRegs} (h : t.Inv) (hph : t.phase.isMarker = true) {m : MarkerSub}
    {c : BitVec 16} (hm : m ≠ .none) (hmid : m = .mid → c ≠ 0#16) :
    ({ t with msub := m, mcnt := c } : TapeRegs).Inv := by
  have hprog := h.progress
  refine ⟨h.err, ?_, hmid, h.pilot⟩
  unfold TapeRegs.Progress at hprog ⊢
  cases hp : t.phase <;> simp only [hp, Phase.isMarker, reduceCtorEq] at hph hprog ⊢
  all_goals exact ⟨hm, hprog.2⟩

/-- A completed marker leads to a segment that has all its bytes to come, or to DONE (R78, R86). -/
theorem TapeRegs.Inv.completeMarker {t : TapeRegs} (h : t.Inv) (hph : t.phase.isMarker = true)
    (hm : t.msub = .sync0) : t.advance.Inv := by
  have hprog := h.progress
  unfold TapeRegs.Progress at hprog
  have herr : t.err = .none := h.err_none (by rintro hf; simp [hf, Phase.isMarker] at hph)
  cases hp : t.phase <;> simp only [hp, Phase.isMarker, reduceCtorEq] at hph hprog <;>
    simp only [TapeRegs.advance, hm, hp]
  case headerMarker =>
    obtain ⟨-, hh, hb, hc, hk⟩ := hprog
    exact TapeRegs.inv_enterSegment (by simp) herr
      ⟨rfl, by simp [TapeRegs.enterSegment, hh], hb, hc, hk, by simp [TapeRegs.enterSegment]⟩ h.pilot
  case bodyMarker =>
    obtain ⟨-, hh, hb, hc, hk⟩ := hprog
    split
    next hlen =>
      exact TapeRegs.inv_enterSegment (by simp) herr
        ⟨rfl, hh, by simp [TapeRegs.enterSegment, hb, hlen], by simp [TapeRegs.enterSegment, hc], hk,
          by simp [TapeRegs.enterSegment]⟩ h.pilot
    next hlen =>
      exact TapeRegs.inv_enterSegment (by simp) herr
        ⟨rfl, hh, by simp [TapeRegs.enterSegment, hb], hc, hk, by simp [TapeRegs.enterSegment, hlen]⟩ h.pilot
  case endTrailer =>
    obtain ⟨-, hrest⟩ := hprog
    exact TapeRegs.inv_of_progress (by simp) herr ⟨rfl, hrest⟩ (by simp) h.pilot

/-- The marker step keeps the invariant, sub-state by sub-state (R76). -/
theorem TapeRegs.Inv.advance {t : TapeRegs} (h : t.Inv) (hph : t.phase.isMarker = true) : t.advance.Inv := by
  cases hm : t.msub
  case none => simpa only [TapeRegs.advance, hm] using h
  case sync0 => exact h.completeMarker hph hm
  case lead =>
    simp only [TapeRegs.advance, hm]
    exact h.withMarkerSub hph (by split <;> simp) (by split <;> simp_all)
  case mid =>
    simp only [TapeRegs.advance, hm]
    refine h.withMarkerSub hph (by split <;> simp) ?_
    split
    · simp
    · bv_omega
  case final => simp only [TapeRegs.advance, hm]; exact h.withMarkerSub hph (by simp) (by simp)
  case sync1 => simp only [TapeRegs.advance, hm]; exact h.withMarkerSub hph (by simp) (by simp)

/-- A marker step writes only the registers of the marker and of the segment it leads to. -/
theorem TapeRegs.advance_frame (t : TapeRegs) :
    t.advance = { t with
      phase := t.advance.phase, msub := t.advance.msub, mcnt := t.advance.mcnt, rem := t.advance.rem
      acc := t.advance.acc, bitcnt := t.advance.bitcnt, syncph := t.advance.syncph } := by
  cases hm : t.msub <;> simp only [TapeRegs.advance, hm]
  case none => rw [← hm]
  case sync0 =>
    cases t.phase
    case bodyMarker => dsimp only; split <;> rfl
    all_goals rfl

@[simp] theorem TapeRegs.advance_hcnt (t : TapeRegs) : t.advance.hcnt = t.hcnt := by rw [t.advance_frame]
@[simp] theorem TapeRegs.advance_bcnt (t : TapeRegs) : t.advance.bcnt = t.bcnt := by rw [t.advance_frame]
@[simp] theorem TapeRegs.advance_cut (t : TapeRegs) : t.advance.cut = t.cut := by rw [t.advance_frame]
@[simp] theorem TapeRegs.advance_l0h (t : TapeRegs) : t.advance.l0h = t.l0h := by rw [t.advance_frame]

/-! ### The segments (R79 to R87) -/

/-- A data bit that completes no byte: the next impulse is a sync bit (R82). -/
theorem TapeRegs.Inv.shiftBit {t : TapeRegs} (h : t.Inv) (hph : t.phase.isSegment = true) (a : BitVec 8)
    (n : BitVec 3) : ({ t with acc := a, bitcnt := n, syncph := true } : TapeRegs).Inv := by
  have hprog := h.progress
  refine ⟨h.err, ?_, h.mid, h.pilot⟩
  unfold TapeRegs.Progress at hprog ⊢
  cases hp : t.phase <;> simp only [hp, Phase.isSegment, reduceCtorEq] at hph hprog ⊢
  all_goals
    obtain ⟨hm, hh, hb, hc, hk, -⟩ := hprog
    exact ⟨hm, hh, hb, hc, hk, by simp⟩

/-- A sync bit with bytes still to come: the next impulse is a data bit (R83). -/
theorem TapeRegs.Inv.syncBit {t : TapeRegs} (h : t.Inv) (hph : t.phase.isSegment = true) (hr : t.rem ≠ 0#16) :
    ({ t with syncph := false } : TapeRegs).Inv := by
  have hprog := h.progress
  refine ⟨h.err, ?_, h.mid, h.pilot⟩
  unfold TapeRegs.Progress at hprog ⊢
  cases hp : t.phase <;> simp only [hp, Phase.isSegment, reduceCtorEq] at hph hprog ⊢
  all_goals
    obtain ⟨hm, hh, hb, hc, hk, -⟩ := hprog
    exact ⟨hm, hh, hb, hc, hk, fun _ => hr⟩

/-- The registers once a byte is stored: one byte fewer to come, a sync bit next (R82). -/
def TapeRegs.byteStored (t : TapeRegs) : TapeRegs :=
  { t with rem := t.rem - 1#16, acc := 0#8, bitcnt := 0#3, syncph := true }

theorem TapeRegs.Inv.storeHeader {t : TapeRegs} (h : t.Inv) (hph : t.phase = .readHeader) (hs : t.syncph = false) :
    ({ t with hcnt := t.hcnt + 1#5 } : TapeRegs).byteStored.Inv := by
  have hprog := h.progress
  simp only [TapeRegs.Progress, hph] at hprog
  obtain ⟨hm, hsum, hb, hc, hk, hr⟩ := hprog
  have hr := hr hs
  refine ⟨h.err, ?_, h.mid, h.pilot⟩
  simp only [TapeRegs.Progress, TapeRegs.byteStored, hph]
  exact ⟨hm, by bv_omega, hb, hc, hk, by simp⟩

theorem TapeRegs.Inv.storeBody {t : TapeRegs} (h : t.Inv) (hph : t.phase = .readData) (hs : t.syncph = false)
    (sum : BitVec 16) : ({ t with bcnt := t.bcnt + 1#17, sum := sum } : TapeRegs).byteStored.Inv := by
  have hprog := h.progress
  simp only [TapeRegs.Progress, hph] at hprog
  obtain ⟨hm, hh, hsum, hc, hk, hr⟩ := hprog
  have hr := hr hs
  refine ⟨h.err, ?_, h.mid, h.pilot⟩
  simp only [TapeRegs.Progress, TapeRegs.byteStored, hph]
  exact ⟨hm, hh, by bv_omega, hc, hk, by simp⟩

theorem TapeRegs.Inv.storeChecksum {t : TapeRegs} (h : t.Inv) (hph : t.phase = .cksum) (hs : t.syncph = false)
    (ck : BitVec 16) : ({ t with ckread := ck, ccnt := t.ccnt + 1#2 } : TapeRegs).byteStored.Inv := by
  have hprog := h.progress
  simp only [TapeRegs.Progress, hph] at hprog
  obtain ⟨hm, hh, hb, hsum, hk, hr⟩ := hprog
  have hr := hr hs
  refine ⟨h.err, ?_, h.mid, h.pilot⟩
  simp only [TapeRegs.Progress, TapeRegs.byteStored, hph]
  exact ⟨hm, hh, hb, by bv_omega, hk, by simp⟩

/-- The header segment ends with its twenty bytes stored, and no body byte yet (R85). -/
theorem TapeRegs.Inv.headerDone {t : TapeRegs} (h : t.Inv) (hph : t.phase = .readHeader) (hr : t.rem = 0#16)
    (b0 b1 b2 b3 : BitVec 8) (c : ConfigRegs) : (headerDone b0 b1 b2 b3 c { t with syncph := false }).Inv := by
  have hprog := h.progress
  simp only [TapeRegs.Progress, hph] at hprog
  obtain ⟨-, hsum, hb, hc, hk, -⟩ := hprog
  have hfull : t.hcnt = 20#5 := by bv_omega
  exact TapeRegs.inv_startMarker (by simp) (h.err_none (by simp [hph])) ⟨by simp, hfull, hb, hc, hk⟩ h.pilot

/-- The body segment ends with its TP_LENGTH bytes stored, and the two checksum bytes to come (R85). -/
theorem TapeRegs.Inv.bodyDone {t : TapeRegs} (h : t.Inv) (hph : t.phase = .readData) (hr : t.rem = 0#16) :
    (beginSegment 2#16 { t with phase := .cksum, syncph := false }).Inv := by
  have hprog := h.progress
  simp only [TapeRegs.Progress, hph] at hprog
  obtain ⟨hm, hh, hsum, hc, hk, -⟩ := hprog
  have hfull : t.bcnt.toNat = t.length.toNat := by bv_omega
  exact TapeRegs.inv_of_progress (by simp [beginSegment]) (h.err_none (by simp [hph]))
    ⟨hm, hh, hfull, by simp [beginSegment, hc], hk, by simp [beginSegment]⟩ h.mid h.pilot

/-- The checksum segment ends with its two bytes read, and TP_CKSTAT says whether they agree (R85, R87). -/
theorem TapeRegs.Inv.checksumDone {t : TapeRegs} (h : t.Inv) (hph : t.phase = .cksum) (hr : t.rem = 0#16)
    (c : ConfigRegs) : (checksumDone c { t with syncph := false }).Inv := by
  have hprog := h.progress
  simp only [TapeRegs.Progress, hph] at hprog
  obtain ⟨-, hh, hb, hsum, -, -⟩ := hprog
  have hfull : t.ccnt = 2#2 := by bv_omega
  exact TapeRegs.inv_startMarker (by simp) (h.err_none (by simp [hph])) ⟨by simp, hh, hb, hfull, rfl⟩ h.pilot

/-! ### TAPE commands -/

/-- A response is no part of the invariant. -/
theorem State.Inv.respond {s : State} (h : s.Inv) (code : RespCode) (data : Word) : (s.respond code data).Inv :=
  ⟨h.params, h.cfg, h.tape, h.floppy, ⟨h.buffers.tb, h.buffers.hb, h.buffers.fb, h.buffers.fom, h.buffers.fm⟩, h.flux⟩

/-- TAPE registers that count no more bytes than before find their bytes in the buffers as they are. -/
theorem State.Inv.withTape {s : State} (h : s.Inv) {t : TapeRegs} (ht : t.Inv)
    (hb : t.bcnt.toNat ≤ s.tape.bcnt.toNat) (hh : t.hcnt.toNat ≤ s.tape.hcnt.toNat) :
    ({ s with tape := t } : State).Inv :=
  ⟨h.params, h.cfg, ht, h.floppy,
    ⟨h.buffers.tb.lower hb, h.buffers.hb.lower hh, h.buffers.fb, h.buffers.fom, h.buffers.fm⟩, h.flux⟩

theorem State.Inv.failTape {s : State} (h : s.Inv) {k : ErrKind} (hk : k ≠ .none) : (s.failTape k).Inv :=
  (h.withTape (h.tape.fail hk) le_rfl le_rfl).respond _ _

/-- A byte stored keeps the invariant: it is written at the fill count, which it raises (R82, R84). -/
theorem State.Inv.storeByte {s u : State} (h : s.Inv) (hph : s.tape.phase.isSegment = true)
    (hs : s.tape.syncph = false) {b : BitVec 8} (hu : storeByte b s = .ok u) :
    ({ u with tape := u.tape.byteStored } : State).Inv := by
  obtain ⟨htb, hhb, hfb, hfom, hfm⟩ := h.buffers
  rcases storeByte_ok hu with ⟨hp, hlt, rfl⟩ | ⟨hp, hlt, rfl⟩ | ⟨hp, ck, -, rfl⟩ | ⟨hp, rfl⟩
  · have hinc : (s.tape.hcnt + 1#5).toNat = s.tape.hcnt.toNat + 1 := by bv_omega
    have happ := hhb.append b hlt
    rw [State.limit, ← hinc] at happ
    exact ⟨h.params, h.cfg, h.tape.storeHeader hp hs, h.floppy, ⟨htb, happ, hfb, hfom, hfm⟩, h.flux⟩
  · have hinc : (s.tape.bcnt + 1#17).toNat = s.tape.bcnt.toNat + 1 := by bv_omega
    have happ := htb.append b hlt
    rw [State.limit, ← hinc] at happ
    exact ⟨h.params, h.cfg, h.tape.storeBody hp hs _, h.floppy, ⟨happ, hhb, hfb, hfom, hfm⟩, h.flux⟩
  · exact h.withTape (h.tape.storeChecksum hp hs ck) le_rfl le_rfl
  · exact absurd hph (by simp [hp])

/-- The end of a segment keeps the invariant (R85): TP_REM = 0 makes the byte counters full. -/
theorem State.Inv.segmentComplete {s u : State} (h : s.Inv) (hr : s.tape.rem = 0#16)
    (hu : segmentComplete { s with tape := { s.tape with syncph := false } } = .ok u)
    (hph : s.tape.phase.isSegment = true) : u.Inv := by
  rcases segmentComplete_ok hu with ⟨hp, b0, b1, b2, b3, -, -, -, -, rfl⟩ | ⟨hp, rfl⟩ | ⟨hp, rfl⟩ | ⟨hp, -⟩
  · exact h.withTape (h.tape.headerDone hp hr b0 b1 b2 b3 s.cfg) le_rfl le_rfl
  · exact h.withTape (h.tape.bodyDone hp hr) le_rfl le_rfl
  · exact h.withTape (h.tape.checksumDone hp hr s.cfg) le_rfl le_rfl
  · exact absurd hph (by simpa using hp)

/-- The step of an impulse keeps the invariant, phase by phase (R69). -/
theorem State.Inv.tapeStep {s u : State} (h : s.Inv) {p : Nat} (hlt : p < 16777216) (hu : tapeStep p s = .ok u) :
    u.Inv := by
  rcases tapeStep_ok hu with ⟨-, rfl⟩ | ⟨hph, ⟨-, -, rfl⟩ | ⟨hpn, rfl⟩⟩ | ⟨hph, rfl⟩ | ⟨hph, rfl⟩ |
    ⟨hph, -, rfl | rfl⟩ | ⟨hph, -, -, rfl⟩ | ⟨hph, hs, -, v, hv, rfl⟩ | ⟨hph, -, hr, rfl⟩ | ⟨hph, -, hr, hc⟩
  · exact h
  · exact h.withTape (h.tape.endPilot hph _ _) le_rfl le_rfl
  · exact h.withTape (h.tape.countPilot hph hlt hpn) le_rfl le_rfl
  · exact h.withTape (h.tape.pilotFoundStep hph p) (by rw [pilotFoundStep_frame]) (by rw [pilotFoundStep_frame])
  · exact h.withTape (h.tape.pilotFound2Step hph p s.cfg) (by rw [pilotFound2Step_frame]; rfl)
      (by rw [pilotFound2Step_frame]; rfl)
  · exact h.withTape (h.tape.advance hph) (by simp) (by simp)
  · have hidle : s.tape.phase ≠ .idle := by rintro hi; simp [hi, Phase.isMarker] at hph
    exact h.withTape ((h.tape.withWarn hidle _).advance hph) (by simp) (by simp)
  · exact h.withTape (h.tape.shiftBit hph _ _) le_rfl le_rfl
  · exact h.storeByte hph hs hv
  · exact h.withTape (h.tape.syncBit hph hr) le_rfl le_rfl
  · exact h.segmentComplete hr hc hph

/-- A fatal error of an impulse has a kind (R132). -/
theorem tapeStep_fatal_kind {p : Nat} {s : State} {k : ErrKind} (h : tapeStep p s = .error (.fatal k)) : k ≠ .none := by
  rcases tapeStep_fatal h with ⟨rfl, -⟩ | ⟨rfl, -⟩ | ⟨rfl, -⟩ | ⟨rfl, -⟩ <;> simp

theorem State.Inv.tpPulse {s s' : State} (h : s.Inv) {v : BitVec 24} (he : exec (.tpPulse v) s = .next s') :
    s'.Inv := by
  rcases execTpPulse_next v s s' he with ⟨rfl, -⟩ | ⟨rfl, -⟩ | ⟨rfl, -⟩ | ⟨-, -, -, -, ⟨u, hu, rfl⟩ | ⟨k, hk, rfl⟩⟩
  · exact h.respond _ _
  · exact h.respond _ _
  · exact h.respond _ _
  · exact (h.tapeStep v.isLt hu).respond _ _
  · exact h.failTape (tapeStep_fatal_kind hk)

theorem State.Inv.tpEnd {s s' : State} (h : s.Inv) (he : exec .tpEnd s = .next s') : s'.Inv := by
  rw [exec] at he
  rcases execTpEnd_cases s with ⟨-, h'⟩ | ⟨-, h'⟩ | ⟨-, h'⟩ | ⟨-, -, -, -, h'⟩ <;> rw [h'] at he <;> cases he
  · exact h.respond _ _
  · exact h.respond _ _
  · exact h.failTape (by simp)
  · exact h.failTape (by simp)

theorem State.Inv.tpStart {s s' : State} (h : s.Inv) (he : exec .tpStart s = .next s') : s'.Inv := by
  cases he
  exact (h.withTape TapeRegs.inv_start (Nat.zero_le _) (Nat.zero_le _)).respond _ _

end Sys2Proof.Machine
end

section
/-! PROOF. The invariant of the FLOPPY registers (42_floppy.md): what the walks over FM compute, and what the FLOPPY
commands make of it. -/

namespace Sys2Proof.Machine

/-! ### Spans of FM -/

/-- A value read from a buffer stands in it. -/
theorem Memory.mem_of_read {w : Nat} {m : Memory w} {a : Nat} {v : BitVec w} (h : Memory.read m a = some v) :
    (a, v) ∈ m := by
  induction m with
  | nil => simp at h
  | cons e m ih =>
    obtain ⟨b, u⟩ := e
    simp only [Memory.read] at h
    split at h
    · cases h; subst_vars; exact List.mem_cons_self
    · exact List.mem_cons_of_mem _ (ih h)

/-- A span read from FM has its length, and only 24-bit intervals that are not zero. -/
theorem State.Inv.fluxSpan_spec {s : State} (h : s.Inv) {a n : Nat} {fs : List Nat} (hs : s.fluxSpan a n = .ok fs) :
    fs.length = n ∧ ∀ f ∈ fs, 1 ≤ f ∧ f ≤ 16777215 := by
  obtain ⟨vs, hvs, rfl⟩ := State.fluxSpan_inv hs
  obtain ⟨hlen, hread⟩ := (Memory.readSpan_eq_some h.buffers.fm.form a n vs).1 hvs
  refine ⟨by simpa using hlen, fun f hf => ?_⟩
  obtain ⟨v, hv, rfl⟩ := List.mem_map.1 hf
  obtain ⟨k, hk, rfl⟩ := List.mem_iff_getElem.1 hv
  have hne : vs[k] ≠ 0#24 := h.flux _ (Memory.mem_of_read (hread k hk))
  constructor <;> bv_omega

/-! ### Sync estimation (R95) -/

/-- The walk stops at an interval after the `K ≥ 2` it has summed, each of 24 bits and not zero. -/
theorem estimate_bounds {fs : List Nat} (hfs : ∀ f ∈ fs, 1 ≤ f ∧ f ≤ 16777215) {sum k S K : Nat}
    (hlow : k ≤ sum) (hhigh : sum ≤ k * 16777215) (h : estimate fs sum k = some (S, K)) :
    2 ≤ K ∧ K < k + fs.length ∧ K ≤ S ∧ S ≤ K * 16777215 := by
  induction fs generalizing sum k with
  | nil => simp [estimate] at h
  | cons f fs ih =>
    simp only [estimate] at h
    split at h
    next hstop => cases h; exact ⟨hstop.1, by simp, hlow, hhigh⟩
    next =>
      obtain ⟨hf1, hf2⟩ := hfs f List.mem_cons_self
      obtain ⟨h2, hK, hKS, hSK⟩ := ih (fun g hg => hfs g (List.mem_cons_of_mem _ hg)) (by omega) (by omega) h
      exact ⟨h2, by simp only [List.length_cons]; omega, hKS, hSK⟩

/-! ### Mark search (R98) -/

/-- A match ends inside the intervals searched, and starts at or after FM[0]. -/
theorem findMark_bounds {c : SyncLen} {fs : List Nat} {i j : Nat} {w : List Area} (h : findMark c fs i w = some j) :
    15 ≤ j ∧ j < i + fs.length := by
  induction fs generalizing i w with
  | nil => simp [findMark] at h
  | cons f fs ih =>
    simp only [findMark] at h
    split at h
    next hmatch => cases h; exact ⟨hmatch.2, by simp⟩
    next =>
      obtain ⟨h15, hlt⟩ := ih h
      exact ⟨h15, by simp only [List.length_cons]; omega⟩

/-! ### MFM decoder and group assembler (R102 to R104) -/

/-- The loop ends with at most `target` symbols, at an interval inside FM. -/
theorem mfmLoop_bounds {c : SyncLen} {count target : Nat} (passes : Nat) {v : MfmVars} {o : MfmOut}
    (hsyms : v.rsyms.length < target) (hidx : v.idx + 1 + v.rest.length = count)
    (h : mfmLoop c count target passes v = some o) : o.syms.length ≤ target ∧ o.pos ≤ count := by
  induction passes generalizing v with
  | zero => simp only [mfmLoop] at h; cases h; exact ⟨by simpa using hsyms.le, le_rfl⟩
  | succ passes ih =>
    simp only [mfmLoop] at h
    obtain ⟨emitted, act, -, ⟨ht, hp⟩ | ⟨ht, -, hp⟩ | ⟨ht, -, -, hp⟩ | ⟨ht, -, f, rest, hr, ⟨-, hp⟩ | ⟨g, -, hp⟩⟩⟩ :=
      mfmPass_cases c count target v <;> rw [hp] at h <;> dsimp only at h
    · cases h; exact ⟨by simp, by simp only; omega⟩
    · exact ih (by simpa using ht) (by exact hidx) h
    · cases h; exact ⟨by simp only [List.length_append, List.length_reverse]; omega, le_rfl⟩
    · cases h
    · exact ih (by simpa using ht) (by rw [hr, List.length_cons] at hidx; simp only; omega) h

/-- A decode of `n` bytes has at most 8·n + 1 symbols, and ends inside FM. -/
theorem mfmDecode_bounds {c : SyncLen} {count start n : Nat} {fs : List Nat} {o : MfmOut}
    (hfs : fs.length = count - start) (h : mfmDecode c count start n fs = some o) :
    o.syms.length ≤ 8 * n + 1 ∧ o.pos ≤ count := by
  cases fs with
  | nil => simp only [mfmDecode] at h; cases h; exact ⟨by simp, le_rfl⟩
  | cons f rest =>
    simp only [mfmDecode] at h
    split at h
    · cases h
    · rw [List.length_cons] at hfs
      exact mfmLoop_bounds _ (by simp) (by simp only; omega) h

/-- A part-group is dropped. -/
theorem groupsOf_length (l : List Sym) : (groupsOf l).length = l.length / 8 := by
  induction l using groupsOf.induct with
  | case1 a b c d e f g h rest ih => simp only [groupsOf, List.length_cons, ih]; omega
  | case2 l hl =>
    have hshort : l.length < 8 := by
      by_contra hge
      match l with
      | a :: b :: c :: d :: e :: f :: g :: h :: rest => exact hl _ _ _ _ _ _ _ _ _ rfl
      | [] | [_] | [_, _] | [_, _, _] | [_, _, _, _] | [_, _, _, _, _] | [_, _, _, _, _, _] | [_, _, _, _, _, _, _] =>
        simp at hge
    rw [groupsOf, Nat.div_eq_of_lt hshort, List.length_nil]
    exact hl

/-- The pad symbol and a part-group give no element. -/
theorem assemble_length (syms : List Sym) : (assemble syms).length = (syms.length - 1) / 8 := by
  simp [assemble, groupsOf_length]

/-! ### The FLOPPY registers -/

theorem FloppyRegs.inv_reset : FloppyRegs.reset.Inv := by
  constructor <;> decide

/-- Of the error kinds a FLOPPY command raises two (60_exceptions.md R132). -/
theorem FloppyRegs.Inv.fail {f : FloppyRegs} (h : f.Inv) {k : ErrKind} (hk : k = .calibration ∨ k = .bitTiming) :
    ({ f with mode := .fatal, err := k } : FloppyRegs).Inv :=
  { h with
    err := by rcases hk with rfl | rfl <;> simp
    kinds := .inr hk }

theorem FloppyRegs.Inv.push {f : FloppyRegs} (h : f.Inv) (hc : f.count.toNat < 1048576) :
    ({ f with count := f.count + 1#21 } : FloppyRegs).Inv := by
  have hinc : (f.count + 1#21).toNat = f.count.toNat + 1 := by bv_omega
  refine { h with sync := fun hv => ?_, pos := ?_, mpos := ?_, found := fun hm => ?_ } <;> simp only [hinc]
  · obtain ⟨h2, hlt, hle⟩ := h.sync hv
    exact ⟨h2, hlt.trans (Nat.lt_succ_self _), hle⟩
  · exact h.pos.trans (Nat.le_succ _)
  · exact h.mpos.trans (Nat.le_succ _)
  · obtain ⟨hv, hlt⟩ := h.found hm
    exact ⟨hv, hlt.trans (Nat.lt_succ_self _)⟩

/-- An estimate of FL_EST, which fits FL_SS and FL_SK. -/
theorem FloppyRegs.Inv.estimated {f : FloppyRegs} (h : f.Inv) {sum k : Nat} (h2 : 2 ≤ k) (hk : k < f.count.toNat)
    (hlow : k ≤ sum) (hhigh : sum ≤ k * 16777215) :
    ({ f with ss := BitVec.ofNat 64 sum, sk := BitVec.ofNat 21 k, svalid := true } : FloppyRegs).Inv := by
  have hcount := f.count.isLt
  have hsk : (BitVec.ofNat 21 k).toNat = k := by rw [BitVec.toNat_ofNat, Nat.mod_eq_of_lt (by omega)]
  have hss : (BitVec.ofNat 64 sum).toNat = sum := by rw [BitVec.toNat_ofNat, Nat.mod_eq_of_lt (by omega)]
  exact { h with
    noSync := by simp
    sync := fun _ => by simp only [hsk, hss]; exact ⟨h2, hk, hlow⟩
    found := fun hm => ⟨rfl, (h.found hm).2⟩ }

/-- A search leaves a mark inside FM, or none. -/
theorem FloppyRegs.Inv.afterSearch {f : FloppyRegs} (h : f.Inv) (hv : f.svalid = true) {r : Option Nat}
    (hr : ∀ i, r = some i → 15 ≤ i ∧ i < f.count.toNat) : (f.afterSearch r).Inv := by
  have hcount := f.count.isLt
  cases r with
  | none => exact { h with pos := le_rfl, found := by simp [FloppyRegs.afterSearch] }
  | some i =>
    obtain ⟨h15, hlt⟩ := hr i rfl
    have hpos : (BitVec.ofNat 21 (i + 1)).toNat = i + 1 := by rw [BitVec.toNat_ofNat, Nat.mod_eq_of_lt (by omega)]
    have hmpos : (BitVec.ofNat 21 (i - 15)).toNat = i - 15 := by rw [BitVec.toNat_ofNat, Nat.mod_eq_of_lt (by omega)]
    refine { h with pos := ?_, mpos := ?_, found := fun _ => ⟨hv, ?_⟩ } <;>
      simp only [FloppyRegs.afterSearch, hpos, hmpos] <;> omega

/-- A decode leaves FL_NSYM, FL_FBLEN and FL_POS in step (R103, R104). -/
theorem FloppyRegs.Inv.decoded {f : FloppyRegs} (h : f.Inv) {o : MfmOut} (hsyms : o.syms.length ≤ 8241)
    (hpos : o.pos ≤ f.count.toNat) :
    ({ f with
        fblen := BitVec.ofNat 11 (assemble o.syms).length
        nsym := BitVec.ofNat 14 o.syms.length
        pos := BitVec.ofNat 21 o.pos } : FloppyRegs).Inv := by
  have hcount := f.count.isLt
  have hlen := assemble_length o.syms
  have hp : (BitVec.ofNat 21 o.pos).toNat = o.pos := by rw [BitVec.toNat_ofNat, Nat.mod_eq_of_lt (by omega)]
  have hn : (BitVec.ofNat 14 o.syms.length).toNat = o.syms.length := by
    rw [BitVec.toNat_ofNat, Nat.mod_eq_of_lt (by omega)]
  have hf : (BitVec.ofNat 11 (assemble o.syms).length).toNat = (assemble o.syms).length := by
    rw [BitVec.toNat_ofNat, Nat.mod_eq_of_lt (by omega)]
  exact { h with
    pos := by simpa only [hp] using hpos
    nsym := by simpa only [hn] using hsyms
    fblen := by simpa only [hf, hn] using hlen }

/-- KIND stands in bits 7:6 of FL_FSTAT (10_state.md R26). -/
theorem fstatOf_kind (kind : BitVec 2) (f : FieldFlags) : (fstatOf kind f).extractLsb' 6 2 = kind := by
  obtain ⟨done, eot, markOk, symErr, crcOk, valid⟩ := f
  revert kind done eot markOk symErr crcOk valid
  decide

theorem FloppyRegs.Inv.finishRead {f : FloppyRegs} (h : f.Inv) (o : MfmOut) : (finishRead o f).Inv :=
  { h with kind := by simp [Machine.finishRead, fstatRaw, fstatOf_kind] }

theorem FloppyRegs.Inv.finishHeader {f : FloppyRegs} (h : f.Inv) (o : MfmOut) : (finishHeader o f).Inv := by
  unfold Machine.finishHeader
  split
  · exact { h with kind := by simp [fstatEot, fstatOf_kind] }
  · exact { h with kind := by simp [fieldStatus, fstatField, fstatOf_kind] }

theorem FloppyRegs.Inv.finishData {f : FloppyRegs} (h : f.Inv) (o : MfmOut) {size : Nat}
    (hsize : size = 256 ∨ size = 512 ∨ size = 1024) : (finishData size o f).Inv := by
  unfold Machine.finishData
  split
  · exact { h with kind := by simp [fstatEot, fstatOf_kind], dlen := .inl rfl }
  · refine { h with kind := by simp [fieldStatus, fstatField, fstatOf_kind], dlen := ?_ }
    split
    · rcases hsize with rfl | rfl | rfl <;> simp
    · exact .inl rfl

/-! ### FLOPPY commands -/

/-- FLOPPY registers with the same FL_COUNT, that count no more field bytes, find them in the buffers as they are. -/
theorem State.Inv.withFloppy {s : State} (h : s.Inv) {f : FloppyRegs} (hf : f.Inv)
    (hc : f.count.toNat ≤ s.floppy.count.toNat) (hb : f.fblen.toNat ≤ s.floppy.fblen.toNat) :
    ({ s with floppy := f } : State).Inv :=
  ⟨h.params, h.cfg, h.tape, hf,
    ⟨h.buffers.tb, h.buffers.hb, h.buffers.fb.lower hb, h.buffers.fom.lower hb, h.buffers.fm.lower hc⟩, h.flux⟩

theorem State.Inv.failFloppy {s : State} (h : s.Inv) {k : ErrKind} (hk : k = .calibration ∨ k = .bitTiming) :
    (s.failFloppy k).Inv :=
  (h.withFloppy (h.floppy.fail hk) le_rfl le_rfl).respond _ _

theorem State.Inv.flClear {s s' : State} (h : s.Inv) (he : exec .flClear s = .next s') : s'.Inv := by
  cases he
  exact (h.withFloppy FloppyRegs.inv_reset (Nat.zero_le _) (Nat.zero_le _)).respond _ _

/-- P_FM_DEPTH is at most 2^20 (00_scope.md R7). -/
theorem Params.fmDepth_le {p : Params} (h : p.legal = true) : p.fmDepth ≤ 1048576 := by
  simp only [Params.legal, Bool.and_eq_true, decide_eq_true_eq] at h
  exact h.1.1.2

theorem State.Inv.pushFlux {s : State} (h : s.Inv) {v : BitVec 24} (hv : v ≠ 0#24)
    (hc : s.floppy.count.toNat < s.params.fmDepth) : (s.pushFlux v).Inv := by
  obtain ⟨htb, hhb, hfb, hfom, hfm⟩ := h.buffers
  have hdepth := Params.fmDepth_le h.params
  have hinc : (s.floppy.count + 1#21).toNat = s.floppy.count.toNat + 1 := by bv_omega
  have happ := hfm.append v hc
  rw [State.limit, ← hinc] at happ
  refine ⟨h.params, h.cfg, h.tape, h.floppy.push (by omega), ⟨htb, hhb, hfb, hfom, happ⟩, fun e he => ?_⟩
  rcases Memory.mem_write he with rfl | hmem
  · exact hv
  · exact h.flux e hmem

theorem State.Inv.flPush {s s' : State} (h : s.Inv) {v : BitVec 24} (he : exec (.flPush v) s = .next s') : s'.Inv := by
  rw [exec] at he
  rcases execFlPush_cases v s with ⟨-, h'⟩ | ⟨-, -, h'⟩ | ⟨-, -, h'⟩ | ⟨hv, -, hc, h'⟩ <;> rw [h'] at he <;> cases he
  · exact h.respond _ _
  · exact h.respond _ _
  · exact (h.pushFlux hv hc).respond _ _

theorem State.Inv.flEst {s s' : State} (h : s.Inv) (he : exec .flEst s = .next s') : s'.Inv := by
  rw [exec] at he
  rcases execFlEst_cases s with ⟨-, h'⟩ | ⟨-, -, h'⟩ | ⟨-, -, ⟨f, h'⟩ | ⟨fs, hfs, ⟨-, h'⟩ | ⟨sum, k, hest, h'⟩⟩⟩ <;>
    rw [h'] at he <;> cases he
  · exact h.respond _ _
  · exact h.respond _ _
  · exact h.failFloppy (.inl rfl)
  · obtain ⟨hlen, hrange⟩ := h.fluxSpan_spec hfs
    obtain ⟨h2, hk, hlow, hhigh⟩ := estimate_bounds hrange le_rfl (Nat.zero_le _) hest
    exact (h.withFloppy (h.floppy.estimated h2 (by omega) hlow hhigh) le_rfl le_rfl).respond _ _

theorem State.Inv.flFind {s s' : State} (h : s.Inv) (he : exec .flFind s = .next s') : s'.Inv := by
  rw [exec] at he
  rcases execFlFind_cases s with ⟨-, h'⟩ | ⟨-, hv, ⟨f, h'⟩ | ⟨fs, hfs, h'⟩⟩ <;> rw [h'] at he <;> cases he
  · exact h.respond _ _
  · obtain ⟨hlen, -⟩ := h.fluxSpan_spec hfs
    have hmark : ∀ i, findMark s.cell fs s.floppy.pos.toNat [] = some i → 15 ≤ i ∧ i < s.floppy.count.toNat := by
      intro i hi
      obtain ⟨h15, hlt⟩ := findMark_bounds hi
      have hpos := h.floppy.pos
      exact ⟨h15, by omega⟩
    refine (h.withFloppy (h.floppy.afterSearch hv hmark) ?_ ?_).respond _ _ <;>
      cases findMark s.cell fs s.floppy.pos.toNat [] <;> exact le_rfl

theorem State.Inv.flSetpos {s s' : State} (h : s.Inv) {p : BitVec 21} (he : exec (.flSetpos p) s = .next s') :
    s'.Inv := by
  simp only [exec, execFlSetpos] at he
  split at he
  · cases he; exact h.respond _ _
  · split at he <;> cases he
    · exact h.respond _ _
    · exact (h.withFloppy (f := { s.floppy with pos := p }) { h.floppy with pos := by simp only; omega } le_rfl
        le_rfl).respond _ _

/-- A field written keeps the invariant: FB and FOM are written from element 0 up to FL_FBLEN (R104). -/
theorem State.Inv.writeField {s : State} (h : s.Inv) {o : MfmOut} (hsyms : o.syms.length ≤ 8241)
    (hpos : o.pos ≤ s.floppy.count.toNat) : (s.writeField o).Inv := by
  obtain ⟨htb, hhb, hfb, hfom, hfm⟩ := h.buffers
  have hlen := assemble_length o.syms
  have hfill : (BitVec.ofNat 11 (assemble o.syms).length).toNat = (assemble o.syms).length := by
    rw [BitVec.toNat_ofNat, Nat.mod_eq_of_lt (by omega)]
  have hvalues := hfb.overwrite ((assemble o.syms).map MfmGroup.value) (by simp [State.size]; omega)
  have hmasks := hfom.overwrite ((assemble o.syms).map MfmGroup.mask) (by simp [State.size]; omega)
  rw [List.length_map, ← hfill] at hvalues hmasks
  exact ⟨h.params, h.cfg, h.tape, h.floppy.decoded hsyms hpos, ⟨htb, hhb, hvalues, hmasks, hfm⟩, h.flux⟩

/-- A decode command keeps the invariant where the registers it writes after the decode do (R91, R101 to R104). -/
theorem State.Inv.runDecode {s s' : State} (h : s.Inv) {n : Nat} (hn : n ≤ 1030)
    {finish : MfmOut → FloppyRegs → FloppyRegs} (hfin : ∀ (o : MfmOut) (f : FloppyRegs), f.Inv → (finish o f).Inv ∧
      (finish o f).count = f.count ∧ (finish o f).fblen = f.fblen)
    (he : s.runDecode n finish = .next s') : s'.Inv := by
  rcases State.runDecode_next he with ⟨rfl, -⟩ | ⟨-, -, rfl⟩ | ⟨-, o, ho, rfl⟩
  · exact h.respond _ _
  · exact h.failFloppy (.inr rfl)
  · rcases s.decodeField_cases n with ⟨f, h'⟩ | ⟨fs, hfs, ⟨-, h'⟩ | ⟨o', hdec, h'⟩⟩ <;> rw [h'] at ho <;> cases ho
    obtain ⟨hlen, -⟩ := h.fluxSpan_spec hfs
    obtain ⟨hsyms, hpos⟩ := mfmDecode_bounds hlen hdec
    have hw := h.writeField (o := o) (by omega) hpos
    obtain ⟨hinv, hc, hb⟩ := hfin o _ hw.floppy
    exact (hw.withFloppy hinv (by rw [hc]) (by rw [hb])).respond _ _

theorem State.Inv.flRead {s s' : State} (h : s.Inv) {n : BitVec 11} (he : exec (.flRead n) s = .next s') : s'.Inv := by
  simp only [exec, execFlRead] at he
  split at he
  · cases he; exact h.respond _ _
  next hn =>
    refine h.runDecode ?_ (fun o f hf => ⟨hf.finishRead o, rfl, rfl⟩) he
    simp only [legalGroups, Bool.not_eq_true', decide_eq_false_iff_not, not_not] at hn
    exact hn.2

theorem State.Inv.flHdr {s s' : State} (h : s.Inv) (he : exec .flHdr s = .next s') : s'.Inv := by
  refine h.runDecode (by decide) (fun o f hf => ⟨hf.finishHeader o, ?_, ?_⟩) he <;>
    unfold finishHeader <;> split <;> rfl

/-- The three payload sizes (R109). -/
theorem payloadSize_cases {c : BitVec 2} (hc : c ≠ 0#2) :
    payloadSize c = 256 ∨ payloadSize c = 512 ∨ payloadSize c = 1024 := by
  revert c; decide

theorem State.Inv.flData {s s' : State} (h : s.Inv) {c : BitVec 2} (he : exec (.flData c) s = .next s') : s'.Inv := by
  simp only [exec, execFlData] at he
  split at he
  · cases he; exact h.respond _ _
  next hc =>
    have hsize := payloadSize_cases hc
    refine h.runDecode (by omega) (fun o f hf => ⟨hf.finishData o hsize, ?_, ?_⟩) he <;>
      unfold finishData <;> split <;> rfl

end Sys2Proof.Machine
end

section
/-! PROOF. The invariant of the whole machine: every command, and so every step, keeps it. -/

namespace Sys2Proof.Machine

/-- The CRC and SUM registers, the words pending and the response are no part of the invariant. -/
theorem State.Inv.withScratch {s : State} (h : s.Inv) (crc sum : BitVec 16) (cs : List Word) (r : Option Response) :
    ({ s with crc := crc, sum := sum, pending := cs, resp := r } : State).Inv :=
  ⟨h.params, h.cfg, h.tape, h.floppy, ⟨h.buffers.tb, h.buffers.hb, h.buffers.fb, h.buffers.fom, h.buffers.fm⟩, h.flux⟩

/-- WRCFG writes no illegal value (10_state.md R29). -/
theorem ConfigRegs.write_legal {c c' : ConfigRegs} (h : c.Legal) {ci : BitVec 8} {val : BitVec 16}
    (hw : c.write ci val = some c') : c'.Legal := by
  unfold ConfigRegs.write at hw
  split at hw
  case h_1 => split at hw <;> cases hw; exact { h with ficStd := ‹_› }
  case h_2 => split at hw <;> cases hw; exact { h with ficEnd := ‹_› }
  case h_6 =>
    split at hw
    · cases hw; exact ⟨h.ficStd, h.ficEnd⟩
    · split at hw <;> cases hw
      exact ⟨h.ficStd, h.ficEnd⟩
  all_goals cases hw
  all_goals exact ⟨h.ficStd, h.ficEnd⟩

theorem State.Inv.withCfg {s : State} (h : s.Inv) {c : ConfigRegs} (hc : c.Legal) : ({ s with cfg := c } : State).Inv :=
  ⟨h.params, hc, h.tape, h.floppy, ⟨h.buffers.tb, h.buffers.hb, h.buffers.fb, h.buffers.fom, h.buffers.fm⟩, h.flux⟩

theorem State.Inv.wrcfg {s s' : State} (h : s.Inv) {ci : BitVec 8} {val : BitVec 16}
    (he : exec (.wrcfg ci val) s = .next s') : s'.Inv := by
  simp only [exec, execWrcfg] at he
  split at he <;> cases he
  next hw => exact (h.withCfg (ConfigRegs.write_legal h.cfg hw)).respond _ _
  next => exact h.respond _ _

/-- P_FIC_STD, the reset value of CFG_FIC_STD, is legal (00_scope.md R7). -/
theorem ConfigRegs.legal_reset {p : Params} (h : p.legal = true) : (ConfigRegs.reset p).Legal := by
  simp only [Params.legal, Bool.and_eq_true, bne_iff_ne] at h
  exact ⟨h.1.1.1.1, by simp [ConfigRegs.reset]⟩

/-- RESET empties every fill count (40_control.md R62). -/
theorem State.Inv.reset {s : State} (h : s.Inv) : s.resetRegisters.Inv :=
  ⟨h.params, ConfigRegs.legal_reset h.params, TapeRegs.inv_reset, FloppyRegs.inv_reset,
    ⟨h.buffers.tb.lower (Nat.zero_le _), h.buffers.hb.lower (Nat.zero_le _), h.buffers.fb.lower (Nat.zero_le _),
      h.buffers.fom.lower (Nat.zero_le _), h.buffers.fm.lower (Nat.zero_le _)⟩, h.flux⟩

/-- Every command keeps the invariant. -/
theorem State.Inv.exec {s s' : State} (h : s.Inv) (i : Instr) (he : exec i s = .next s') : s'.Inv := by
  cases i
  case rdreg => rw [exec_rdreg_frame he]; exact h.withScratch _ _ _ _
  case memrd => rw [exec_memrd_frame he]; exact h.withScratch _ _ _ _
  case nop | crcInit | crcByte | crcMark | crcCheck | addInit | addByte | addWord | addCheck =>
    cases he; exact h.withScratch _ _ _ _
  case reset => cases he; exact h.reset.respond _ _
  case wrcfg => exact h.wrcfg he
  case tpStart => exact h.tpStart he
  case tpPulse => exact h.tpPulse he
  case tpEnd => exact h.tpEnd he
  case flClear => exact h.flClear he
  case flPush => exact h.flPush he
  case flEst => exact h.flEst he
  case flFind => exact h.flFind he
  case flSetpos => exact h.flSetpos he
  case flRead => exact h.flRead he
  case flHdr => exact h.flHdr he
  case flData => exact h.flData he

/-- Settles O7: a step is idle, a command, or the answer to a word that is none. -/
theorem stepKeepsInvariant : Obligations.StepKeepsInvariant := by
  intro s s' h hstep
  rcases s.takeCommand_cases with ⟨-, hc⟩ | ⟨c, cs, -, hc⟩ <;> simp only [step, hc] at hstep
  · cases hstep; exact h
  · have hpending : ({ s with pending := cs } : State).Inv := h.withScratch _ _ _ _
    split at hstep
    · exact hpending.exec _ hstep
    · cases hstep; exact hpending.respond _ _

end Sys2Proof.Machine
end

section
/-! PROOF. What a read keeps: the order of the phases (10_state.md R22), the calibration (R24) and the sync length
(R27). -/

namespace Sys2Proof.Machine

/-! ### Phases only advance -/

/-- A marker step keeps the phase or goes on to the next one (41_tape.md R78, R86). -/
theorem TapeRegs.advance_phase_le (t : TapeRegs) : t.phase.code.toNat ≤ t.advance.phase.code.toNat := by
  cases hm : t.msub <;> simp only [TapeRegs.advance, hm, le_refl]
  case sync0 =>
    cases t.phase <;> simp only [le_refl]
    case headerMarker => exact (by decide : Phase.headerMarker.code.toNat ≤ Phase.readHeader.code.toNat)
    case bodyMarker =>
      split
      · exact (by decide : Phase.bodyMarker.code.toNat ≤ Phase.cksum.code.toNat)
      · exact (by decide : Phase.bodyMarker.code.toNat ≤ Phase.readData.code.toNat)
    case endTrailer => exact (by decide : Phase.endTrailer.code.toNat ≤ Phase.done.code.toNat)

/-- The end of a segment goes on to the next phase (41_tape.md R85). -/
theorem segmentComplete_phase_le {s u : State} (h : segmentComplete s = .ok u) :
    s.tape.phase.code.toNat ≤ u.tape.phase.code.toNat := by
  rcases segmentComplete_ok h with ⟨hp, _, _, _, _, -, -, -, -, rfl⟩ | ⟨hp, rfl⟩ | ⟨hp, rfl⟩ | ⟨-, rfl⟩
  · rw [hp]; exact (by decide : Phase.readHeader.code.toNat ≤ Phase.bodyMarker.code.toNat)
  · rw [hp]; exact (by decide : Phase.readData.code.toNat ≤ Phase.cksum.code.toNat)
  · rw [hp]; exact (by decide : Phase.cksum.code.toNat ≤ Phase.endTrailer.code.toNat)
  · exact le_rfl

/-- A byte stored keeps the phase (41_tape.md R84). -/
theorem storeByte_phase {b : BitVec 8} {s u : State} (h : storeByte b s = .ok u) : u.tape.phase = s.tape.phase := by
  rcases storeByte_ok h with ⟨-, -, rfl⟩ | ⟨-, -, rfl⟩ | ⟨-, _, -, rfl⟩ | ⟨-, rfl⟩ <;> rfl

/-- The step of an impulse keeps the phase or goes on to a later one. -/
theorem tapeStep_phase_le {p : Nat} {s u : State} (h : tapeStep p s = .ok u) :
    s.tape.phase.code.toNat ≤ u.tape.phase.code.toNat := by
  rcases tapeStep_ok h with ⟨-, rfl⟩ | ⟨hp, ⟨-, -, rfl⟩ | ⟨-, rfl⟩⟩ | ⟨hp, rfl⟩ | ⟨hp, rfl⟩ | ⟨-, -, rfl | rfl⟩ |
    ⟨-, -, -, rfl⟩ | ⟨-, -, -, v, hv, rfl⟩ | ⟨-, -, -, rfl⟩ | ⟨-, -, -, hc⟩
  · exact le_rfl
  · rw [hp]; exact (by decide : Phase.findPilot.code.toNat ≤ Phase.pilotFound.code.toNat)
  · exact le_rfl
  · rw [hp, pilotFoundStep_frame]; exact (by decide : Phase.pilotFound.code.toNat ≤ Phase.pilotFound2.code.toNat)
  · rw [hp, pilotFound2Step_frame]; exact (by decide : Phase.pilotFound2.code.toNat ≤ Phase.headerMarker.code.toNat)
  · exact s.tape.advance_phase_le
  · exact s.tape.warnMark.advance_phase_le
  · exact le_rfl
  · rw [← storeByte_phase hv]
  · exact le_rfl
  · exact (segmentComplete_phase_le hc :)

/-- Settles O24: FATAL has the greatest code, and no other outcome of an impulse takes the phase back. -/
theorem tapePhasesOnlyAdvance : Obligations.TapePhasesOnlyAdvance := by
  intro v s s' h
  rcases execTpPulse_next v s s' h with ⟨rfl, -⟩ | ⟨rfl, -⟩ | ⟨rfl, -⟩ | ⟨-, -, -, -, ⟨u, hu, rfl⟩ | ⟨k, -, rfl⟩⟩
  case inr.inr.inr.inl => exact (tapeStep_phase_le hu :)
  case inr.inr.inr.inr => exact Nat.le_of_lt_succ s.tape.phase.code.isLt
  all_goals exact le_rfl

/-! ### The calibration is frozen -/

/-- Only the end of the pilot writes TP_CUT and TP_L0H (41_tape.md R71). -/
theorem tapeStep_cutoff {p : Nat} {s u : State} (h : tapeStep p s = .ok u) :
    (u.tape.cut = s.tape.cut ∧ u.tape.l0h = s.tape.l0h) ∨
      (s.tape.phase = .findPilot ∧ u.tape.phase = .pilotFound) := by
  rcases tapeStep_ok h with ⟨-, rfl⟩ | ⟨hp, ⟨-, -, rfl⟩ | ⟨-, rfl⟩⟩ | ⟨hp, rfl⟩ | ⟨hp, rfl⟩ | ⟨-, -, rfl | rfl⟩ |
    ⟨-, -, -, rfl⟩ | ⟨-, -, -, v, hv, rfl⟩ | ⟨-, -, -, rfl⟩ | ⟨-, -, -, hc⟩
  case inr.inl.inl => exact .inr ⟨hp, rfl⟩
  case inr.inr.inl => rw [pilotFoundStep_frame]; exact .inl ⟨rfl, rfl⟩
  case inr.inr.inr.inl => rw [pilotFound2Step_frame]; exact .inl ⟨rfl, rfl⟩
  case inr.inr.inr.inr.inl.inl | inr.inr.inr.inr.inl.inr => simp
  case inr.inr.inr.inr.inr.inr.inl =>
    rcases storeByte_ok hv with ⟨-, -, rfl⟩ | ⟨-, -, rfl⟩ | ⟨-, _, -, rfl⟩ | ⟨-, rfl⟩ <;> exact .inl ⟨rfl, rfl⟩
  case inr.inr.inr.inr.inr.inr.inr.inr =>
    rcases segmentComplete_ok hc with ⟨-, _, _, _, _, -, -, -, -, rfl⟩ | ⟨-, rfl⟩ | ⟨-, rfl⟩ | ⟨-, rfl⟩ <;>
      exact .inl ⟨rfl, rfl⟩
  all_goals exact .inl ⟨rfl, rfl⟩

/-- TP_PULSE in IDLE is refused (41_tape.md R69). -/
theorem exec_tpPulse_idle {v : BitVec 24} {s s' : State} (hp : s.tape.phase = .idle)
    (h : exec (.tpPulse v) s = .next s') : s'.tape = s.tape := by
  rcases execTpPulse_next v s s' h with ⟨rfl, -⟩ | ⟨rfl, -⟩ | ⟨rfl, -⟩ | ⟨-, hi, -⟩
  case inr.inr.inr => exact absurd hp hi
  all_goals rfl

/-- Only IDLE and FIND_PILOT have a code as low as FIND_PILOT's (10_state.md R22). -/
theorem Phase.eq_of_code_le_findPilot {ph : Phase} (h : ph.code.toNat ≤ Phase.findPilot.code.toNat) :
    ph = .idle ∨ ph = .findPilot := by
  revert h
  cases ph <;> decide

/-- What TP_PULSE keeps of the calibration (10_state.md R24). The phases only advance, so only a read in FIND_PILOT is
in FIND_PILOT after it. -/
theorem exec_tpPulse_cutoff {v : BitVec 24} {s s' : State} (h : exec (.tpPulse v) s = .next s') :
    (s'.tape.cut ≠ s.tape.cut ∨ s'.tape.l0h ≠ s.tape.l0h →
      s.tape.phase = .findPilot ∧ s'.tape.phase = .pilotFound) ∧
    (s'.tape.phase = .findPilot → s.tape.phase = .findPilot) := by
  constructor
  · intro hne
    rcases execTpPulse_next v s s' h with ⟨rfl, -⟩ | ⟨rfl, -⟩ | ⟨rfl, -⟩ | ⟨-, -, -, -, ⟨u, hu, rfl⟩ | ⟨k, -, rfl⟩⟩
    case inr.inr.inr.inl =>
      rcases tapeStep_cutoff hu with ⟨hcut, hl0h⟩ | hpilot
      · exact absurd hne (by simp [hcut, hl0h])
      · exact hpilot
    all_goals simp at hne
  · intro hp
    have hle := tapePhasesOnlyAdvance v s s' h
    rw [hp] at hle
    rcases Phase.eq_of_code_le_findPilot hle with hidle | hpilot
    · rw [exec_tpPulse_idle hidle h] at hp; exact hp
    · exact hpilot

/-- Settles O20: TP_END leaves both registers, every other command but TP_PULSE the whole of TAPE. -/
theorem cutoffIsFrozen : Obligations.CutoffIsFrozen := by
  intro i s s' h hstart hreset
  have hframe := unitsShareNothing.1 i s s' h
  cases i
  case tpStart => exact absurd rfl hstart
  case reset => exact absurd rfl hreset
  case tpPulse v =>
    obtain ⟨hcut, hphase⟩ := exec_tpPulse_cutoff h
    exact ⟨fun hne => ⟨(hcut hne).1, (hcut hne).2, v, rfl⟩, hphase⟩
  case tpEnd =>
    rw [exec] at h
    rcases execTpEnd_cases s with ⟨-, h'⟩ | ⟨-, h'⟩ | ⟨-, h'⟩ | ⟨-, -, -, -, h'⟩ <;> rw [h'] at h <;> cases h <;> simp
  all_goals rw [hframe]; simp

/-! ### The sync length is frozen -/

/-- A decode changes no register of the sync length (42_floppy.md R102 to R109). -/
theorem State.runDecode_sync {s s' : State} {n : Nat} {finish : MfmOut → FloppyRegs → FloppyRegs}
    (hfin : ∀ o f, (finish o f).ss = f.ss ∧ (finish o f).sk = f.sk ∧ (finish o f).svalid = f.svalid)
    (h : s.runDecode n finish = .next s') :
    s'.floppy.ss = s.floppy.ss ∧ s'.floppy.sk = s.floppy.sk ∧ s'.floppy.svalid = s.floppy.svalid := by
  rcases State.runDecode_next h with ⟨rfl, -⟩ | ⟨-, -, rfl⟩ | ⟨-, o, -, rfl⟩
  case inr.inr => exact hfin o _
  all_goals exact ⟨rfl, rfl, rfl⟩

/-- Settles O21: the FLOPPY commands one by one; the others leave the whole of FLOPPY. -/
theorem syncLengthIsFrozen : Obligations.SyncLengthIsFrozen := by
  intro i s s' h
  have hframe := unitsShareNothing.1 i s s' h
  cases i
  case flClear | reset => cases h; exact ⟨fun _ => ⟨rfl, rfl, rfl⟩, fun _ _ => by contradiction⟩
  all_goals refine ⟨by simp, fun hclear hreset hest => ?_⟩
  case flEst =>
    have hv : s.floppy.svalid = true := hest.resolve_left (by simp)
    rw [exec] at h
    rcases execFlEst_cases s with ⟨-, h'⟩ | ⟨-, -, h'⟩ | ⟨-, hn, -⟩
    · rw [h'] at h; cases h; exact ⟨rfl, rfl, rfl⟩
    · rw [h'] at h; cases h; exact ⟨rfl, rfl, rfl⟩
    · simp [hn] at hv
  case flFind =>
    rw [exec] at h
    rcases execFlFind_cases s with ⟨-, h'⟩ | ⟨-, -, ⟨_, h'⟩ | ⟨fs, -, h'⟩⟩ <;> rw [h'] at h <;> cases h
    · exact ⟨rfl, rfl, rfl⟩
    · cases hm : findMark s.cell fs s.floppy.pos.toNat [] <;> simp [FloppyRegs.afterSearch]
  case flPush v =>
    rw [exec] at h
    rcases execFlPush_cases v s with ⟨-, h'⟩ | ⟨-, -, h'⟩ | ⟨-, -, h'⟩ | ⟨-, -, -, h'⟩ <;> rw [h'] at h <;>
      cases h <;> simp
  case flSetpos p =>
    simp only [exec, execFlSetpos] at h
    split at h
    · cases h; simp
    · split at h <;> cases h <;> simp
  case flRead n =>
    simp only [exec, execFlRead] at h
    split at h
    · cases h; simp
    · exact State.runDecode_sync (finish := finishRead) (fun o f => ⟨rfl, rfl, rfl⟩) h
  case flHdr =>
    refine State.runDecode_sync (fun o f => ?_) h
    unfold finishHeader
    split <;> exact ⟨rfl, rfl, rfl⟩
  case flData c =>
    simp only [exec, execFlData] at h
    split at h
    · cases h; simp
    · refine State.runDecode_sync (fun o f => ?_) h
      unfold finishData
      split <;> exact ⟨rfl, rfl, rfl⟩
  all_goals rw [hframe]; exact ⟨rfl, rfl, rfl⟩

end Sys2Proof.Machine
end

section
/-! PROOF. What has no effect: CFG_DBG (10_state.md R28, R29) and the TP_WARN bits (R23). Where a command's own frame
leaves the register out of what it reads (`unitsShareNothing`), nothing is to be shown; the commands that read the
rest of TAPE or CFG are taken one by one. -/

namespace Sys2Proof.Machine

/-- The state with another value in CFG_DBG. -/
def State.withDbg (s : State) (d : BitVec 16) : State := { s with cfg := { s.cfg with dbg := d } }

/-- The state with other warnings. -/
def State.withWarn (s : State) (w : BitVec 3) : State := { s with tape := { s.tape with warn := w } }

/-! ### CFG_DBG -/

/-- A command that reads what `s` and `s.withDbg d` share, and writes the same to both. -/
theorem exec_withDbg_of_reads {i : Instr} {s : State} {d : BitVec 16} {G : State → State}
    (h : exec i (s.withDbg d) = mapNext G (exec i s)) (hG : ∀ s', exec i s = .next s' → G s' = s'.withDbg d) :
    exec i (s.withDbg d) = mapNext (State.withDbg · d) (exec i s) :=
  h.trans (mapNext_congr hG)

/-- CFG_DBG is the configuration register of index 6, and of no other (10_state.md R28). -/
theorem configRegister_withDbg {n : Nat} (hn : n ≠ 6) (c : ConfigRegs) (d : BitVec 16) :
    configRegister { c with dbg := d } n = configRegister c n := by
  unfold configRegister
  split
  case h_7 => exact absurd rfl hn
  all_goals rfl

theorem State.register_withDbg {r : BitVec 8} (hr : r ≠ 0x76#8) (s : State) (d : BitVec 16) :
    (s.withDbg d).register r = s.register r := by
  have hcfg : 0x70 ≤ r.toNat →
      configRegister { s.cfg with dbg := d } (r.toNat - 0x70) = configRegister s.cfg (r.toNat - 0x70) :=
    fun hle => configRegister_withDbg (by bv_omega) s.cfg d
  simp only [State.register, State.withDbg]
  by_cases hle : 0x70 ≤ r.toNat
  · simp only [hcfg hle]
  · simp only [hle, if_false]

/-- WRCFG of another register leaves CFG_DBG, and does not read it. -/
theorem ConfigRegs.write_withDbg {ci : BitVec 8} (hci : ci ≠ 6#8) (c : ConfigRegs) (val d : BitVec 16) :
    ConfigRegs.write { c with dbg := d } ci val = (c.write ci val).map fun c => { c with dbg := d } := by
  unfold ConfigRegs.write
  split
  case h_1 | h_2 => split <;> rfl
  case h_6 =>
    split
    · rfl
    · split <;> rfl
  case h_7 h => exact absurd (BitVec.eq_of_toNat_eq h) hci
  all_goals rfl

theorem exec_wrcfg_withDbg {ci : BitVec 8} (hci : ci ≠ 6#8) (val d : BitVec 16) (s : State) :
    exec (.wrcfg ci val) (s.withDbg d) = mapNext (State.withDbg · d) (exec (.wrcfg ci val) s) := by
  have hwrite : (s.withDbg d).cfg.write ci val = (s.cfg.write ci val).map fun c => { c with dbg := d } :=
    ConfigRegs.write_withDbg hci s.cfg val d
  simp only [exec, execWrcfg, hwrite]
  cases s.cfg.write ci val <;> rfl

/-- Settles O22: TAPE does not read CFG_DBG, RDREG and WRCFG only at its index, and no other command reads CFG. -/
theorem debugVerbosityHasNoEffect : Obligations.DebugVerbosityHasNoEffect := by
  intro i s d hrdreg hreset hwrcfg
  show exec i (s.withDbg d) = mapNext (State.withDbg · d) (exec i s)
  have hframe := unitsShareNothing.1 i s
  have hreads := unitsShareNothing.2 i s (s.withDbg d)
  cases i
  case reset => exact absurd rfl hreset
  case wrcfg ci val => exact exec_wrcfg_withDbg (fun h => hwrcfg val (h ▸ rfl)) val d s
  case rdreg r =>
    have hreg := State.register_withDbg (fun h => hrdreg (h ▸ rfl)) s d
    exact exec_withDbg_of_reads (exec_rdreg_reads hreg) fun s' hs' => by rw [hframe s' hs']; rfl
  case memrd =>
    exact exec_withDbg_of_reads (hreads rfl rfl rfl rfl rfl rfl rfl rfl) fun s' hs' => by rw [hframe s' hs']; rfl
  case tpPulse v =>
    exact exec_withDbg_of_reads (exec_tpPulse_graft s d v s) fun s' hs' => by rw [hframe s' hs']; rfl
  case nop | crcInit | crcMark | addInit | tpStart | flClear =>
    exact exec_withDbg_of_reads hreads fun s' hs' => by rw [hframe s' hs']; rfl
  case crcByte | crcCheck | addByte | addWord | addCheck | tpEnd | flSetpos =>
    exact exec_withDbg_of_reads (hreads rfl) fun s' hs' => by rw [hframe s' hs']; rfl
  case flPush | flEst | flFind =>
    exact exec_withDbg_of_reads (hreads rfl rfl rfl) fun s' hs' => by rw [hframe s' hs']; rfl
  case flRead | flHdr | flData =>
    exact exec_withDbg_of_reads (hreads rfl rfl rfl rfl rfl) fun s' hs' => by rw [hframe s' hs']; rfl

/-! ### TP_WARN -/

/-- A command that reads what `s` and `s.withWarn w` share, and writes the same to both, the warnings apart. -/
theorem exec_withWarn_of_reads {i : Instr} {s : State} {w : BitVec 3} {G : State → State}
    (h : exec i (s.withWarn w) = mapNext G (exec i s))
    (hG : ∀ s', exec i s = .next s' → (G s').withWarn 0#3 = s'.withWarn 0#3) :
    mapNext (State.withWarn · 0#3) (exec i (s.withWarn w)) = mapNext (State.withWarn · 0#3) (exec i s) := by
  rw [h, mapNext_mapNext]
  exact mapNext_congr hG

/-- TP_WARN is the register of index 0x12, and no other (10_state.md R21). -/
theorem tapeRegister_withWarn {n : Nat} (hn : n ≠ 0x12) (t : TapeRegs) (w : BitVec 3) :
    tapeRegister { t with warn := w } n = tapeRegister t n := by
  unfold tapeRegister
  split
  case h_3 => exact absurd rfl hn
  all_goals rfl

theorem State.register_withWarn {r : BitVec 8} (hr : r ≠ 0x12#8) (s : State) (w : BitVec 3) :
    (s.withWarn w).register r = s.register r := by
  have htape := tapeRegister_withWarn (n := r.toNat) (by bv_omega) s.tape w
  simp only [State.register, State.withWarn, htape]

theorem findPilotStep_withWarn (p : Nat) (t : TapeRegs) (w : BitVec 3) :
    findPilotStep p { t with warn := w } = (findPilotStep p t).map fun u => { u with warn := w } := by
  have hlong : pilotLong { t with warn := w } p = pilotLong t p := rfl
  simp only [findPilotStep, hlong]
  split
  · rfl
  · split <;> rfl

theorem pilotFoundStep_withWarn (p : Nat) (t : TapeRegs) (w : BitVec 3) :
    ∃ w', pilotFoundStep p { t with warn := w } = { pilotFoundStep p t with warn := w' } :=
  ⟨_, by rw [pilotFoundStep_frame, pilotFoundStep_frame p t]⟩

theorem pilotFound2Step_withWarn (p : Nat) (c : ConfigRegs) (t : TapeRegs) (w : BitVec 3) :
    ∃ w', pilotFound2Step p c { t with warn := w } = { pilotFound2Step p c t with warn := w' } :=
  ⟨_, by rw [pilotFound2Step_frame, pilotFound2Step_frame p c t]; rfl⟩

/-- A marker check, and what follows it, carries the warnings along and perhaps adds one (41_tape.md R77). -/
theorem markerCheck_map_withWarn (passed : Bool) (t : TapeRegs) (w : BitVec 3) {f : TapeRegs → TapeRegs}
    (hf : ∀ (u : TapeRegs) (w : BitVec 3), f { u with warn := w } = { f u with warn := w }) :
    ∃ w', (markerCheck passed { t with warn := w }).map f =
      ((markerCheck passed t).map f).map fun u => { u with warn := w' } := by
  simp only [markerCheck]
  split
  · exact ⟨w, congrArg Except.ok (hf t w)⟩
  · split
    · exact ⟨setBit w 2, congrArg Except.ok (hf t.warnMark _)⟩
    · exact ⟨w, rfl⟩

theorem markerComplete_withWarn (t : TapeRegs) (w : BitVec 3) :
    markerComplete { t with warn := w } = { markerComplete t with warn := w } := by
  cases t with
  | mk phase =>
    cases phase
    case bodyMarker => simp only [markerComplete]; split <;> rfl
    all_goals rfl

theorem markerStep_withWarn (p : Nat) (t : TapeRegs) (w : BitVec 3) :
    ∃ w', markerStep p { t with warn := w } = (markerStep p t).map fun u => { u with warn := w' } := by
  simp only [markerStep]
  split
  · exact markerCheck_map_withWarn (leadOk t p) t w fun _ _ => rfl
  · exact ⟨w, rfl⟩
  · exact markerCheck_map_withWarn (longOk t p) t w fun _ _ => rfl
  · exact markerCheck_map_withWarn (isOne t p) t w fun _ _ => rfl
  · exact markerCheck_map_withWarn (isZero t p) t w fun u w => markerComplete_withWarn { u with msub := .none } w
  · exact ⟨w, rfl⟩

/-- The step of an impulse with other warnings is the same step, with other warnings (41_tape.md R69). -/
theorem tapeStep_withWarn (p : Nat) (s : State) (w : BitVec 3) :
    ∃ w', tapeStep p (s.withWarn w) = (tapeStep p s).map (State.withWarn · w') := by
  have hphase : (s.withWarn w).tape.phase = s.tape.phase := rfl
  have onTape {r r' : Except Stop TapeRegs} (h : ∃ w', r' = r.map fun u => { u with warn := w' }) :
      ∃ w', (s.withWarn w).onTape r' = (s.onTape r).map (State.withWarn · w') := by
    obtain ⟨w', rfl⟩ := h
    exact ⟨w', by cases r <;> rfl⟩
  have bits (h : tapeStep p s = readBitStep p s) :
      ∃ w', readBitStep p (s.withWarn w) = (readBitStep p s).map (State.withWarn · w') := by
    refine ⟨w, (readBitStep_graft s s.cfg.dbg (fun _ => w) p s).trans ?_⟩
    cases hr : readBitStep p s with
    | error r => rfl
    | ok u =>
      have hframe := tapeStep_frame (h.trans hr)
      rw [hframe]; rfl
  cases hp : s.tape.phase <;> simp only [tapeStep, hphase, hp] at bits ⊢
  case findPilot => exact onTape ⟨w, findPilotStep_withWarn p s.tape w⟩
  case headerMarker | bodyMarker | endTrailer => exact onTape (markerStep_withWarn p s.tape w)
  case readHeader | readData | cksum => exact bits trivial
  case pilotFound =>
    obtain ⟨w', h⟩ := pilotFoundStep_withWarn p s.tape w
    exact ⟨w', congrArg (fun t => Except.ok { s with tape := t }) h⟩
  case pilotFound2 =>
    obtain ⟨w', h⟩ := pilotFound2Step_withWarn p s.cfg s.tape w
    exact ⟨w', congrArg (fun t => Except.ok { s with tape := t }) h⟩
  all_goals exact ⟨w, rfl⟩

/-- TP_PULSE with other warnings does the same, with other warnings. -/
theorem exec_tpPulse_withWarn (v : BitVec 24) (s : State) (w : BitVec 3) :
    ∃ w', exec (.tpPulse v) (s.withWarn w) = mapNext (State.withWarn · w') (exec (.tpPulse v) s) := by
  have hphase : (s.withWarn w).tape.phase = s.tape.phase := rfl
  simp only [exec]
  rcases execTpPulse_cases v s with ⟨hv, h⟩ | ⟨hv, hp, h⟩ | ⟨hv, hp, h⟩ | ⟨hv, hi, hf, hd, h⟩ <;> rw [h]
  · exact ⟨w, by simp only [execTpPulse, hv, if_true]; rfl⟩
  · exact ⟨w, by rcases hp with hp | hp <;> simp only [execTpPulse, hv, hphase, hp, if_false] <;> rfl⟩
  · exact ⟨w, by simp only [execTpPulse, hv, hphase, hp, if_false]; rfl⟩
  · rw [execTpPulse_step (s := s.withWarn w) hv hi hf hd]
    obtain ⟨w', hstep⟩ := tapeStep_withWarn v.toNat s w
    rw [hstep]
    rcases tapeStep v.toNat s with (_ | _) | u
    · exact ⟨w, rfl⟩
    · exact ⟨w, rfl⟩
    · exact ⟨w', rfl⟩

/-- TP_END carries the warnings along. -/
theorem exec_tpEnd_withWarn (s : State) (w : BitVec 3) :
    exec .tpEnd (s.withWarn w) = mapNext (State.withWarn · w) (exec .tpEnd s) := by
  have hphase : (s.withWarn w).tape.phase = s.tape.phase := rfl
  simp only [exec, execTpEnd, hphase]
  split <;> rfl

/-- Settles O23: TP_PULSE carries the warnings along, RDREG reads them only at their index, and no other command reads
them. -/
theorem warningsHaveNoEffect : Obligations.WarningsHaveNoEffect := by
  intro i s w hrdreg
  show mapNext (State.withWarn · 0#3) (exec i (s.withWarn w)) = mapNext (State.withWarn · 0#3) (exec i s)
  have hframe := unitsShareNothing.1 i s
  have hreads := unitsShareNothing.2 i s (s.withWarn w)
  cases i
  case rdreg r =>
    have hreg := State.register_withWarn (fun h => hrdreg (h ▸ rfl)) s w
    exact exec_withWarn_of_reads (exec_rdreg_reads hreg) fun s' hs' => by rw [hframe s' hs']; rfl
  case memrd sp a =>
    have hmemrd := exec_memrd_reads (sp := sp) (a := a) (s := s) (t := s.withWarn w) (fun sp => by cases sp <;> rfl)
      (fun sp => by cases sp <;> rfl) (fun sp a => by cases sp <;> rfl)
    exact exec_withWarn_of_reads hmemrd fun s' hs' => by rw [hframe s' hs']; rfl
  case tpPulse v =>
    obtain ⟨w', h⟩ := exec_tpPulse_withWarn v s w
    exact exec_withWarn_of_reads h fun _ _ => rfl
  case tpEnd => exact exec_withWarn_of_reads (exec_tpEnd_withWarn s w) fun _ _ => rfl
  case nop | crcInit | crcMark | addInit | tpStart | flClear =>
    exact exec_withWarn_of_reads hreads fun s' hs' => by rw [hframe s' hs']; rfl
  case crcByte | crcCheck | addByte | addWord | addCheck | flSetpos | wrcfg | reset =>
    exact exec_withWarn_of_reads (hreads rfl) fun s' hs' => by rw [hframe s' hs']; rfl
  case flPush | flEst | flFind =>
    exact exec_withWarn_of_reads (hreads rfl rfl rfl) fun s' hs' => by rw [hframe s' hs']; rfl
  case flRead | flHdr | flData =>
    exact exec_withWarn_of_reads (hreads rfl rfl rfl rfl rfl) fun s' hs' => by rw [hframe s' hs']; rfl

end Sys2Proof.Machine
end

section
/-! PROOF. The registers by their indices (10_state.md R18 to R28). -/

namespace Sys2Proof.Machine

/-- The TAPE registers have the indices below 0x30 (10_state.md R18). -/
theorem State.register_tape {r : BitVec 8} (h : r.toNat < 0x30) (s : State) :
    s.register r = tapeRegister s.tape r.toNat := by
  simp only [State.register, show r.toNat ≠ 0x50 by omega, show r.toNat ≠ 0x58 by omega,
    show ¬0x70 ≤ r.toNat by omega, show ¬0x30 ≤ r.toNat by omega, if_false]

/-- The FLOPPY registers have the indices from 0x30 to below 0x50. -/
theorem State.register_floppy {r : BitVec 8} (hlow : 0x30 ≤ r.toNat) (hhigh : r.toNat < 0x50) (s : State) :
    s.register r = floppyRegister s.floppy r.toNat := by
  simp only [State.register, show r.toNat ≠ 0x50 by omega, show r.toNat ≠ 0x58 by omega,
    show ¬0x70 ≤ r.toNat by omega, hlow, if_false, if_true]

/-- The configuration registers have the indices from 0x70 on. -/
theorem State.register_config {r : BitVec 8} (h : 0x70 ≤ r.toNat) (s : State) :
    s.register r = configRegister s.cfg (r.toNat - 0x70) := by
  simp only [State.register, show r.toNat ≠ 0x50 by omega, show r.toNat ≠ 0x58 by omega, h, if_false, if_true]

theorem State.register_crc (s : State) : s.register 0x50#8 = some (zext s.crc) := rfl

theorem State.register_sum (s : State) : s.register 0x58#8 = some (zext s.sum) := rfl

/-- A one-bit register reads as 0 or 1. -/
theorem setWidth_ofBool (b : Bool) : (BitVec.ofBool b).setWidth 32 = if b then 1#32 else 0#32 := by
  cases b <;> rfl

theorem setWidth_floppyMode (m : FloppyMode) : m.code.setWidth 32 = if m = .fatal then 1#32 else 0#32 := by
  cases m <;> rfl

/-- The low half of a 64-bit register. -/
theorem extractLsb'_low (v : BitVec 64) : v.extractLsb' 0 32 = v.setWidth 32 :=
  (BitVec.setWidth_eq_extractLsb' (by decide)).symm

/-- The high half of a 64-bit register. -/
theorem extractLsb'_high (v : BitVec 64) : v.extractLsb' 32 32 = (v >>> 32).setWidth 32 := by
  apply BitVec.eq_of_toNat_eq
  simp

/-- Settles O27: each unit's registers by its own table, the halves and the one-bit registers by the lemmas above. -/
theorem registerIndicesNameTheirRegisters : Obligations.RegisterIndicesNameTheirRegisters := by
  refine ⟨rfl, rfl, rfl, fun s => ⟨?_, ?_, ?_, ?_, ?_⟩⟩
  · simp [State.register_tape, tapeRegister, zext, setWidth_ofBool, extractLsb'_low, extractLsb'_high]
  · simp [State.register_tape, tapeRegister, zext, setWidth_ofBool]
  · simp [State.register_floppy, floppyRegister, zext, setWidth_ofBool, setWidth_floppyMode, extractLsb'_low,
      extractLsb'_high]
  · simp [State.register_floppy, floppyRegister, zext]
  · simp [State.register_crc, State.register_sum, State.register_config, configRegister, zext, setWidth_ofBool]

end Sys2Proof.Machine
end

section
/-! PROOF. One step of the block (20_memory.md R46, 30_encoding.md R56, 60_exceptions.md R142), and that no step from a
state with the invariant stops: none of the model's faults is met. -/

namespace Sys2Proof.Machine

/-! ### One step -/

/-- With no word issued the block is idle (60_exceptions.md R142). -/
theorem step_idle {s : State} (hp : s.pending = []) : step s = .next s := by
  simp only [step, State.takeCommand, hp]

/-- A word that is a command is run (20_memory.md R46). -/
theorem step_command {s : State} {c : Word} {cs : List Word} {i : Instr} (hp : s.pending = c :: cs)
    (hd : decode c = .ok i) : step s = exec i { s with pending := cs } := by
  simp only [step, State.takeCommand, hp, hd]

/-- A word that is no command is answered ILLEGAL (30_encoding.md R56, R57). -/
theorem step_illegal {s : State} {c : Word} {cs : List Word} {e : DecodeError} (hp : s.pending = c :: cs)
    (hd : decode c = .error e) : step s = .next (State.refuse { s with pending := cs } .illegal) := by
  simp only [step, State.takeCommand, hp, hd, answerIllegal]

/-- Everything a step can be: idle, a command, or the answer to a word that is none. -/
theorem step_cases (s : State) :
    step s = .next s ∨
      (∃ c cs i, s.pending = c :: cs ∧ decode c = .ok i ∧ step s = exec i { s with pending := cs }) ∨
      (∃ c cs, s.pending = c :: cs ∧ step s = .next (State.refuse { s with pending := cs } .illegal)) := by
  cases hp : s.pending with
  | nil => exact .inl (step_idle hp)
  | cons c cs =>
    cases hd : decode c with
    | ok i => exact .inr (.inl ⟨c, cs, i, rfl, hd, step_command hp hd⟩)
    | error e => exact .inr (.inr ⟨c, cs, rfl, step_illegal hp hd⟩)

/-- Settles O6: the block's two cases without an illegal word. -/
theorem stepRunsDecodedCommand : Obligations.StepRunsDecodedCommand :=
  ⟨fun _ _ _ _ hp hd => step_command hp hd, fun _ hp => step_idle hp⟩

/-! ### Reads that never stop -/

/-- Below the fill count of a space every element is written (20_memory.md R36). -/
theorem State.BuffersHold.memRead {s : State} (h : s.BuffersHold) {sp : Space} {a : Nat} (ha : a < s.limit sp) :
    ∃ v, s.memRead sp a = .ok v := by
  have hread {w : Nat} {m : Memory w} {fill size : Nat} (hm : Memory.Holds m fill size) (ha : a < fill) :
      a < size ∧ ∃ v, (Memory.read m a).map (fun v => v.setWidth 32) = some v := by
    obtain ⟨v, hv⟩ := hm.filled a ha
    exact ⟨ha.trans_le hm.fits, _, by rw [hv]; rfl⟩
  have hspace : a < s.size sp ∧ ∃ v, s.element sp a = some v := by
    cases sp
    case tb => exact hread h.tb ha
    case hb => exact hread h.hb ha
    case fb => exact hread h.fb ha
    case fom => exact hread h.fom ha
    case fm => exact hread h.fm ha
  obtain ⟨hsize, v, hv⟩ := hspace
  exact ⟨v, by simp only [State.memRead, hsize.not_ge, if_false, hv]⟩

/-! ### TAPE -/

/-- The byte counters never reach past their buffers, so a completed byte finds its element (41_tape.md R84). -/
theorem TapeRegs.Inv.room {t : TapeRegs} (h : t.Inv) (hs : t.syncph = false) :
    (t.phase = .readHeader → t.hcnt.toNat < 20) ∧ (t.phase = .readData → t.bcnt.toNat < 65536) ∧
      (t.phase = .cksum → t.ccnt.toNat < 2) := by
  have hprog := h.progress
  refine ⟨fun hp => ?_, fun hp => ?_, fun hp => ?_⟩ <;> simp only [TapeRegs.Progress, hp] at hprog
  · obtain ⟨-, hsum, -, -, -, hr⟩ := hprog
    have hr := hr hs
    bv_omega
  · obtain ⟨-, -, hsum, -⟩ := hprog
    have hlen := t.length.isLt
    omega
  · obtain ⟨-, -, -, hsum, -, hr⟩ := hprog
    have hr := hr hs
    bv_omega

/-- A byte completed in a state with the invariant is stored (41_tape.md R84). -/
theorem storeByte_ne_error {s : State} (h : s.Inv) (hs : s.tape.syncph = false) (b : BitVec 8) (r : Stop) :
    storeByte b s ≠ .error r := by
  intro he
  obtain ⟨hheader, hbody, hck⟩ := h.tape.room hs
  rcases storeByte_error he with ⟨hp, hfull⟩ | ⟨hp, hfull⟩ | ⟨hp, hfull⟩
  · exact absurd (hheader hp) (by omega)
  · exact absurd (hbody hp) (by omega)
  · exact absurd (hck hp) (by omega)

/-- The segment that ends in a state with the invariant is whole: the header has the bytes it is unpacked from
(41_tape.md R85). -/
theorem segmentComplete_ne_error {s : State} (h : s.Inv) (hr : s.tape.rem = 0#16) (r : Stop) :
    segmentComplete { s with tape := { s.tape with syncph := false } } ≠ .error r := by
  intro he
  rcases segmentComplete_cases { s with tape := { s.tape with syncph := false } } with
    ⟨hp, -⟩ | ⟨-, h'⟩ | ⟨-, h'⟩ | ⟨-, h'⟩
  · have hprog := h.tape.progress
    simp only at hp
    simp only [TapeRegs.Progress, hp] at hprog
    obtain ⟨-, hsum, -⟩ := hprog
    have hfull : s.tape.hcnt.toNat = 20 := by rw [hr] at hsum; simpa using hsum
    have hwritten : ∀ a < 4, ∃ b, Memory.read s.hb a = some b := fun a ha =>
      h.buffers.hb.filled a (by simp only [State.limit]; omega)
    obtain ⟨b0, h0⟩ := hwritten 0 (by decide)
    obtain ⟨b1, h1⟩ := hwritten 1 (by decide)
    obtain ⟨b2, h2⟩ := hwritten 2 (by decide)
    obtain ⟨b3, h3⟩ := hwritten 3 (by decide)
    rw [segmentComplete_header (s := { s with tape := { s.tape with syncph := false } }) hp h0 h1 h2 h3] at he
    cases he
  all_goals rw [h'] at he; cases he

/-- The read_bit step meets no fault (41_tape.md R80 to R85). -/
theorem readBitStep_ne_fault {s : State} (h : s.Inv) (p : Nat) (f : Fault) :
    readBitStep p s ≠ .error (.fault f) := by
  intro he
  rcases readBitStep_cases p s with ⟨-, h'⟩ | ⟨-, hs, h'⟩ | ⟨-, -, h'⟩ <;> rw [h'] at he
  · cases he
  · rcases dataBitStep_cases p s with ⟨-, h'⟩ | ⟨-, h'⟩ <;> rw [h'] at he
    · cases he
    · cases hb : storeByte (shiftIn s.tape.acc (isOne s.tape p)) s with
      | error r => exact storeByte_ne_error h hs _ r hb
      | ok u => rw [hb] at he; cases he
  · rcases syncBitStep_cases p s with ⟨-, h'⟩ | ⟨-, -, h'⟩ | ⟨-, hr, h'⟩ <;> rw [h'] at he
    · cases he
    · cases he
    · exact segmentComplete_ne_error h hr _ he

/-- In a marker phase a sub-state is open (41_tape.md R75). -/
theorem TapeRegs.Inv.msub_ne_none {t : TapeRegs} (h : t.Inv) (hp : t.phase.isMarker = true) : t.msub ≠ .none := by
  have hprog := h.progress
  cases hph : t.phase <;> simp only [hph, Phase.isMarker, reduceCtorEq, TapeRegs.Progress] at hp hprog
  all_goals exact hprog.1

/-- The marker step meets no fault (41_tape.md R76). -/
theorem markerStep_ne_fault {t : TapeRegs} (h : t.Inv) (hp : t.phase.isMarker = true) (p : Nat)
    (f : Fault) : markerStep p t ≠ .error (.fault f) := by
  intro he
  rcases markerStep_error he with ⟨h', -⟩ | ⟨-, hnone⟩
  · cases h'
  · exact h.msub_ne_none hp hnone

theorem findPilotStep_ne_fault (p : Nat) (t : TapeRegs) (f : Fault) : findPilotStep p t ≠ .error (.fault f) := by
  rcases findPilotStep_cases p t with ⟨-, -, h⟩ | ⟨-, -, h⟩ | ⟨-, -, h⟩ <;> rw [h] <;> exact nofun

/-- The step of an impulse meets no fault, phase by phase (41_tape.md R69). -/
theorem tapeStep_ne_fault {s : State} (h : s.Inv) (p : Nat) (f : Fault) :
    tapeStep p s ≠ .error (.fault f) := by
  have onTape {r : Except Stop TapeRegs} (hr : r ≠ .error (.fault f)) : s.onTape r ≠ .error (.fault f) := by
    cases r with
    | error e => exact fun he => hr (by cases he; rfl)
    | ok t => exact nofun
  cases hp : s.tape.phase <;> simp only [tapeStep, hp]
  case findPilot => exact onTape (findPilotStep_ne_fault p s.tape f)
  case headerMarker | bodyMarker | endTrailer =>
    exact onTape (markerStep_ne_fault h.tape (by simp [hp, Phase.isMarker]) p f)
  case readHeader | readData | cksum => exact readBitStep_ne_fault h p f
  all_goals exact nofun

theorem exec_tpPulse_exists_next {s : State} (h : s.Inv) (v : BitVec 24) : ∃ s', exec (.tpPulse v) s = .next s' := by
  rw [exec]
  rcases execTpPulse_cases v s with ⟨-, h'⟩ | ⟨-, -, h'⟩ | ⟨-, -, h'⟩ | ⟨-, -, -, -, h'⟩ <;> rw [h']
  case inr.inr.inr =>
    rcases finishTape_cases s (tapeStep v.toNat s) with ⟨u, -, h'⟩ | ⟨k, -, h'⟩ | ⟨f, hf, -⟩
    · exact ⟨_, h'⟩
    · exact ⟨_, h'⟩
    · exact absurd hf (tapeStep_ne_fault h _ f)
  all_goals exact ⟨_, rfl⟩

theorem exec_tpEnd_exists_next (s : State) : ∃ s', exec .tpEnd s = .next s' := by
  rw [exec]
  rcases execTpEnd_cases s with ⟨-, h'⟩ | ⟨-, h'⟩ | ⟨-, h'⟩ | ⟨-, -, -, -, h'⟩ <;> exact ⟨_, h'⟩

/-! ### FLOPPY -/

/-- FL_COUNT is at most P_FM_DEPTH, so an interval that is appended has its element (42_floppy.md R94). -/
theorem exec_flPush_exists_next {s : State} (h : s.Inv) (v : BitVec 24) : ∃ s', exec (.flPush v) s = .next s' := by
  rw [exec]
  rcases execFlPush_cases v s with ⟨-, h'⟩ | ⟨-, -, h'⟩ | ⟨-, hover, -⟩ | ⟨-, -, -, h'⟩
  case inr.inr.inl => exact absurd h.buffers.fm.fits (by simp only [State.limit, State.size]; omega)
  all_goals exact ⟨_, h'⟩

theorem exec_flEst_exists_next {s : State} (h : s.Inv) : ∃ s', exec .flEst s = .next s' := by
  have hspan := State.fluxSpan_eq h.buffers.fm (a := 0) (n := s.floppy.count.toNat) (by omega)
  simp only [exec, execFlEst, hspan]
  split
  · exact ⟨_, rfl⟩
  · split
    · exact ⟨_, rfl⟩
    · split <;> exact ⟨_, rfl⟩

theorem exec_flFind_exists_next {s : State} (h : s.Inv) : ∃ s', exec .flFind s = .next s' := by
  have hpos := h.floppy.pos
  have hspan := State.fluxSpan_eq h.buffers.fm (a := s.floppy.pos.toNat)
    (n := s.floppy.count.toNat - s.floppy.pos.toNat) (by omega)
  simp only [exec, execFlFind, hspan]
  split
  · exact ⟨_, rfl⟩
  · split <;> exact ⟨_, rfl⟩

theorem exec_flSetpos_exists_next (p : BitVec 21) (s : State) : ∃ s', exec (.flSetpos p) s = .next s' := by
  simp only [exec, execFlSetpos]
  split
  · exact ⟨_, rfl⟩
  · split <;> exact ⟨_, rfl⟩

/-- A decode reads only written intervals of FM (42_floppy.md R102). -/
theorem State.runDecode_exists_next {s : State} (h : s.Inv) (n : Nat) (finish : MfmOut → FloppyRegs → FloppyRegs) :
    ∃ s', s.runDecode n finish = .next s' := by
  rcases s.runDecode_cases n finish with ⟨-, h'⟩ | ⟨-, -, h'⟩ | ⟨-, f, hf, -⟩ | ⟨-, o, -, h'⟩
  case inr.inr.inl =>
    rw [State.decodeField_eq h.buffers.fm] at hf
    cases hm : mfmDecode s.cell s.floppy.count.toNat s.floppy.mpos.toNat n s.markedFlux <;>
      rw [hm, boundStop] at hf <;> cases hf
  all_goals exact ⟨_, h'⟩

/-! ### Every command -/

theorem exec_rdreg_exists_next (r : BitVec 8) (s : State) : ∃ s', exec (.rdreg r) s = .next s' := by
  simp only [exec, execRdreg]
  split <;> exact ⟨_, rfl⟩

theorem exec_wrcfg_exists_next (ci : BitVec 8) (val : BitVec 16) (s : State) :
    ∃ s', exec (.wrcfg ci val) s = .next s' := by
  simp only [exec, execWrcfg]
  split <;> exact ⟨_, rfl⟩

/-- MEMRD refuses what is not below the fill count, and all else is written (40_control.md R65). -/
theorem exec_memrd_exists_next {s : State} (h : s.Inv) (sp : BitVec 4) (a : BitVec 20) :
    ∃ s', exec (.memrd sp a) s = .next s' := by
  simp only [exec, execMemrd]
  split
  · exact ⟨_, rfl⟩
  next space _ =>
    by_cases hlimit : s.limit space ≤ a.toNat
    · simp only [hlimit, if_true]; exact ⟨_, rfl⟩
    · obtain ⟨v, hv⟩ := h.buffers.memRead (Nat.lt_of_not_le hlimit)
      simp only [hlimit, if_false, hv]; exact ⟨_, rfl⟩

/-- Every command leads to a next state. -/
theorem exec_exists_next {s : State} (h : s.Inv) (i : Instr) : ∃ s', exec i s = .next s' := by
  cases i
  case rdreg r => exact exec_rdreg_exists_next r s
  case wrcfg ci val => exact exec_wrcfg_exists_next ci val s
  case memrd sp a => exact exec_memrd_exists_next h sp a
  case tpPulse v => exact exec_tpPulse_exists_next h v
  case tpEnd => exact exec_tpEnd_exists_next s
  case flPush v => exact exec_flPush_exists_next h v
  case flEst => exact exec_flEst_exists_next h
  case flFind => exact exec_flFind_exists_next h
  case flSetpos p => exact exec_flSetpos_exists_next p s
  case flRead n =>
    simp only [exec, execFlRead]
    split
    · exact ⟨_, rfl⟩
    · exact State.runDecode_exists_next h _ _
  case flHdr => exact State.runDecode_exists_next h _ _
  case flData c =>
    simp only [exec, execFlData]
    split
    · exact ⟨_, rfl⟩
    · exact State.runDecode_exists_next h _ _
  all_goals exact ⟨_, rfl⟩

/-- Settles O8: the words that wait are no part of the invariant, so the command runs from a state that has it. -/
theorem stepNeverStops : Obligations.StepNeverStops := by
  intro s h
  rcases step_cases s with h' | ⟨c, cs, i, -, -, h'⟩ | ⟨c, cs, -, h'⟩
  · exact ⟨_, h'⟩
  · have hpending : ({ s with pending := cs } : State).Inv := h.withScratch _ _ _ _
    obtain ⟨s', hs'⟩ := exec_exists_next hpending i
    exact ⟨s', h'.trans hs'⟩
  · exact ⟨_, h'⟩

end Sys2Proof.Machine
end

section
/-! PROOF. What is stored where (20_memory.md R44): the one byte of an impulse, the interval of FL_PUSH, the field of a
decode; every other element of the buffers reads as before. -/

namespace Sys2Proof.Machine

/-! ### TAPE -/

/-- An impulse completes a byte of the phase `ph` (41_tape.md R82). -/
def TapeRegs.CompletesByte (t : TapeRegs) (ph : Phase) : Prop :=
  t.phase = ph ∧ t.syncph = false ∧ t.bitcnt = 7#3

/-- The step of an impulse leaves HB and TB, or it writes the element its byte counter names (41_tape.md R84). -/
theorem tapeStep_buffers {p : Nat} {s u : State} (h : tapeStep p s = .ok u) :
    (u.hb = s.hb ∨ s.tape.CompletesByte .readHeader ∧ ∃ b, u.hb = Memory.write s.hb s.tape.hcnt.toNat b) ∧
      (u.tb = s.tb ∨ s.tape.CompletesByte .readData ∧ ∃ b, u.tb = Memory.write s.tb s.tape.bcnt.toNat b) := by
  rcases tapeStep_ok h with ⟨-, rfl⟩ | ⟨-, ⟨-, -, rfl⟩ | ⟨-, rfl⟩⟩ | ⟨-, rfl⟩ | ⟨-, rfl⟩ | ⟨-, -, rfl | rfl⟩ |
    ⟨-, -, -, rfl⟩ | ⟨-, hs, hb, v, hv, rfl⟩ | ⟨-, -, -, rfl⟩ | ⟨-, -, -, hc⟩
  case inr.inr.inr.inr.inr.inr.inl =>
    rcases storeByte_ok hv with ⟨hp, -, rfl⟩ | ⟨hp, -, rfl⟩ | ⟨-, _, -, rfl⟩ | ⟨-, rfl⟩
    · exact ⟨.inr ⟨⟨hp, hs, hb⟩, _, rfl⟩, .inl rfl⟩
    · exact ⟨.inl rfl, .inr ⟨⟨hp, hs, hb⟩, _, rfl⟩⟩
    · exact ⟨.inl rfl, .inl rfl⟩
    · exact ⟨.inl rfl, .inl rfl⟩
  case inr.inr.inr.inr.inr.inr.inr.inr => rw [segmentComplete_frame hc]; exact ⟨.inl rfl, .inl rfl⟩
  all_goals exact ⟨.inl rfl, .inl rfl⟩

/-- So does TP_PULSE: refused or fatal, it stores nothing. -/
theorem exec_tpPulse_buffers {v : BitVec 24} {s s' : State} (h : exec (.tpPulse v) s = .next s') :
    (s'.hb = s.hb ∨ s.tape.CompletesByte .readHeader ∧ ∃ b, s'.hb = Memory.write s.hb s.tape.hcnt.toNat b) ∧
      (s'.tb = s.tb ∨ s.tape.CompletesByte .readData ∧ ∃ b, s'.tb = Memory.write s.tb s.tape.bcnt.toNat b) := by
  rcases execTpPulse_next v s s' h with ⟨rfl, -⟩ | ⟨rfl, -⟩ | ⟨rfl, -⟩ | ⟨-, -, -, -, ⟨u, hu, rfl⟩ | ⟨k, -, rfl⟩⟩
  case inr.inr.inr.inl => exact (tapeStep_buffers hu :)
  all_goals exact ⟨.inl rfl, .inl rfl⟩

/-- A buffer that is left, or written at one element, reads as before at every other one. -/
theorem Memory.read_of_write_at_most {w : Nat} {m m' : Memory w} {c : Prop} {n a : Nat}
    (h : m' = m ∨ c ∧ ∃ b, m' = Memory.write m n b) (ha : ¬(c ∧ a = n)) : Memory.read m' a = Memory.read m a := by
  rcases h with rfl | ⟨hc, b, rfl⟩
  · rfl
  · exact Memory.read_write_other m b fun han => ha ⟨hc, han⟩

/-- Settles O18: HB and TB by what an impulse writes, the other buffers by the frame of TP_PULSE. -/
theorem tapeCommandsMemoryFrame : Obligations.TapeCommandsMemoryFrame := by
  intro v s s' h
  obtain ⟨hhb, htb⟩ := exec_tpPulse_buffers h
  refine ⟨fun a ha => ?_, fun a ha => ?_, fun a => ?_⟩
  · have hread : Memory.read s'.hb a = Memory.read s.hb a :=
      Memory.read_of_write_at_most hhb fun ⟨⟨hp, hs, hb⟩, han⟩ => ha ⟨hp, hs, hb, han⟩
    simp only [State.element, hread]
  · have hread : Memory.read s'.tb a = Memory.read s.tb a :=
      Memory.read_of_write_at_most htb fun ⟨⟨hp, hs, hb⟩, han⟩ => ha ⟨hp, hs, hb, han⟩
    simp only [State.element, hread]
  · rw [exec_tpPulse_frame h]
    exact ⟨rfl, rfl, rfl⟩

/-! ### FLOPPY -/

/-- FL_PUSH leaves FM, or it writes the element FL_COUNT names (42_floppy.md R94). -/
theorem exec_flPush_fm {v : BitVec 24} {s s' : State} (h : exec (.flPush v) s = .next s') :
    s'.fm = s.fm ∨ s'.fm = Memory.write s.fm s.floppy.count.toNat v := by
  rw [exec] at h
  rcases execFlPush_cases v s with ⟨-, h'⟩ | ⟨-, -, h'⟩ | ⟨-, -, h'⟩ | ⟨-, -, -, h'⟩ <;> rw [h'] at h <;> cases h
  · exact .inl rfl
  · exact .inl rfl
  · exact .inr rfl

/-- The three decode commands: refused for their operand, or the decode of as many groups as they ask for
(42_floppy.md R106, R107, R109). -/
theorem exec_decode_cases {i : Instr} {n : Nat}
    (hi : i = .flRead (BitVec.ofNat 11 n) ∧ n < 2048 ∨ i = .flHdr ∧ n = 10 ∨
      ∃ z, i = .flData z ∧ n = payloadSize z + 6) (s : State) :
    exec i s = .next (s.refuse .badarg) ∨ ∃ finish, exec i s = s.runDecode n finish := by
  rcases hi with ⟨rfl, hn⟩ | ⟨rfl, rfl⟩ | ⟨z, rfl, rfl⟩
  · have hcast : (BitVec.ofNat 11 n).toNat = n := by rw [BitVec.toNat_ofNat, Nat.mod_eq_of_lt hn]
    simp only [exec, execFlRead, hcast]
    split
    · exact .inl rfl
    · exact .inr ⟨_, rfl⟩
  · exact .inr ⟨_, rfl⟩
  · simp only [exec, execFlData]
    split
    · exact .inl rfl
    · exact .inr ⟨_, rfl⟩

/-- A decode leaves FB and FOM, or it writes the groups of its symbols from element 0 on (42_floppy.md R104). -/
theorem State.runDecode_buffers {s s' : State} {n : Nat} {finish : MfmOut → FloppyRegs → FloppyRegs}
    (h : s.runDecode n finish = .next s') :
    (s'.fb = s.fb ∧ s'.fom = s.fom) ∨
      ∃ o, s.decodeField n = .ok o ∧ s'.fb = Memory.writeSpan s.fb 0 ((assemble o.syms).map MfmGroup.value) ∧
        s'.fom = Memory.writeSpan s.fom 0 ((assemble o.syms).map MfmGroup.mask) := by
  rcases State.runDecode_next h with ⟨rfl, -⟩ | ⟨-, -, rfl⟩ | ⟨-, o, ho, rfl⟩
  · exact .inl ⟨rfl, rfl⟩
  · exact .inl ⟨rfl, rfl⟩
  · exact .inr ⟨o, ho, rfl, rfl⟩

/-- FB and FOM at an element that no group of the field decoded reaches. -/
theorem State.runDecode_element {s s' : State} {n a : Nat} {finish : MfmOut → FloppyRegs → FloppyRegs}
    (h : s.runDecode n finish = .next s') (ha : ∀ o, s.decodeField n = .ok o → (assemble o.syms).length ≤ a) :
    s'.element .fb a = s.element .fb a ∧ s'.element .fom a = s.element .fom a := by
  rcases State.runDecode_buffers h with ⟨hfb, hfom⟩ | ⟨o, ho, hfb, hfom⟩ <;> simp only [State.element, hfb, hfom]
  · exact ⟨trivial, trivial⟩
  · have hout := ha o ho
    rw [Memory.read_writeSpan_other _ _ _ (by simp; omega), Memory.read_writeSpan_other _ _ _ (by simp; omega)]
    exact ⟨rfl, rfl⟩

/-- Settles O19: a decode that fails has no groups, so the same bound on the elements serves both its cases. -/
theorem floppyCommandsMemoryFrame : Obligations.FloppyCommandsMemoryFrame := by
  constructor
  · intro v s s' h
    constructor
    · intro a ha
      rcases exec_flPush_fm h with hfm | hfm <;> simp only [State.element, hfm]
      rw [Memory.read_write_other _ _ ha]
    · intro a
      rw [exec_flPush_frame h]
      exact ⟨rfl, rfl⟩
  · intro i n s s' hi h
    rcases exec_decode_cases hi s with h' | ⟨finish, h'⟩ <;> rw [h'] at h
    · cases h; simp
    · refine ⟨fun a => ?_, fun o ho a ha => ?_, fun e he a => ?_⟩
      · rw [State.runDecode_frame h]; rfl
      · refine State.runDecode_element h fun o' ho' => ?_
        rw [ho] at ho'; cases ho'; exact ha
      · refine State.runDecode_element h fun o ho => ?_
        rw [he] at ho; cases ho

end Sys2Proof.Machine
end

section
/-! PROOF. The tape record (20_memory.md R34, R38, 41_tape.md R84, R85): every step keeps TP_SUM the checksum of the
body stored so far, and the unpacked header equal to the first bytes of HB. -/

namespace Sys2Proof.Machine

/-! ### The body -/

/-- The body is what TB holds below TP_BCNT. -/
theorem State.bodyBytes_congr {s u : State} (htb : u.tb = s.tb) (hbcnt : u.tape.bcnt = s.tape.bcnt) :
    u.bodyBytes = s.bodyBytes := by
  simp only [State.bodyBytes, htb, hbcnt]

/-- A byte stored at TP_BCNT, which goes up by one, is appended to the body (41_tape.md R84). -/
theorem State.bodyBytes_store {s u : State} {b : BitVec 8} (htb : u.tb = Memory.write s.tb s.tape.bcnt.toNat b)
    (hbcnt : u.tape.bcnt = s.tape.bcnt + 1#17) (hroom : s.tape.bcnt.toNat < 65536) :
    u.bodyBytes = s.bodyBytes ++ [b] := by
  have hinc : (s.tape.bcnt + 1#17).toNat = s.tape.bcnt.toNat + 1 := by bv_omega
  have hbelow : ∀ a ∈ List.range s.tape.bcnt.toNat,
      (Memory.read (Memory.write s.tb s.tape.bcnt.toNat b) a).getD 0#8 = (Memory.read s.tb a).getD 0#8 := by
    intro a ha
    rw [Memory.read_write_other _ _ (List.mem_range.1 ha).ne]
  simp only [State.bodyBytes, htb, hbcnt, hinc, List.range_succ, List.map_append, List.map_cons, List.map_nil,
    Memory.read_write_same, Option.getD_some, List.map_congr_left hbelow]

/-! ### What keeps the record -/

/-- The header the record speaks of: TP_START_ADDR and TP_LENGTH are HB[0..3], low byte first (R85). -/
def State.HeaderUnpacked (s : State) : Prop :=
  ∃ b0 b1 b2 b3, Memory.read s.hb 0 = some b0 ∧ Memory.read s.hb 1 = some b1 ∧ Memory.read s.hb 2 = some b2 ∧
    Memory.read s.hb 3 = some b3 ∧ s.tape.startAddr = b1 ++ b0 ∧ s.tape.length = b3 ++ b2

/-- Where TP_SUM and the body are as before, the record has only its header left to show. -/
theorem State.RecordInv.sameBody {s u : State} (h : s.RecordInv) (hsum : u.tape.sum = s.tape.sum)
    (htb : u.tb = s.tb) (hbcnt : u.tape.bcnt = s.tape.bcnt)
    (hheader : u.tape.phase.headerKnown = true → u.HeaderUnpacked) : u.RecordInv where
  body := by rw [hsum, h.body, State.bodyBytes_congr htb hbcnt]
  header := hheader

/-- TAPE registers that leave the body and the header registers, and enter no phase after the header. -/
theorem State.RecordInv.withTape {s : State} (h : s.RecordInv) {t : TapeRegs} (hsum : t.sum = s.tape.sum)
    (hbcnt : t.bcnt = s.tape.bcnt) (hstart : t.startAddr = s.tape.startAddr) (hlen : t.length = s.tape.length)
    (hphase : t.phase.headerKnown = true → s.tape.phase.headerKnown = true) :
    ({ s with tape := t } : State).RecordInv := by
  refine h.sameBody hsum rfl hbcnt fun hp => ?_
  have hheader := h.header (hphase hp)
  rwa [← hstart, ← hlen] at hheader

/-- What a command outside TAPE writes is no part of the record. -/
theorem State.RecordInv.of_tape {s u : State} (h : s.RecordInv) (htape : u.tape = s.tape) (htb : u.tb = s.tb)
    (hhb : u.hb = s.hb) : u.RecordInv := by
  obtain ⟨hbody, hheader⟩ := h
  constructor
  · rw [State.bodyBytes_congr htb (by rw [htape]), htape, hbody]
  · rw [htape, hhb]; exact hheader

/-- With no body byte and no header the record is empty. -/
theorem State.recordInv_empty {s : State} (hsum : s.tape.sum = 0#16) (hbcnt : s.tape.bcnt = 0#17)
    (hphase : s.tape.phase.headerKnown = false) : s.RecordInv where
  body := by simp [State.bodyBytes, hsum, hbcnt]
  header hp := by simp [hphase] at hp

/-! ### TAPE commands -/

@[simp] theorem TapeRegs.advance_sum (t : TapeRegs) : t.advance.sum = t.sum := by rw [t.advance_frame]
@[simp] theorem TapeRegs.advance_startAddr (t : TapeRegs) : t.advance.startAddr = t.startAddr := by
  rw [t.advance_frame]
@[simp] theorem TapeRegs.advance_length (t : TapeRegs) : t.advance.length = t.length := by rw [t.advance_frame]

/-- No marker leads past the unpacking of the header: it is the end of a segment that does (41_tape.md R78, R85). -/
theorem TapeRegs.advance_headerKnown {t : TapeRegs} (h : t.advance.phase.headerKnown = true) :
    t.phase.headerKnown = true := by
  cases hm : t.msub <;> simp only [TapeRegs.advance, hm] at h
  case sync0 => cases hp : t.phase <;> simp [hp, TapeRegs.enterSegment, Phase.headerKnown] at h ⊢
  all_goals exact h

theorem State.RecordInv.advance {s : State} (h : s.RecordInv) : ({ s with tape := s.tape.advance } : State).RecordInv :=
  h.withTape (by simp) (by simp) (by simp) (by simp) TapeRegs.advance_headerKnown

theorem State.RecordInv.failTape {s : State} (h : s.RecordInv) (k : ErrKind) : (s.failTape k).RecordInv :=
  (h.withTape (t := { s.tape with phase := .fatal, err := k }) rfl rfl rfl rfl nofun).of_tape rfl rfl rfl

/-- A byte stored: of the body, it is added to TP_SUM; of the header, which is not yet unpacked, or of the checksum,
it is no part of the record (41_tape.md R84). -/
theorem State.RecordInv.storeByte {s u : State} (h : s.RecordInv) {b : BitVec 8} (hu : storeByte b s = .ok u) :
    u.RecordInv := by
  rcases storeByte_ok hu with ⟨hp, -, rfl⟩ | ⟨-, hroom, rfl⟩ | ⟨-, ck, -, rfl⟩ | ⟨-, rfl⟩
  · exact h.sameBody rfl rfl rfl fun hk => by simp [hp, Phase.headerKnown] at hk
  · refine ⟨?_, h.header⟩
    rw [State.bodyBytes_store (s := s) rfl rfl hroom, eacSeq_append, ← h.body]
    rfl
  · exact h.withTape rfl rfl rfl rfl id
  · exact h

/-- The end of a segment: the header is unpacked from HB[0..3], the other segments leave the record (41_tape.md R85). -/
theorem State.RecordInv.segmentComplete {s u : State} (h : s.RecordInv) (hu : segmentComplete s = .ok u) :
    u.RecordInv := by
  rcases segmentComplete_ok hu with ⟨-, b0, b1, b2, b3, h0, h1, h2, h3, rfl⟩ | ⟨hp, rfl⟩ | ⟨hp, rfl⟩ | ⟨-, rfl⟩
  · exact h.sameBody rfl rfl rfl fun _ => ⟨b0, b1, b2, b3, h0, h1, h2, h3, rfl, rfl⟩
  · exact h.withTape rfl rfl rfl rfl fun _ => by rw [hp]; rfl
  · exact h.withTape rfl rfl rfl rfl fun _ => by rw [hp]; rfl
  · exact h

/-- The step of an impulse keeps the record, phase by phase (41_tape.md R69). -/
theorem State.RecordInv.tapeStep {s u : State} (h : s.RecordInv) {p : Nat} (hu : tapeStep p s = .ok u) :
    u.RecordInv := by
  rcases tapeStep_ok hu with ⟨-, rfl⟩ | ⟨-, ⟨-, -, rfl⟩ | ⟨-, rfl⟩⟩ | ⟨-, rfl⟩ | ⟨-, rfl⟩ | ⟨-, -, rfl | rfl⟩ |
    ⟨-, -, -, rfl⟩ | ⟨-, -, -, v, hv, rfl⟩ | ⟨-, -, -, rfl⟩ | ⟨-, -, -, hc⟩
  · exact h
  · exact h.withTape rfl rfl rfl rfl nofun
  · exact h.withTape rfl rfl rfl rfl id
  · rw [pilotFoundStep_frame]; exact h.withTape rfl rfl rfl rfl nofun
  · rw [pilotFound2Step_frame]; exact h.withTape rfl rfl rfl rfl nofun
  · exact h.advance
  · exact State.RecordInv.advance (s := { s with tape := s.tape.warnMark }) (h.withTape rfl rfl rfl rfl id)
  · exact h.withTape rfl rfl rfl rfl id
  · exact (h.storeByte hv).withTape rfl rfl rfl rfl id
  · exact h.withTape rfl rfl rfl rfl id
  · have hsync : ({ s with tape := { s.tape with syncph := false } } : State).RecordInv :=
      h.withTape rfl rfl rfl rfl id
    exact hsync.segmentComplete hc

theorem State.RecordInv.tpPulse {s s' : State} (h : s.RecordInv) {v : BitVec 24}
    (he : exec (.tpPulse v) s = .next s') : s'.RecordInv := by
  rcases execTpPulse_next v s s' he with ⟨rfl, -⟩ | ⟨rfl, -⟩ | ⟨rfl, -⟩ | ⟨-, -, -, -, ⟨u, hu, rfl⟩ | ⟨k, -, rfl⟩⟩
  case inr.inr.inr.inl => exact (h.tapeStep hu).of_tape rfl rfl rfl
  case inr.inr.inr.inr => exact h.failTape k
  all_goals exact h.of_tape rfl rfl rfl

theorem State.RecordInv.tpEnd {s s' : State} (h : s.RecordInv) (he : exec .tpEnd s = .next s') : s'.RecordInv := by
  rw [Machine.exec] at he
  rcases execTpEnd_cases s with ⟨-, h'⟩ | ⟨-, h'⟩ | ⟨-, h'⟩ | ⟨-, -, -, -, h'⟩ <;> rw [h'] at he <;> cases he
  · exact h.of_tape rfl rfl rfl
  · exact h.of_tape rfl rfl rfl
  · exact h.failTape _
  · exact h.failTape _

/-! ### Every command -/

/-- Every command keeps the record: TP_START and RESET empty it, and no command outside TAPE writes any of it. -/
theorem State.RecordInv.exec {s s' : State} (h : s.RecordInv) (i : Instr) (he : exec i s = .next s') :
    s'.RecordInv := by
  have hframe := unitsShareNothing.1 i s s' he
  cases i
  case tpPulse => exact h.tpPulse he
  case tpEnd => exact h.tpEnd he
  case tpStart | reset => cases he; exact State.recordInv_empty rfl rfl rfl
  all_goals rw [hframe]; exact h.of_tape rfl rfl rfl

/-- Settles O9: the words that wait and an ILLEGAL answer are no part of the record. -/
theorem stepKeepsTapeRecord : Obligations.StepKeepsTapeRecord := by
  intro s s' _ h hstep
  rcases step_cases s with h' | ⟨c, cs, i, -, -, h'⟩ | ⟨c, cs, -, h'⟩ <;> rw [h'] at hstep
  · cases hstep; exact h
  · exact State.RecordInv.exec (s := { s with pending := cs }) (h.of_tape rfl rfl rfl) i hstep
  · cases hstep; exact h.of_tape rfl rfl rfl

end Sys2Proof.Machine
end

section
/-! PROOF. The bytes that are assembled bit by bit, most significant bit first (20_memory.md R39, R40): the groups of
the MFM decoder (42_floppy.md R104) and the byte accumulator of TAPE (41_tape.md R82). -/

namespace Sys2Proof.Machine

/-! ### Shifting bits in -/

/-- The bit shifted in is bit 0, and the others move up by one (41_tape.md R82). -/
theorem shiftIn_getLsbD (acc : BitVec 8) (bit : Bool) {i : Nat} (hi : i < 8) :
    (shiftIn acc bit).getLsbD i = if i = 0 then bit else acc.getLsbD (i - 1) := by
  cases i with
  | zero => cases bit <;> simp [shiftIn]
  | succ i => cases bit <;> simp [shiftIn, hi, BitVec.getLsbD_eq_getElem (Nat.lt_of_succ_lt hi)]

/-- Of the bits shifted in the last is bit 0. -/
theorem foldl_shiftIn_getLsbD (bits : List Bool) (acc : BitVec 8) {i : Nat} (hi : i < 8) (hlen : i < bits.length) :
    (bits.foldl shiftIn acc).getLsbD i = bits[bits.length - 1 - i] := by
  induction bits using List.reverseRecOn generalizing i with
  | nil => simp at hlen
  | append_singleton bits b ih =>
    rw [List.foldl_append, List.foldl_cons, List.foldl_nil, shiftIn_getLsbD _ _ hi]
    cases i with
    | zero => simp
    | succ i =>
      have hi' : i < bits.length := by simpa using hlen
      rw [if_neg (Nat.succ_ne_zero i), Nat.add_sub_cancel, ih (Nat.lt_of_succ_lt hi) hi',
        List.getElem_append_left (by simp; omega)]
      congr 1
      simp; omega

/-- Of eight bits shifted in, the first is bit 7. -/
theorem foldl_shiftIn_of_length_eight {bits : List Bool} (hlen : bits.length = 8) (acc : BitVec 8) {k : Nat}
    (hk : k < 8) : (bits.foldl shiftIn acc).getLsbD (7 - k) = bits[k] := by
  rw [foldl_shiftIn_getLsbD bits acc (by omega) (by omega)]
  congr 1
  omega

/-- The bits of a byte shifted in from bit 7 on give the byte, whatever the accumulator held. -/
theorem foldl_shiftIn_bits (b acc : BitVec 8) :
    ((List.finRange 8).map fun k => b.getLsbD (7 - k.val)).foldl shiftIn acc = b := by
  apply BitVec.eq_of_getLsbD_eq
  intro i hi
  obtain ⟨k, hk, rfl⟩ : ∃ k, k < 8 ∧ i = 7 - k := ⟨7 - i, by omega, by omega⟩
  rw [foldl_shiftIn_of_length_eight (by simp) acc hk]
  simp

/-! ### The groups of the MFM decoder -/

/-- A group's byte is its symbols' tests shifted in one after the other. -/
theorem groupByte_eq_foldl_shiftIn (s : Sym) (group : List Sym) :
    groupByte s group = (group.map fun x => decide (x = s)).foldl shiftIn 0#8 := by
  have hstep (a : Nat) (x : Sym) :
      BitVec.ofNat 8 (2 * a + if x = s then 1 else 0) = shiftIn (BitVec.ofNat 8 a) (decide (x = s)) := by
    apply BitVec.eq_of_getLsbD_eq
    intro i hi
    rw [shiftIn_getLsbD _ _ hi]
    cases i with
    | zero =>
      simp only [BitVec.getLsbD_ofNat, Nat.testBit_zero]
      by_cases hx : x = s <;> simp [hx]
    | succ i =>
      have hhalf : (2 * a + if x = s then 1 else 0) / 2 = a := by split <;> omega
      simp only [BitVec.getLsbD_ofNat, hi, Nat.lt_of_succ_lt hi, Nat.testBit_succ, hhalf, Nat.add_one_ne_zero, if_false,
        Nat.add_sub_cancel]
  have hfold (a : Nat) : BitVec.ofNat 8 (group.foldl (fun acc x => 2 * acc + if x = s then 1 else 0) a) =
      (group.map fun x => decide (x = s)).foldl shiftIn (BitVec.ofNat 8 a) := by
    induction group generalizing a with
    | nil => rfl
    | cons x group ih => rw [List.foldl_cons, ih, hstep]; rfl
  exact hfold 0

/-- Bit 7 − k of a group's byte is the test of its symbol k (R104). -/
theorem groupByte_getLsbD (s : Sym) {group : List Sym} (hlen : group.length = 8) {k : Nat} (hk : k < 8) :
    (groupByte s group).getLsbD (7 - k) = true ↔ group[k] = s := by
  rw [groupByte_eq_foldl_shiftIn, foldl_shiftIn_of_length_eight (by simpa using hlen) _ hk]
  simp

/-- Group j is the eight symbols from 8·j on. -/
theorem groupsOf_getElem (l : List Sym) (j : Nat) (hj : j < (groupsOf l).length) :
    (groupsOf l)[j] = (l.drop (8 * j)).take 8 := by
  induction l using groupsOf.induct generalizing j with
  | case1 a b c d e f g h rest ih =>
    cases j with
    | zero => rfl
    | succ j => exact ih j (Nat.lt_of_succ_lt_succ hj)
  | case2 l hl =>
    have hnil : groupsOf l = [] := by
      rw [groupsOf]
      exact hl
    simp [hnil] at hj

/-- Settles O52: symbol k of group j is symbol 1 + 8·j + k of the list, the pad being symbol 0. -/
theorem groupsHoldTheirSymbols : Obligations.GroupsHoldTheirSymbols := by
  intro syms
  refine ⟨assemble_length syms, fun j k hj hk => ?_⟩
  have hcount := assemble_length syms
  have hin : 1 + 8 * j + k < syms.length := by omega
  have hgroups : j < (groupsOf (syms.drop 1)).length := by simpa [assemble] using hj
  have hgroup := groupsOf_getElem (syms.drop 1) j hgroups
  have hlen : (groupsOf (syms.drop 1))[j].length = 8 := by rw [hgroup]; simp; omega
  have hsym : (groupsOf (syms.drop 1))[j][k] = syms[1 + 8 * j + k] := by
    simp only [hgroup, List.getElem_take, List.getElem_drop]
    congr 1
    omega
  refine ⟨hin, ?_, ?_⟩ <;> simp only [assemble, List.getElem_map] <;> rw [groupByte_getLsbD _ hlen hk, hsym]

/-! ### The byte accumulator of TAPE -/

/-- Commands one after the other: those that lead to a state, then the rest from it. -/
theorem execList_append {is js : List Instr} {s s' : State} (h : execList is s = .next s') :
    execList (is ++ js) s = execList js s' := by
  induction is generalizing s with
  | nil => cases h; rfl
  | cons i is ih =>
    simp only [execList, List.cons_append] at h ⊢
    cases he : exec i s with
    | next t => rw [he] at h; exact ih h
    | fault r => rw [he] at h; cases h
    | refused r => rw [he] at h; cases h

/-- The state inside a byte, with the accumulator at `acc` after `n` bits, each with its sync bit (41_tape.md R82,
R83). -/
def State.inByte (s : State) (acc : BitVec 8) (n : BitVec 3) : State :=
  State.answerTape { s with tape := { s.tape with acc := acc, bitcnt := n, syncph := false } } .ok

/-- The state once a byte `b` of the body and its last sync bit have come (41_tape.md R82 to R84). -/
def State.bodyByteRead (s : State) (b : BitVec 8) : State :=
  State.answerTape { s with
    tb := Memory.write s.tb s.tape.bcnt.toNat b
    tape := { s.tape with
      bcnt := s.tape.bcnt + 1#17, sum := eacAdd s.tape.sum (b.setWidth 16), rem := s.tape.rem - 1#16
      acc := 0#8, bitcnt := 0#3, syncph := false } } .ok

/-- A length within the guard of R81. -/
def TapeRegs.InGuard (t : TapeRegs) (v : BitVec 24) : Prop := v ≠ 0#24 ∧ 250 * v.toNat ≤ 7 * t.l0h.toNat

/-- A data impulse within the guard is a data bit (41_tape.md R80, R81). -/
theorem exec_tpPulse_dataBit {s : State} {v : BitVec 24} (hp : s.tape.phase = .readData)
    (hs : s.tape.syncph = false) (hv : s.tape.InGuard v) :
    exec (.tpPulse v) s = finishTape s (dataBitStep v.toNat s) := by
  rw [exec_tpPulse_segment hv.1 (by rw [hp]; rfl)]
  rcases readBitStep_cases v.toNat s with ⟨hg, -⟩ | ⟨-, -, h⟩ | ⟨-, hs', -⟩
  · exact absurd hv.2 (by simpa [guardHit] using hg)
  · rw [h]
  · rw [hs] at hs'; cases hs'

/-- A sync impulse within the guard and not over the cutoff, with bytes still to come (41_tape.md R80, R81, R83). -/
theorem exec_tpPulse_syncBit {s : State} {v : BitVec 24} (hp : s.tape.phase = .readData)
    (hs : s.tape.syncph = true) (hr : s.tape.rem ≠ 0#16) (hv : s.tape.InGuard v)
    (hcut : v.toNat ≤ s.tape.cut.toNat) :
    exec (.tpPulse v) s = .next (State.answerTape { s with tape := { s.tape with syncph := false } } .ok) := by
  rw [exec_tpPulse_segment hv.1 (by rw [hp]; rfl)]
  rcases readBitStep_cases v.toNat s with ⟨hg, -⟩ | ⟨-, hs', -⟩ | ⟨-, -, h⟩
  · exact absurd hv.2 (by simpa [guardHit] using hg)
  · rw [hs] at hs'; cases hs'
  · rw [h]
    rcases syncBitStep_cases v.toNat s with ⟨hlt, -⟩ | ⟨-, -, h⟩ | ⟨-, hr', -⟩
    · exact absurd hcut hlt.not_ge
    · rw [h]; rfl
    · exact absurd hr' hr

/-- A state between two bits of a body byte that is not the last, with room for it in TB. -/
structure State.AtBodyBit (s : State) : Prop where
  phase : s.tape.phase = .readData
  sync : s.tape.syncph = false
  rem : 2 ≤ s.tape.rem.toNat
  room : s.tape.bcnt.toNat < 65536

/-- A data impulse and its sync impulse: both within the guard, the second not over the cutoff (41_tape.md R81, R83). -/
def TapeRegs.GoodPair (t : TapeRegs) (e : BitVec 24 × BitVec 24) : Prop :=
  t.InGuard e.1 ∧ t.InGuard e.2 ∧ e.2.toNat ≤ t.cut.toNat

/-- Two commands one after the other. -/
theorem execList_pair {i j : Instr} {s t u : State} (hi : exec i s = .next t) (hj : exec j t = .next u) :
    execList [i, j] s = .next u := by
  simp only [execList, hi, hj]

/-- One of the first seven bits of a byte is shifted in. -/
theorem execList_bit {s : State} (h : s.AtBodyBit) (hb : s.tape.bitcnt ≠ 7#3) {e : BitVec 24 × BitVec 24}
    (he : s.tape.GoodPair e) : execList [.tpPulse e.1, .tpPulse e.2] s =
      .next (s.inByte (shiftIn s.tape.acc (isOne s.tape e.1.toNat)) (s.tape.bitcnt + 1#3)) := by
  obtain ⟨hdata, hsync, hcut⟩ := he
  have hrem : s.tape.rem ≠ 0#16 := by have := h.rem; bv_omega
  have hfirst := exec_tpPulse_dataBit h.phase h.sync hdata
  rcases dataBitStep_cases e.1.toNat s with ⟨-, hd⟩ | ⟨hb', -⟩
  · rw [hd] at hfirst
    exact execList_pair hfirst (exec_tpPulse_syncBit h.phase rfl hrem hsync hcut)
  · exact absurd hb' hb

/-- A byte of the body finds its place in TB (41_tape.md R84). -/
theorem storeByte_body {s : State} (hp : s.tape.phase = .readData) (hroom : s.tape.bcnt.toNat < 65536) (b : BitVec 8) :
    storeByte b s = .ok { s with
      tb := Memory.write s.tb s.tape.bcnt.toNat b
      tape := { s.tape with bcnt := s.tape.bcnt + 1#17, sum := eacAdd s.tape.sum (b.setWidth 16) } } := by
  have hbody : storeByte b s = storeBody b s := by simp only [storeByte, hp]
  rw [hbody]
  simp only [storeBody, State.writeTb, State.size, hroom.not_ge, if_false, Except.map]

/-- The eighth bit of a byte completes it, and the byte is stored. -/
theorem execList_lastBit {s : State} (h : s.AtBodyBit) (hb : s.tape.bitcnt = 7#3) {e : BitVec 24 × BitVec 24}
    (he : s.tape.GoodPair e) : execList [.tpPulse e.1, .tpPulse e.2] s =
      .next (s.bodyByteRead (shiftIn s.tape.acc (isOne s.tape e.1.toNat))) := by
  obtain ⟨hdata, hsync, hcut⟩ := he
  have hrem : s.tape.rem - 1#16 ≠ 0#16 := by have := h.rem; bv_omega
  have hfirst := exec_tpPulse_dataBit h.phase h.sync hdata
  rcases dataBitStep_cases e.1.toNat s with ⟨hb', -⟩ | ⟨-, hd⟩
  · exact absurd hb hb'
  · rw [hd, storeByte_body h.phase h.room] at hfirst
    exact execList_pair hfirst (exec_tpPulse_syncBit h.phase rfl hrem hsync hcut)

/-- The bits still missing of a byte, each with its sync bit: the byte is stored, whatever came before in its bits. -/
theorem execList_bits {bits : List (BitVec 24 × BitVec 24)} {s : State} (h : s.AtBodyBit)
    (hlen : s.tape.bitcnt.toNat + bits.length = 8) (hbits : ∀ e ∈ bits, s.tape.GoodPair e) :
    execList (bits.flatMap fun e => [.tpPulse e.1, .tpPulse e.2]) s =
      .next (s.bodyByteRead ((bits.map fun e => isOne s.tape e.1.toNat).foldl shiftIn s.tape.acc)) := by
  induction bits generalizing s with
  | nil => exact absurd s.tape.bitcnt.isLt (by simp at hlen; omega)
  | cons e bits ih =>
    have he := hbits e List.mem_cons_self
    rw [List.flatMap_cons, List.map_cons, List.foldl_cons]
    by_cases hb : s.tape.bitcnt = 7#3
    · have hnil : bits = [] := List.eq_nil_of_length_eq_zero (by simp [hb] at hlen; omega)
      rw [hnil, execList_append (execList_lastBit h hb he)]
      rfl
    · rw [execList_append (execList_bit h hb he)]
      have hinc : (s.tape.bitcnt + 1#3).toNat = s.tape.bitcnt.toNat + 1 := by bv_omega
      rw [List.length_cons] at hlen
      exact ih (s := s.inByte _ _) ⟨h.phase, rfl, h.rem, h.room⟩ (by show (s.tape.bitcnt + 1#3).toNat + _ = 8; omega)
        fun e' he' => hbits e' (List.mem_cons_of_mem _ he')

/-- Settles O43: the sixteen impulses are the eight bits of a byte from its start, and those are the bits of `b`. -/
theorem sixteenImpulsesStoreAByte : Obligations.SixteenImpulsesStoreAByte := by
  intro s b d z hp hs hb hrem hroom hd hz
  have hbits : ∀ e ∈ (List.finRange 8).map fun k => (d k, z k), s.tape.GoodPair e := by
    intro e he
    obtain ⟨k, -, rfl⟩ := List.mem_map.1 he
    obtain ⟨hd0, hdg, -⟩ := hd k
    obtain ⟨hz0, hzg, hzc⟩ := hz k
    exact ⟨⟨hd0, hdg⟩, ⟨hz0, hzg⟩, hzc⟩
  have hone : ∀ k : Fin 8, isOne s.tape (d k).toNat = b.getLsbD (7 - k.val) := fun k => by
    rw [Bool.eq_iff_iff, (hd k).2.2, isOne, decide_eq_true_iff]
  have hbyte : (((List.finRange 8).map fun k => (d k, z k)).map fun e => isOne s.tape e.1.toNat).foldl shiftIn
      s.tape.acc = b := by
    simpa only [List.map_map, Function.comp_def, hone] using foldl_shiftIn_bits b s.tape.acc
  have hrun := execList_bits ⟨hp, hs, hrem, hroom⟩ (by simp [hb]) hbits
  rw [List.flatMap_map, hbyte] at hrun
  rw [hrun, State.bodyByteRead, ← hs, ← hb]

end Sys2Proof.Machine
end

section
/-! PROOF. The encoding (30_encoding.md R51 to R55): decoding and encoding are inverse to each other, format by format. -/

namespace Sys2Proof

/-- The decoder reads a command only from that command's opcode and operand field. -/
theorem fields_of_decodeFields {op : Nat} {f : BitVec 24} {i : Instr} (h : decodeFields op f = .ok i) :
    op = (opcodeOf i).toNat ∧ f = operandOf i := by
  unfold decodeFields at h
  split at h
  case h_1 | h_2 | h_6 | h_8 | h_9 | h_11 | h_12 | h_15 | h_17 | h_21 =>
    obtain ⟨rfl, rfl⟩ := formatN_ok.1 h
    exact ⟨rfl, rfl⟩
  case h_3 | h_18 | h_19 | h_22 => obtain ⟨_, rfl, rfl⟩ := formatB8_ok.1 h; exact ⟨rfl, rfl⟩
  case h_20 | h_23 | h_24 => obtain ⟨_, rfl, rfl⟩ := formatW16_ok.1 h; exact ⟨rfl, rfl⟩
  case h_7 | h_10 => obtain rfl := formatV24_ok.1 h; exact ⟨rfl, rfl⟩
  case h_4 => obtain ⟨_, _, rfl, rfl⟩ := formatCF_ok.1 h; exact ⟨rfl, rfl⟩
  case h_5 => obtain ⟨_, _, rfl, rfl⟩ := formatMA_ok.1 h; exact ⟨rfl, rfl⟩
  case h_13 => obtain ⟨_, rfl, rfl⟩ := formatP21_ok.1 h; exact ⟨rfl, rfl⟩
  case h_14 => obtain ⟨_, rfl, rfl⟩ := formatN11_ok.1 h; exact ⟨rfl, rfl⟩
  case h_16 => obtain ⟨_, rfl, rfl⟩ := formatS2_ok.1 h; exact ⟨rfl, rfl⟩
  case h_25 => cases h

/-- A command's opcode and operand field decode to the command, by its format. -/
theorem decodeFields_opcodeOf_operandOf (i : Instr) :
    decodeFields (opcodeOf i).toNat (operandOf i) = .ok i := by
  cases i with
  | nop | reset | tpStart | tpEnd | flClear | flEst | flFind | flHdr | crcInit | addInit =>
    exact formatN_ok.2 ⟨rfl, rfl⟩
  | rdreg b | crcByte b | crcMark b | addByte b => exact formatB8_ok.2 ⟨b, rfl, rfl⟩
  | crcCheck w | addWord w | addCheck w => exact formatW16_ok.2 ⟨w, rfl, rfl⟩
  | tpPulse v | flPush v => exact formatV24_ok.2 rfl
  | wrcfg ci val => exact formatCF_ok.2 ⟨ci, val, rfl, rfl⟩
  | memrd sp a => exact formatMA_ok.2 ⟨sp, a, rfl, rfl⟩
  | flSetpos p => exact formatP21_ok.2 ⟨p, rfl, rfl⟩
  | flRead n => exact formatN11_ok.2 ⟨n, rfl, rfl⟩
  | flData c => exact formatS2_ok.2 ⟨c, rfl, rfl⟩

/-- Settles O1: the word of a command gives its opcode and its operand field back. -/
theorem decodeInvertsEncode : Obligations.DecodeInvertsEncode := by
  intro i
  obtain ⟨hop, hf⟩ := Laws.fields_of_append (opcodeOf i) (operandOf i)
  rw [decode, encode, hop, hf, decodeFields_opcodeOf_operandOf]

/-- Settles O2: opcode and operand field are the command's, and they are the whole word. -/
theorem encodeInvertsDecode : Obligations.EncodeInvertsDecode := by
  intro c i h
  obtain ⟨hop, hf⟩ := fields_of_decodeFields h
  rw [encode, ← BitVec.eq_of_toNat_eq hop, ← hf]
  exact append_extract (m := 8) (n := 24) c

/-- Settles O5: the decoder runs on each word. -/
theorem writtenWordsDecode : Obligations.WrittenWordsDecode := by
  unfold Obligations.WrittenWordsDecode
  decide

end Sys2Proof
end

section
/-! PROOF. The opcode table (30_encoding.md R55 to R58): a row accepts a word by its opcode and its reserved bits, which is
what the decoder tests, so a word decodes exactly where a row accepts it. -/

namespace Sys2Proof

/-! ### What a row accepts (R57) -/

/-- The opcode of a row: the high byte of its match. -/
def OpcodeRow.opcode (row : OpcodeRow) : BitVec 8 := row.pattern.extractLsb' 24 8

/-- The reserved bits of a row's operand field: those its mask fixes. -/
def OpcodeRow.reserved (row : OpcodeRow) : BitVec 24 := row.mask.extractLsb' 0 24

/-- Every row fixes the whole opcode, and each reserved bit to 0. -/
theorem mask_pattern_of_mem : ∀ row ∈ opcodeTable,
    row.mask = 0xFF#8 ++ row.reserved ∧ row.pattern = row.opcode ++ 0#24 := by decide

/-- No two rows have the same opcode (R55). -/
theorem opcodes_nodup : (opcodeTable.map OpcodeRow.opcode).Nodup := by decide

theorem append_inj_iff {m n : Nat} {a b : BitVec m} {x y : BitVec n} : a ++ x = b ++ y ↔ a = b ∧ x = y := by
  constructor
  · intro h
    exact ⟨by rw [← extract_append_high a x, h, extract_append_high],
      by rw [← extract_append_low a x, h, extract_append_low]⟩
  · rintro ⟨rfl, rfl⟩; rfl

/-- A mask over the whole opcode keeps it, and acts on the operand field alone. -/
theorem and_opcodeMask_append (c : Word) (m : BitVec 24) :
    c &&& (0xFF#8 ++ m) = c.extractLsb' 24 8 ++ (c.extractLsb' 0 24 &&& m) := by
  have hand := BitVec.and_append (x₁ := c.extractLsb' 24 8) (y₁ := c.extractLsb' 0 24) (x₂ := 0xFF#8) (y₂ := m)
  rw [append_extract (m := 8) (n := 24) c] at hand
  rw [hand, show c.extractLsb' 24 8 &&& 0xFF#8 = c.extractLsb' 24 8 from BitVec.and_allOnes]

/-- A row accepts a word by its opcode and its reserved bits (R57). -/
theorem accepts_iff {row : OpcodeRow} (hrow : row ∈ opcodeTable) (c : Word) :
    row.accepts c = true ↔ c.extractLsb' 24 8 = row.opcode ∧ c.extractLsb' 0 24 &&& row.reserved = 0#24 := by
  obtain ⟨hmask, hpattern⟩ := mask_pattern_of_mem row hrow
  rw [OpcodeRow.accepts, beq_iff_eq, hmask, hpattern, and_opcodeMask_append, append_inj_iff]

/-- A word has a row's opcode where its high byte is the row's match (R57). -/
theorem opcode_eq_iff {row : OpcodeRow} (hrow : row ∈ opcodeTable) (c : Word) :
    c.extractLsb' 24 8 = row.opcode ↔ c &&& 0xFF000000#32 = row.pattern := by
  obtain ⟨-, hpattern⟩ := mask_pattern_of_mem row hrow
  rw [hpattern, show 0xFF000000#32 = 0xFF#8 ++ 0#24 from rfl, and_opcodeMask_append, append_inj_iff, BitVec.and_zero,
    eq_self, and_true]

/-- Rows that have the same opcode are the same row. -/
theorem row_eq_of_opcode_eq {row row' : OpcodeRow} (hrow : row ∈ opcodeTable) (hrow' : row' ∈ opcodeTable)
    (h : row.opcode = row'.opcode) : row = row' :=
  List.inj_on_of_nodup_map opcodes_nodup hrow hrow' h

/-! ### What the decoder accepts (R53) -/

/-- The high bits of a field are zero where the mask over them finds none set. -/
theorem extract_high_eq_zero_iff {m n : Nat} (f : BitVec (m + n)) :
    f.extractLsb' n m = 0#m ↔ f &&& (BitVec.allOnes m ++ 0#n) = 0#(m + n) := by
  have hand := BitVec.and_append (x₁ := f.extractLsb' n m) (y₁ := f.extractLsb' 0 n) (x₂ := BitVec.allOnes m) (y₂ := 0#n)
  rw [append_extract f, BitVec.and_allOnes, BitVec.and_zero] at hand
  rw [hand, ← BitVec.zero_append_zero, append_inj_iff]
  simp

/-- A format that tests its reserved bits reads a command where they are all zero. -/
theorem exists_ite_ok_iff {p : Prop} [Decidable p] {i : Instr} {e : DecodeError} :
    (∃ j, (if p then Except.ok i else .error e) = .ok j) ↔ p := by
  by_cases hp : p <;> simp [hp]

theorem formatN_reads {f : BitVec 24} {i : Instr} : (∃ j, formatN f i = .ok j) ↔ f &&& 0xFFFFFF#24 = 0#24 := by
  rw [show f &&& 0xFFFFFF#24 = f from BitVec.and_allOnes]
  exact exists_ite_ok_iff

theorem formatB8_reads {f : BitVec 24} {k : BitVec 8 → Instr} :
    (∃ j, formatB8 f k = .ok j) ↔ f &&& 0xFFFF00#24 = 0#24 :=
  exists_ite_ok_iff.trans (extract_high_eq_zero_iff (m := 16) (n := 8) f)

theorem formatW16_reads {f : BitVec 24} {k : BitVec 16 → Instr} :
    (∃ j, formatW16 f k = .ok j) ↔ f &&& 0xFF0000#24 = 0#24 :=
  exists_ite_ok_iff.trans (extract_high_eq_zero_iff (m := 8) (n := 16) f)

theorem formatP21_reads {f : BitVec 24} {k : BitVec 21 → Instr} :
    (∃ j, formatP21 f k = .ok j) ↔ f &&& 0xE00000#24 = 0#24 :=
  exists_ite_ok_iff.trans (extract_high_eq_zero_iff (m := 3) (n := 21) f)

theorem formatN11_reads {f : BitVec 24} {k : BitVec 11 → Instr} :
    (∃ j, formatN11 f k = .ok j) ↔ f &&& 0xFFF800#24 = 0#24 :=
  exists_ite_ok_iff.trans (extract_high_eq_zero_iff (m := 13) (n := 11) f)

theorem formatS2_reads {f : BitVec 24} {k : BitVec 2 → Instr} :
    (∃ j, formatS2 f k = .ok j) ↔ f &&& 0xFFFFFC#24 = 0#24 :=
  exists_ite_ok_iff.trans (extract_high_eq_zero_iff (m := 22) (n := 2) f)

/-- A format whose operands fill the field reads every field, and has no reserved bit. -/
theorem reads_of_no_reserved {f : BitVec 24} {i : Instr} :
    (∃ j, (Except.ok i : Except DecodeError Instr) = .ok j) ↔ f &&& 0x000000#24 = 0#24 := by
  simp

/-- Row by row of the table, the opcode's format reads the operand fields with no reserved bit set. -/
theorem decodeFields_reads_iff (f : BitVec 24) : ∀ row ∈ opcodeTable,
    ((∃ i, decodeFields row.opcode.toNat f = .ok i) ↔ f &&& row.reserved = 0#24) := by
  refine List.forall_iff_forall_mem.1 ?_
  simp only [opcodeTable, List.Forall]
  exact ⟨formatN_reads, formatN_reads, formatB8_reads, reads_of_no_reserved, reads_of_no_reserved,
    formatN_reads, reads_of_no_reserved, formatN_reads,
    formatN_reads, reads_of_no_reserved, formatN_reads, formatN_reads,
    formatP21_reads, formatN11_reads, formatN_reads, formatS2_reads,
    formatN_reads, formatB8_reads, formatB8_reads, formatW16_reads,
    formatN_reads, formatB8_reads, formatW16_reads, formatW16_reads⟩

/-- Every command has a row (R55). -/
theorem opcodeOf_mem (i : Instr) : opcodeOf i ∈ opcodeTable.map OpcodeRow.opcode := by
  cases i <;> simp only [opcodeOf] <;> decide

/-- A word decodes to a command exactly where a row accepts it (R57). -/
theorem decode_reads_iff (c : Word) : (∃ i, decode c = .ok i) ↔ ∃ row ∈ opcodeTable, row.accepts c = true := by
  have hreads := decodeFields_reads_iff (c.extractLsb' 0 24)
  constructor
  · rintro ⟨i, hd⟩
    obtain ⟨row, hrow, hop⟩ := List.mem_map.1 (opcodeOf_mem i)
    have hopcode : c.extractLsb' 24 8 = row.opcode := by rw [hop, BitVec.eq_of_toNat_eq (fields_of_decodeFields hd).1]
    exact ⟨row, hrow, (accepts_iff hrow c).2 ⟨hopcode, (hreads row hrow).1 ⟨i, by rw [← hopcode]; exact hd⟩⟩⟩
  · rintro ⟨row, hrow, hacc⟩
    obtain ⟨hopcode, hreserved⟩ := (accepts_iff hrow c).1 hacc
    obtain ⟨i, hd⟩ := (hreads row hrow).2 hreserved
    exact ⟨i, by rw [decode, hopcode, hd]⟩

/-- At most one row accepts a word: the row of its opcode. -/
theorem row_unique {row row' : OpcodeRow} (hrow : row ∈ opcodeTable) (hrow' : row' ∈ opcodeTable) {c : Word}
    (h : row.accepts c = true) (h' : row'.accepts c = true) : row = row' :=
  row_eq_of_opcode_eq hrow hrow' (((accepts_iff hrow c).1 h).1.symm.trans ((accepts_iff hrow' c).1 h').1)

/-! ### Illegal words (R56, R57) -/

/-- A word that no row accepts is answered ILLEGAL. -/
theorem step_of_no_row {c : Word} (h : ∀ row ∈ opcodeTable, row.accepts c ≠ true) {s : Machine.State} {cs : List Word}
    (hp : s.pending = c :: cs) : Machine.step s = .next (Machine.State.refuse { s with pending := cs } .illegal) := by
  cases hd : decode c with
  | error e => exact Machine.step_illegal hp hd
  | ok i =>
    obtain ⟨row, hrow, hacc⟩ := (decode_reads_iff c).1 ⟨i, hd⟩
    exact absurd hacc (h row hrow)

/-- Settles O3: a row accepts the word, and then only one does; or none does. -/
theorem decodeFollowsOpcodeTable : Obligations.DecodeFollowsOpcodeTable := by
  intro c
  by_cases h : ∃ row ∈ opcodeTable, row.accepts c = true
  · obtain ⟨row, hrow, hacc⟩ := h
    exact .inl ⟨(decode_reads_iff c).2 ⟨row, hrow, hacc⟩, row, ⟨hrow, hacc⟩,
      fun row' ⟨hrow', hacc'⟩ => row_unique hrow' hrow hacc' hacc⟩
  · have hnone : ∀ row ∈ opcodeTable, row.accepts c ≠ true := fun row hrow hacc => h ⟨row, hrow, hacc⟩
    exact .inr ⟨fun i hd => h ((decode_reads_iff c).1 ⟨i, hd⟩), fun row hrow => Bool.eq_false_iff.2 (hnone row hrow),
      fun s cs hp => step_of_no_row hnone hp⟩

/-- Settles O4: no row accepts the word, as a row that did would be the row of its opcode. -/
theorem illegalWordsChangeNothing : Obligations.IllegalWordsChangeNothing := by
  intro c s cs hp
  constructor
  · intro hunlisted
    refine step_of_no_row (fun row hrow hacc => ?_) hp
    exact hunlisted row hrow ((opcode_eq_iff hrow c).1 ((accepts_iff hrow c).1 hacc).1)
  · intro row hrow hop hreserved
    refine step_of_no_row (fun row' hrow' hacc => ?_) hp
    have hsame : row' = row := row_eq_of_opcode_eq hrow' hrow
      (((accepts_iff hrow' c).1 hacc).1.symm.trans ((opcode_eq_iff hrow c).2 hop))
    rw [hsame, OpcodeRow.accepts, beq_iff_eq] at hacc
    exact hreserved hacc

end Sys2Proof
end

section
/-! PROOF. The answers of the commands: each answers once (30_encoding.md R52), and answers BADARG where its operand is
outside the range of its rule (R54, 60_exceptions.md R130). -/

namespace Sys2Proof.Machine

/-! ### One answer for each command (R52) -/

/-- A decode that leads to a next state has answered. -/
theorem State.runDecode_answers {s s' : State} {n : Nat} {finish : MfmOut → FloppyRegs → FloppyRegs}
    (h : s.runDecode n finish = .next s') : ∃ r, s'.resp = some r := by
  rcases State.runDecode_next h with ⟨rfl, -⟩ | ⟨-, -, rfl⟩ | ⟨-, _, -, rfl⟩ <;> exact ⟨_, rfl⟩

/-- A command that leads to a next state has answered. -/
theorem exec_answers {i : Instr} {s s' : State} (h : exec i s = .next s') : ∃ r, s'.resp = some r := by
  cases i
  case tpPulse v =>
    rcases execTpPulse_next v s s' h with
      ⟨rfl, -⟩ | ⟨rfl, -⟩ | ⟨rfl, -⟩ | ⟨-, -, -, -, ⟨_, -, rfl⟩ | ⟨_, -, rfl⟩⟩ <;> exact ⟨_, rfl⟩
  case tpEnd =>
    rw [exec] at h
    rcases execTpEnd_cases s with ⟨-, h'⟩ | ⟨-, h'⟩ | ⟨-, h'⟩ | ⟨-, -, -, -, h'⟩ <;>
      rw [h'] at h <;> cases h <;> exact ⟨_, rfl⟩
  case flPush v =>
    rw [exec] at h
    rcases execFlPush_cases v s with ⟨-, h'⟩ | ⟨-, -, h'⟩ | ⟨-, -, h'⟩ | ⟨-, -, -, h'⟩ <;>
      rw [h'] at h <;> cases h <;> exact ⟨_, rfl⟩
  case flEst =>
    rw [exec] at h
    rcases execFlEst_cases s with ⟨-, h'⟩ | ⟨-, -, h'⟩ | ⟨-, -, ⟨_, h'⟩ | ⟨_, -, ⟨-, h'⟩ | ⟨_, _, -, h'⟩⟩⟩ <;>
      rw [h'] at h <;> cases h <;> exact ⟨_, rfl⟩
  case flFind =>
    rw [exec] at h
    rcases execFlFind_cases s with ⟨-, h'⟩ | ⟨-, -, ⟨_, h'⟩ | ⟨_, -, h'⟩⟩ <;>
      rw [h'] at h <;> cases h <;> exact ⟨_, rfl⟩
  case rdreg | wrcfg | memrd | flSetpos =>
    simp only [exec, execRdreg, execWrcfg, execMemrd, execFlSetpos] at h
    repeat' split at h
    all_goals cases h
    all_goals exact ⟨_, rfl⟩
  case flRead | flData =>
    simp only [exec, execFlRead, execFlData] at h
    split at h
    · cases h; exact ⟨_, rfl⟩
    · exact State.runDecode_answers h
  case flHdr => exact State.runDecode_answers h
  all_goals cases h; exact ⟨_, rfl⟩

/-- A change that leaves alone the state an outcome leads to. -/
theorem mapNext_of_fixed {o : Host.Outcome State Fault Refusal} {f : State → State}
    (h : ∀ s', o = .next s' → s' = f s') : mapNext f o = o := by
  cases o with
  | next s => exact congrArg _ (h s rfl).symm
  | fault r => rfl
  | refused r => rfl

/-- The response before a command has no effect: no command reads it, and each gives its own. -/
theorem exec_withResp (i : Instr) (s : State) (r : Option Response) : exec i { s with resp := r } = exec i s := by
  have hframe := unitsShareNothing.1 i s
  have hreads := unitsShareNothing.2 i s { s with resp := r }
  cases i
  case nop | reset | tpStart | flClear | crcInit | crcMark | addInit => rfl
  case crcByte | crcCheck | addByte | addWord | addCheck | wrcfg | tpEnd | flSetpos =>
    exact (hreads rfl).trans (mapNext_of_fixed hframe)
  case flEst | flFind | flPush => exact (hreads rfl rfl rfl).trans (mapNext_of_fixed hframe)
  case tpPulse => exact (hreads rfl rfl rfl rfl).trans (mapNext_of_fixed hframe)
  case rdreg | flRead | flHdr | flData => exact (hreads rfl rfl rfl rfl rfl).trans (mapNext_of_fixed hframe)
  case memrd => exact (hreads rfl rfl rfl rfl rfl rfl rfl rfl).trans (mapNext_of_fixed hframe)

/-- No command takes a pending word or writes a parameter: neither is in any command's frame. -/
theorem exec_pending_params {i : Instr} {s s' : State} (h : exec i s = .next s') :
    s'.pending = s.pending ∧ s'.params = s.params := by
  have hframe := unitsShareNothing.1 i s s' h
  cases i <;> dsimp only at hframe <;> rw [hframe] <;> exact ⟨rfl, rfl⟩

/-- Settles O12: what a command reads and what it may change is said by the frames of the commands. -/
theorem commandsAnswerOnce : Obligations.CommandsAnswerOnce :=
  fun i s => ⟨exec_withResp i s, fun _ h => ⟨exec_answers h, exec_pending_params h⟩⟩

/-! ### Operands out of range (R54) -/

/-- The TAPE registers have the indices 0x10 to 0x27 (10_state.md R18). -/
theorem tapeRegister_eq_none {n : Nat} (h : ¬(0x10 ≤ n ∧ n ≤ 0x27)) (t : TapeRegs) : tapeRegister t n = none := by
  unfold tapeRegister
  split
  case h_25 => rfl
  all_goals omega

/-- The FLOPPY registers have the indices 0x30 to 0x43. -/
theorem floppyRegister_eq_none {n : Nat} (h : ¬(0x30 ≤ n ∧ n ≤ 0x43)) (f : FloppyRegs) : floppyRegister f n = none := by
  unfold floppyRegister
  split
  case h_21 => rfl
  all_goals omega

/-- The configuration registers have the configuration indices 0 to 6 (10_state.md R28). -/
theorem configRegister_eq_none {n : Nat} (h : ¬n ≤ 6) (c : ConfigRegs) : configRegister c n = none := by
  unfold configRegister
  split
  case h_8 => rfl
  all_goals omega

/-- An index that is not listed names no register of any unit. -/
theorem State.register_eq_none {r : BitVec 8} (h : listedRegister r = false) (s : State) : s.register r = none := by
  simp only [listedRegister, Bool.or_eq_false_iff, decide_eq_false_iff_not] at h
  obtain ⟨⟨⟨⟨htape, hfloppy⟩, hcrc⟩, hsum⟩, hconfig⟩ := h
  rw [State.register, if_neg hcrc, if_neg hsum]
  split
  · exact configRegister_eq_none (by omega) s.cfg
  · split
    · exact floppyRegister_eq_none hfloppy s.floppy
    · exact tapeRegister_eq_none htape s.tape

/-- A configuration index above 6, or a value that is not legal for its register, is not written (10_state.md R28). -/
theorem ConfigRegs.write_eq_none {ci : BitVec 8} {val : BitVec 16} (h : legalConfig ci val = false) (c : ConfigRegs) :
    c.write ci val = none := by
  unfold ConfigRegs.write
  unfold legalConfig at h
  split
  case h_8 => rfl
  case h_1 hci | h_2 hci =>
    have hval : val = 0#16 := by simp [hci] at h; bv_omega
    rw [if_pos hval]
  case h_6 hci =>
    have hval : 1 < val.toNat := by simp [hci] at h; omega
    rw [if_neg (by bv_omega), if_neg (by bv_omega)]
  all_goals simp [*] at h

/-- There is no space above 4 (20_memory.md R33). -/
theorem Space.ofCode_eq_none {sp : BitVec 4} (h : 4 < sp.toNat) : Space.ofCode sp = none := by
  unfold Space.ofCode
  split
  case h_6 => rfl
  all_goals omega

/-- An operand that is not at least 1 is 0. -/
theorem eq_zero_of_not_one_le {w : Nat} {v : BitVec w} (h : decide (1 ≤ v.toNat) = false) : v = 0#w := by
  have hv : ¬1 ≤ v.toNat := of_decide_eq_false h
  exact BitVec.eq_of_toNat_eq (by rw [BitVec.toNat_zero]; omega)

/-- Settles O15: each of the seven commands with a bounded operand tests it before anything else. -/
theorem operandOutOfRangeIsBadarg : Obligations.OperandOutOfRangeIsBadarg := by
  intro i s h
  cases i
  case rdreg r => rw [exec, execRdreg, State.register_eq_none h]; rfl
  case wrcfg ci val => rw [exec, execWrcfg, ConfigRegs.write_eq_none h]; rfl
  case memrd sp a => rw [exec, execMemrd, Space.ofCode_eq_none (by simpa [Instr.wellFormed] using h)]; rfl
  case tpPulse v => rw [exec, execTpPulse, if_pos (eq_zero_of_not_one_le h)]; rfl
  case flPush v => rw [exec, execFlPush, if_pos (eq_zero_of_not_one_le h)]; rfl
  case flRead n =>
    have hn : legalGroups n = false := h
    rw [exec, execFlRead, hn]; rfl
  case flData c => rw [exec, execFlData, if_pos (eq_zero_of_not_one_le h)]; rfl
  all_goals cases h

end Sys2Proof.Machine
end

section
/-! PROOF. The block control commands (40_control.md R61 to R65): what each answers and writes, and which operands it
refuses. -/

namespace Sys2Proof.Machine

/-! ### NOP (R61) -/

/-- Settles O25: NOP only answers. -/
theorem nopChangesNothing : Obligations.NopChangesNothing :=
  ⟨decodeInvertsEncode .nop, fun _ => rfl⟩

/-! ### RDREG (R63) -/

/-- The listed indices (10_state.md R18), unit by unit. -/
theorem listedRegister_iff {r : BitVec 8} :
    listedRegister r = true ↔
      ((0x10 ≤ r.toNat ∧ r.toNat ≤ 0x27) ∨ (0x30 ≤ r.toNat ∧ r.toNat ≤ 0x43)) ∨ r = 0x50#8 ∨ r = 0x58#8 ∨
        (0x70 ≤ r.toNat ∧ r.toNat ≤ 0x76) := by
  simp only [listedRegister, Bool.or_eq_true, decide_eq_true_eq, or_assoc, ← BitVec.toNat_inj, BitVec.toNat_ofNat,
    Nat.reducePow, Nat.reduceMod]

/-- Every index from 0x10 to 0x27 has a TAPE register (10_state.md R21). -/
theorem exists_tapeRegister {n : Nat} (h : 0x10 ≤ n ∧ n ≤ 0x27) (t : TapeRegs) : ∃ v, tapeRegister t n = some v := by
  obtain ⟨hlow, hhigh⟩ := h
  interval_cases n <;> exact ⟨_, rfl⟩

/-- Every index from 0x30 to 0x43 has a FLOPPY register (10_state.md R25). -/
theorem exists_floppyRegister {n : Nat} (h : 0x30 ≤ n ∧ n ≤ 0x43) (f : FloppyRegs) :
    ∃ v, floppyRegister f n = some v := by
  obtain ⟨hlow, hhigh⟩ := h
  interval_cases n <;> exact ⟨_, rfl⟩

/-- Every configuration index from 0 to 6 has a register (10_state.md R28). -/
theorem exists_configRegister {n : Nat} (h : n ≤ 6) (c : ConfigRegs) : ∃ v, configRegister c n = some v := by
  interval_cases n <;> exact ⟨_, rfl⟩

/-- A listed index has a register, in the unit of its range. -/
theorem State.exists_register {r : BitVec 8} (h : listedRegister r = true) (s : State) :
    ∃ v, s.register r = some v := by
  rcases listedRegister_iff.1 h with (htape | hfloppy) | rfl | rfl | hconfig
  · rw [State.register_tape (by omega)]; exact exists_tapeRegister htape s.tape
  · rw [State.register_floppy (by omega) (by omega)]; exact exists_floppyRegister hfloppy s.floppy
  · exact ⟨_, s.register_crc⟩
  · exact ⟨_, s.register_sum⟩
  · rw [State.register_config (by omega)]; exact exists_configRegister (by omega) s.cfg

theorem exec_rdreg_of_some {r : BitVec 8} {s : State} {v : Word} (h : s.register r = some v) :
    exec (.rdreg r) s = .next (s.respond .ok v) := by
  rw [exec, execRdreg, h]

theorem exec_rdreg_of_none {r : BitVec 8} {s : State} (h : s.register r = none) :
    exec (.rdreg r) s = .next (s.refuse .badarg) := by
  rw [exec, execRdreg, h]

/-- Settles O26: the listed indices are those that name a register. -/
theorem rdregReadsListedRegisters : Obligations.RdregReadsListedRegisters := by
  intro r s
  refine ⟨decodeInvertsEncode (.rdreg r), fun h => ?_, fun h => exec_rdreg_of_none (State.register_eq_none h s)⟩
  obtain ⟨v, hv⟩ := State.exists_register h s
  exact ⟨v, hv, exec_rdreg_of_some hv⟩

/-! ### RESET (R62) -/

theorem tapeRegister_reset {n : Nat} (h : 0x10 ≤ n ∧ n ≤ 0x27) : tapeRegister TapeRegs.reset n = some 0#32 := by
  obtain ⟨hlow, hhigh⟩ := h
  interval_cases n <;> rfl

theorem floppyRegister_reset {n : Nat} (h : 0x30 ≤ n ∧ n ≤ 0x43) : floppyRegister FloppyRegs.reset n = some 0#32 := by
  obtain ⟨hlow, hhigh⟩ := h
  interval_cases n <;> rfl

/-- At power-on every TAPE and FLOPPY register reads 0 (the reset columns of 10_state.md R21, R25). -/
theorem State.powerOn_register_of_unit {r : BitVec 8}
    (h : (0x10 ≤ r.toNat ∧ r.toNat ≤ 0x27) ∨ (0x30 ≤ r.toNat ∧ r.toNat ≤ 0x43)) (p : Params) :
    (State.powerOn p).register r = some 0#32 := by
  rcases h with htape | hfloppy
  · rw [State.register_tape (by omega)]; exact tapeRegister_reset htape
  · rw [State.register_floppy (by omega) (by omega)]; exact floppyRegister_reset hfloppy

/-- The indices of the configuration registers, one by one (10_state.md R28). -/
theorem configIndex_cases {r : BitVec 8} (h : 0x70 ≤ r.toNat ∧ r.toNat ≤ 0x76) :
    r = 0x70#8 ∨ r = 0x71#8 ∨ r = 0x72#8 ∨ r = 0x73#8 ∨ r = 0x74#8 ∨ r = 0x75#8 ∨ r = 0x76#8 := by
  bv_omega

/-- Settles O11: RESET writes the power-on registers, of which those of TAPE and FLOPPY read 0; CRC, SUM and the
configuration registers are read off one by one. -/
theorem resetRestoresEveryRegister : Obligations.ResetRestoresEveryRegister := by
  refine ⟨decodeInvertsEncode .reset, fun s => ⟨rfl, fun r h => ?_⟩⟩
  rcases listedRegister_iff.1 h with hunit | rfl | rfl | hconfig
  · rw [State.powerOn_register_of_unit hunit]
    iterate 7 rw [if_neg (by rintro rfl; revert hunit; decide)]
  · rfl
  · rfl
  · rcases configIndex_cases hconfig with rfl | rfl | rfl | rfl | rfl | rfl | rfl <;> rfl

/-! ### WRCFG (R64) -/

theorem ConfigRegs.write_ficStd (c : ConfigRegs) (val : BitVec 16) :
    c.write 0#8 val = if val = 0#16 then none else some { c with ficStd := val } := rfl

theorem ConfigRegs.write_ficEnd (c : ConfigRegs) (val : BitVec 16) :
    c.write 1#8 val = if val = 0#16 then none else some { c with ficEnd := val } := rfl

theorem ConfigRegs.write_mlenHdr (c : ConfigRegs) (val : BitVec 16) :
    c.write 2#8 val = some { c with mlenHdr := val } := rfl

theorem ConfigRegs.write_mlenBody (c : ConfigRegs) (val : BitVec 16) :
    c.write 3#8 val = some { c with mlenBody := val } := rfl

theorem ConfigRegs.write_mlenEnd (c : ConfigRegs) (val : BitVec 16) :
    c.write 4#8 val = some { c with mlenEnd := val } := rfl

/-- The one-bit register takes 0 and 1, and no other value (10_state.md R28). -/
theorem ConfigRegs.write_endLenient (c : ConfigRegs) (val : BitVec 16) :
    c.write 5#8 val = if val.toNat > 1 then none else some { c with endLenient := val == 1#16 } := by
  by_cases h : val.toNat > 1
  · rw [if_pos h]
    exact ConfigRegs.write_eq_none (by simp [legalConfig, h]) c
  · rw [if_neg h]
    have hbit : val = 0#16 ∨ val = 1#16 := by bv_omega
    rcases hbit with rfl | rfl <;> rfl

theorem ConfigRegs.write_dbg (c : ConfigRegs) (val : BitVec 16) :
    c.write 6#8 val = some { c with dbg := val } := rfl

theorem exec_wrcfg_of_none {ci : BitVec 8} {val : BitVec 16} {s : State} (h : s.cfg.write ci val = none) :
    exec (.wrcfg ci val) s = .next (s.refuse .badarg) := by
  rw [exec, execWrcfg, h]

theorem exec_wrcfg_of_some {ci : BitVec 8} {val : BitVec 16} {s : State} {c : ConfigRegs}
    (h : s.cfg.write ci val = some c) :
    exec (.wrcfg ci val) s = .next { s with cfg := c, resp := some ⟨.ok, 0#32⟩ } := by
  rw [exec, execWrcfg, h]; rfl

/-- WRCFG of a register with values that are not legal: refused on those, written on the others. -/
theorem exec_wrcfg_of_ite {ci : BitVec 8} {val : BitVec 16} {s : State} {c : ConfigRegs} {refused : Prop}
    [Decidable refused] (h : s.cfg.write ci val = if refused then none else some c) :
    exec (.wrcfg ci val) s = if refused then .next { s with resp := some ⟨.badarg, 0#32⟩ }
      else .next { s with cfg := c, resp := some ⟨.ok, 0#32⟩ } := by
  split
  case isTrue hr => exact exec_wrcfg_of_none (h.trans (if_pos hr))
  case isFalse hr => exact exec_wrcfg_of_some (h.trans (if_neg hr))

/-- Settles O28: an index above 6 is not legal, and each other index has its own equation of the write. -/
theorem wrcfgWritesLegalValues : Obligations.WrcfgWritesLegalValues := by
  intro ci val s
  refine ⟨decodeInvertsEncode (.wrcfg ci val), fun h => ?above, ?ficStd, ?ficEnd, ?mlenHdr, ?mlenBody, ?mlenEnd,
    ?endLenient, ?dbg⟩
  case above =>
    have hlegal : legalConfig ci val = false := by
      rw [legalConfig, decide_eq_false (Nat.not_le_of_gt h), Bool.false_and]
    exact exec_wrcfg_of_none (ConfigRegs.write_eq_none hlegal s.cfg)
  all_goals rintro rfl
  case ficStd => exact exec_wrcfg_of_ite (s.cfg.write_ficStd val)
  case ficEnd => exact exec_wrcfg_of_ite (s.cfg.write_ficEnd val)
  case mlenHdr => exact exec_wrcfg_of_some (s.cfg.write_mlenHdr val)
  case mlenBody => exact exec_wrcfg_of_some (s.cfg.write_mlenBody val)
  case mlenEnd => exact exec_wrcfg_of_some (s.cfg.write_mlenEnd val)
  case endLenient => exact exec_wrcfg_of_ite (s.cfg.write_endLenient val)
  case dbg => exact exec_wrcfg_of_some (s.cfg.write_dbg val)

/-! ### MEMRD (R65) -/

/-- What a read of a space returns is its element. -/
theorem State.element_of_memRead {s : State} {sp : Space} {a : Nat} {v : Word} (h : s.memRead sp a = .ok v) :
    s.element sp a = some v := by
  rcases s.memRead_cases sp a with ⟨-, h'⟩ | ⟨-, -, h'⟩ | ⟨u, -, hu, h'⟩ <;> rw [h'] at h <;> cases h
  exact hu

theorem exec_memrd_of_no_space {sp : BitVec 4} (h : 4 < sp.toNat) (a : BitVec 20) (s : State) :
    exec (.memrd sp a) s = .next (s.refuse .badarg) := by
  rw [exec, execMemrd, Space.ofCode_eq_none h]

theorem exec_memrd_of_limit_le {sp : BitVec 4} {a : BitVec 20} {s : State} {space : Space}
    (hsp : Space.ofCode sp = some space) (ha : s.limit space ≤ a.toNat) :
    exec (.memrd sp a) s = .next (s.refuse .badarg) := by
  simp only [exec, execMemrd, hsp, ha, if_true]

/-- Below the fill count of a space whose elements are written, MEMRD answers the element. -/
theorem exec_memrd_of_lt_limit {sp : BitVec 4} {a : BitVec 20} {s : State} {space : Space} (hs : s.BuffersHold)
    (hsp : Space.ofCode sp = some space) (ha : a.toNat < s.limit space) :
    ∃ v, s.element space a.toNat = some v ∧ exec (.memrd sp a) s = .next (s.respond .ok v) := by
  obtain ⟨v, hv⟩ := hs.memRead ha
  exact ⟨v, State.element_of_memRead hv, by simp only [exec, execMemrd, hsp, ha.not_ge, if_false, hv]⟩

/-- Settles O29: the number of a space gives the space, and its fill count is the limit MEMRD compares with. -/
theorem memrdReadsBelowFillCount : Obligations.MemrdReadsBelowFillCount := by
  intro sp a s
  refine ⟨decodeInvertsEncode (.memrd sp a), fun h => exec_memrd_of_no_space h a s, fun space fill hmem => ?_⟩
  have hspace : Space.ofCode sp = some space ∧ fill = s.limit space := by
    simp only [List.mem_cons, Prod.mk.injEq, List.not_mem_nil, or_false] at hmem
    rcases hmem with ⟨hsp, rfl, rfl⟩ | ⟨hsp, rfl, rfl⟩ | ⟨hsp, rfl, rfl⟩ | ⟨hsp, rfl, rfl⟩ | ⟨hsp, rfl, rfl⟩ <;>
      rw [Space.ofCode, hsp] <;> exact ⟨rfl, rfl⟩
  obtain ⟨hsp, rfl⟩ := hspace
  exact ⟨fun ha => exec_memrd_of_limit_le hsp ha, fun hs ha => exec_memrd_of_lt_limit hs hsp ha⟩

end Sys2Proof.Machine
end

section
/-! PROOF. The TAPE commands and the pilot (41_tape.md R68 to R74): how a read begins and ends, what an impulse is
refused for, and the calibration. -/

namespace Sys2Proof.Machine

/-! ### What a TAPE command answers -/

/-- An OK answer, with its data as a number. -/
theorem State.answerTape_eq {s : State} {k : ErrKind} {ph : Phase} {d : Word} (he : s.tape.err = k)
    (hp : s.tape.phase = ph) (hd : zext (k.code ++ ph.code) = d) :
    s.answerTape .ok = { s with resp := some ⟨.ok, d⟩ } := by
  rw [State.answerTape, tapeData, he, hp, hd]
  rfl

/-- A fatal error, with its data as a number (60_exceptions.md R131). -/
theorem State.failTape_eq (s : State) {k : ErrKind} {d : Word} (hd : zext (k.code ++ Phase.fatal.code) = d) :
    s.failTape k = { s with tape := { s.tape with phase := .fatal, err := k }, resp := some ⟨.fatal, d⟩ } := by
  rw [← hd]
  rfl

/-! ### TP_START, TP_PULSE without a step, TP_END (R68 to R70, R88) -/

/-- Settles O30: TP_START only resets, enters FIND_PILOT and answers. -/
theorem tpStartBeginsRead : Obligations.TpStartBeginsRead :=
  ⟨decodeInvertsEncode .tpStart, fun _ =>
    congrArg Host.Outcome.next (State.answerTape_eq (k := .none) (ph := .findPilot) rfl rfl (by decide))⟩

theorem exec_tpPulse_zero (s : State) : exec (.tpPulse 0#24) s = .next (s.refuse .badarg) := rfl

theorem exec_tpPulse_of_no_read {v : BitVec 24} {s : State} (hv : v ≠ 0#24)
    (hp : s.tape.phase = .idle ∨ s.tape.phase = .fatal) : exec (.tpPulse v) s = .next (s.refuse .seq) := by
  rcases hp with hp | hp <;> simp only [exec, execTpPulse, hv, if_false, hp]

theorem exec_tpPulse_done {v : BitVec 24} {s : State} (hv : v ≠ 0#24) (hp : s.tape.phase = .done) :
    exec (.tpPulse v) s = .next (s.answerTape .ok) := by
  simp only [exec, execTpPulse, hv, if_false, hp]

/-- Settles O31: the gates stand before the step of the phase; DONE with no error held is answered as the constant
10. -/
theorem tpPulseGates : Obligations.TpPulseGates := by
  intro v s
  refine ⟨decodeInvertsEncode (.tpPulse v), ?_, exec_tpPulse_of_no_read, fun hv hp he => ?_⟩
  · rintro rfl
    exact exec_tpPulse_zero s
  · exact (exec_tpPulse_done hv hp).trans (congrArg _ (State.answerTape_eq he hp (by decide)))

/-- Settles O32: the four answers of TP_END, each fatal one with the error kind and FATAL as its data. -/
theorem tpEndEndsTheCapture : Obligations.TpEndEndsTheCapture := by
  refine ⟨decodeInvertsEncode .tpEnd, fun s => ?_⟩
  rw [exec]
  rcases execTpEnd_cases s with ⟨hp, h⟩ | ⟨hp, h⟩ | ⟨hp, h⟩ | ⟨hidle, hfatal, hdone, hpilot, h⟩ <;> rw [h]
  · rcases hp with hp | hp <;> simp [hp, State.refuse, State.respond]
  · refine ⟨?_, fun _ => rfl, ?_, fun _ _ hne => absurd hp hne⟩ <;> simp [hp]
  · refine ⟨?_, ?_, fun _ => congrArg _ (s.failTape_eq (by decide)), fun _ _ _ hne => absurd hp hne⟩ <;> simp [hp]
  · exact ⟨fun hp => (hp.elim hidle hfatal).elim, fun hp => absurd hp hdone, fun hp => absurd hp hpilot,
      fun _ _ _ _ => congrArg _ (s.failTape_eq (by decide))⟩

/-! ### The pilot (R71, R72) -/

/-- TP_PULSE in FIND_PILOT runs the pilot step (R69). -/
theorem exec_tpPulse_findPilot {v : BitVec 24} {s : State} (hv : v ≠ 0#24) (hp : s.tape.phase = .findPilot) :
    exec (.tpPulse v) s = finishTape s (s.onTape (findPilotStep v.toNat s.tape)) := by
  rw [exec, execTpPulse_step hv (by simp [hp]) (by simp [hp]) (by simp [hp]), tapeStep, hp]

theorem pilotLong_eq_true {t : TapeRegs} {p : Nat} :
    pilotLong t p = true ↔ 7 * t.ps.toNat < 2 * t.pn.toNat * p := decide_eq_true_iff

/-- Settles O33: the three answers of the pilot step; TP_L0H and TP_CUT have room for the exact roundings
(`findPilotStep_exact`). -/
theorem pilotStepCalibrates : Obligations.PilotStepCalibrates := by
  intro v s hv hp
  rw [exec_tpPulse_findPilot hv hp]
  rcases findPilotStep_cases v.toNat s.tape with ⟨hn, hl, h⟩ | ⟨hnot, hcap, h⟩ | ⟨hnot, hcap, h⟩ <;>
    rw [h]
  · obtain ⟨hl0h, hcut⟩ := findPilotStep_exact hn hl v.isLt
    refine ⟨fun _ _ => ⟨_, _, hl0h, ?_, rfl⟩, fun hne => absurd ⟨hn, pilotLong_eq_true.1 hl⟩ hne⟩
    rw [hl0h, hcut]
  · rw [pilotLong_eq_true] at hnot
    have hpn : s.tape.pn = 0xFFFFFFFF#32 := BitVec.eq_of_toNat_eq hcap
    exact ⟨fun hn hl => absurd ⟨hn, hl⟩ hnot, fun _ => ⟨fun _ => rfl, fun hne => absurd hpn hne⟩⟩
  · rw [pilotLong_eq_true] at hnot
    refine ⟨fun hn hl => absurd ⟨hn, hl⟩ hnot, fun _ => ⟨fun hpn => absurd (by rw [hpn]; rfl) hcap, fun _ => ?_⟩⟩
    rw [BitVec.ofNat_toNat]
    rfl

/-! ### A pilot of equal impulses -/

theorem rhe_mul_self (a : Nat) {b : Nat} (hb : 0 < b) : rhe (b * a) b = a := by
  simp [rhe, hb]

/-- Rounding is of the fraction: a common factor cancels. -/
theorem rhe_mul_mul {k : Nat} (hk : 0 < k) (a b : Nat) : rhe (k * a) (k * b) = rhe a b := by
  have hlt : 2 * (k * (a % b)) < k * b ↔ 2 * (a % b) < b := by
    rw [Nat.mul_left_comm, Nat.mul_lt_mul_left hk]
  have hgt : k * b < 2 * (k * (a % b)) ↔ b < 2 * (a % b) := by
    rw [Nat.mul_left_comm, Nat.mul_lt_mul_left hk]
  simp only [rhe, Nat.mul_mod_mul_left, Nat.mul_div_mul_left _ _ hk, hlt, hgt]

/-- The state in FIND_PILOT after `k` impulses of length `len` of a read begun in `s`. -/
def State.inPilot (s : State) (k len : Nat) : State :=
  State.answerTape { s with tape := { TapeRegs.reset with
    phase := .findPilot, pn := BitVec.ofNat 32 k, ps := BitVec.ofNat 64 (k * len) } } .ok

theorem exec_tpStart_inPilot (s : State) (len : Nat) : exec .tpStart s = .next (s.inPilot 0 len) := by
  rw [State.inPilot, Nat.zero_mul]; rfl

/-- The registers of the pilot hold the count and the sum of its impulses (R71). -/
theorem State.inPilot_counts (s : State) {k len : Nat} (hk : k < 4294967296) (hlen : len < 16777216) :
    (s.inPilot k len).tape.pn.toNat = k ∧ (s.inPilot k len).tape.ps.toNat = k * len := by
  have hsum : k * len ≤ 4294967296 * 16777216 := Nat.mul_le_mul hk.le hlen.le
  exact ⟨BitVec.toNat_ofNat _ _ ▸ Nat.mod_eq_of_lt hk, BitVec.toNat_ofNat _ _ ▸ Nat.mod_eq_of_lt (by omega)⟩

/-- An impulse as long as the others is averaged: it is not over 3.5 times their average (R71). -/
theorem exec_tpPulse_inPilot (s : State) {k len : Nat} (hk : k + 1 < 4294967296) (hpos : 0 < len)
    (hlen : len < 16777216) :
    exec (.tpPulse (BitVec.ofNat 24 len)) (s.inPilot k len) = .next (s.inPilot (k + 1) len) := by
  have hv : (BitVec.ofNat 24 len).toNat = len := by rw [BitVec.toNat_ofNat, Nat.mod_eq_of_lt hlen]
  have hne : BitVec.ofNat 24 len ≠ 0#24 := fun h => by rw [h] at hv; exact hpos.ne hv
  obtain ⟨hpn, hps⟩ := s.inPilot_counts (Nat.lt_of_succ_lt hk) hlen
  have hcap : (s.inPilot k len).tape.pn ≠ 0xFFFFFFFF#32 := fun h => by
    rw [h, BitVec.toNat_ofNat] at hpn
    omega
  have hshort : ¬7 * (k * len) < 2 * k * len := by
    rw [Nat.mul_assoc]; exact (Nat.mul_le_mul_right _ (by decide)).not_gt
  have haveraged := (pilotStepCalibrates _ (s.inPilot k len) hne rfl).2
    (by rw [hpn, hps, hv]; exact fun h => hshort h.2)
  have hstep := haveraged.2 hcap
  have hsum : BitVec.ofNat 64 (k * len) + (BitVec.ofNat 24 len).setWidth 64 = BitVec.ofNat 64 ((k + 1) * len) := by
    rw [← BitVec.ofNat_toNat, hv, ← BitVec.ofNat_add, Nat.succ_mul]
  rw [hstep, State.inPilot, State.inPilot, ← hsum, BitVec.ofNat_add]
  rfl

theorem execList_inPilot (s : State) {n k len : Nat} (hk : k + n < 4294967296) (hpos : 0 < len)
    (hlen : len < 16777216) :
    execList (List.replicate n (.tpPulse (BitVec.ofNat 24 len))) (s.inPilot k len) = .next (s.inPilot (k + n) len) := by
  induction n generalizing k with
  | zero => rfl
  | succ n ih =>
    rw [List.replicate_succ, execList, exec_tpPulse_inPilot s (by omega) hpos hlen]
    simpa only [Nat.add_right_comm k 1, Nat.add_assoc] using ih (k := k + 1) (by omega)

/-- Settles O42: the equal impulses are all averaged, and the last is over 3.5 times their average. TP_L0H needs
no rounding, and TP_CUT rounds the fraction of the statement, extended by 200. -/
theorem equalPilotCalibrates : Obligations.EqualPilotCalibrates := by
  intro n len s hn hcap hpos hlen
  have hv : (BitVec.ofNat 24 (4 * len)).toNat = 4 * len := by rw [BitVec.toNat_ofNat, Nat.mod_eq_of_lt hlen]
  have hne : BitVec.ofNat 24 (4 * len) ≠ 0#24 := fun h => by rw [h, BitVec.toNat_zero] at hv; omega
  obtain ⟨hpn, hps⟩ := s.inPilot_counts (len := len) hcap (by omega)
  have hlong : 7 * (n * len) < 2 * n * (4 * len) := by nlinarith [Nat.mul_pos (show 0 < n by omega) hpos]
  obtain ⟨l0h, cut, hl0h, hcut, hlast⟩ :=
    (pilotStepCalibrates _ (s.inPilot n len) hne rfl).1 (by rw [hpn]; exact hn) (by rw [hpn, hps, hv]; exact hlong)
  have hl : l0h.toNat = 100 * len := by
    rw [hl0h, hpn, hps, Nat.mul_left_comm, rhe_mul_self _ (by omega)]
  have hpilot : execList (List.replicate n (.tpPulse (BitVec.ofNat 24 len))) (s.inPilot 0 len) =
      .next (s.inPilot n len) := by
    simpa only [Nat.zero_add] using execList_inPilot s (k := 0) (by omega) hpos (by omega)
  refine ⟨State.answerTape { s with tape := { (s.inPilot n len).tape with
    l0h := l0h, cut := cut, phase := .pilotFound } } .ok, ?_, rfl, hpn, hps, hl, ?_, rfl⟩
  · rw [execList, exec_tpStart_inPilot s len]
    dsimp only
    rw [execList_append hpilot, execList, hlast]
    rfl
  · change cut.toNat = rhe (8 * len) 5
    rw [hcut, hl, show 100 * len * 16 = 200 * (8 * len) by omega]
    exact rhe_mul_mul (by decide) _ 5

/-! ### The post-pilot pair (R73, R74) -/

/-- Settles O34: each step of the pair sets its warning where its test fails, and goes on. -/
theorem postPilotPairIsLenient : Obligations.PostPilotPairIsLenient := by
  intro v s hv
  constructor <;> intro hp <;>
    rw [exec, execTpPulse_step hv (by simp [hp]) (by simp [hp]) (by simp [hp]), tapeStep, hp]
  · by_cases hone : s.tape.cut.toNat < v.toNat <;> simp only [pilotFoundStep, isOne, hone, decide_true, decide_false,
      if_true] <;> rfl
  · by_cases hzero : v.toNat ≤ s.tape.cut.toNat <;> simp only [pilotFound2Step, isZero, hzero, decide_true,
      decide_false, if_true] <;> rfl

end Sys2Proof.Machine
end

section
/-! PROOF. The block markers (41_tape.md R75 to R78, R86): the check of each sub-state, and what an impulse that passes
it, or fails it, leads to. -/

namespace Sys2Proof.Machine

/-- The check of the sub-state (41_tape.md R76); MID has none. -/
def TapeRegs.markerTest (t : TapeRegs) (p : Nat) : Bool :=
  match t.msub with
  | .lead => leadOk t p
  | .final => longOk t p
  | .sync1 => isOne t p
  | .sync0 => isZero t p
  | .mid => true
  | .none => true

/-- The check of the statements is the check of the model. -/
theorem TapeRegs.markerTest_eq_false_iff {t : TapeRegs} {p : Nat} : t.markerTest p = false ↔ t.CheckFails p := by
  cases hm : t.msub <;>
    simp only [TapeRegs.markerTest, TapeRegs.CheckFails, hm, leadOk, longOk, isOne, isZero, decide_eq_false_iff_not,
      not_le, not_lt, reduceCtorEq]

/-- A check fails only where there is one: not outside the sub-states. -/
theorem TapeRegs.CheckFails.msub_ne_none {t : TapeRegs} {p : Nat} (h : t.CheckFails p) : t.msub ≠ .none := by
  rintro hm
  simp only [TapeRegs.CheckFails, hm] at h

/-- Two continuations of a check that agree on the registers it goes on with. -/
theorem markerCheck_map_congr {passed : Bool} {t : TapeRegs} {f g : TapeRegs → TapeRegs} (ht : f t = g t)
    (hw : f t.warnMark = g t.warnMark) : (markerCheck passed t).map f = (markerCheck passed t).map g := by
  rcases markerCheck_cases passed t with ⟨-, h⟩ | ⟨-, -, h⟩ | ⟨-, -, h⟩ <;> rw [h]
  · exact congrArg Except.ok ht
  · exact congrArg Except.ok hw
  · rfl

/-- A complete marker, in the terms of the statements (41_tape.md R78, R79, R86). -/
theorem markerComplete_eq_advance {t : TapeRegs} (hm : t.msub = .sync0) :
    markerComplete { t with msub := .none } = t.advance := by
  cases hp : t.phase <;> simp only [markerComplete, TapeRegs.advance, hm, hp] <;> rfl

/-- The marker step: the check of the sub-state, then one sub-state further (41_tape.md R76). -/
theorem markerStep_eq {p : Nat} {t : TapeRegs} (hm : t.msub ≠ .none) :
    markerStep p t = (markerCheck (t.markerTest p) t).map TapeRegs.advance := by
  cases hs : t.msub <;> simp only [markerStep, TapeRegs.markerTest, hs]
  case none => exact absurd hs hm
  case mid =>
    have hlast : t.mcnt - 1#16 = 0#16 ↔ t.mcnt = 1#16 := by constructor <;> intro h <;> bv_omega
    simp only [markerCheck, if_true, Except.map, TapeRegs.advance, hs, hlast]
  case lead | final | sync1 =>
    exact markerCheck_map_congr (by simp only [TapeRegs.advance, hs])
      (by simp only [TapeRegs.warnMark_eq, TapeRegs.advance, hs])
  case sync0 => exact markerCheck_map_congr (markerComplete_eq_advance hs) (markerComplete_eq_advance hs)

/-- Settles O35: a check that does not fail hands the registers on as they are. -/
theorem markerImpulsesAdvance : Obligations.MarkerImpulsesAdvance := by
  intro v s hv hp hm hpass
  have htest : s.tape.markerTest v.toNat = true := by
    rwa [← TapeRegs.markerTest_eq_false_iff, Bool.not_eq_false] at hpass
  rw [exec_tpPulse_marker hv hp, markerStep_eq hm, htest]
  rfl

/-- Settles O36: a check that fails hands the registers on with the warning, or raises the error. -/
theorem markerViolations : Obligations.MarkerViolations := by
  intro v s hv hp hfails
  have htest := TapeRegs.markerTest_eq_false_iff.2 hfails
  rw [exec_tpPulse_marker hv hp, markerStep_eq hfails.msub_ne_none]
  rcases markerCheck_cases (s.tape.markerTest v.toNat) s.tape with ⟨hpass, -⟩ | ⟨-, hl, h⟩ | ⟨-, hl, h⟩
  · rw [htest] at hpass; cases hpass
  · rw [h]
    exact ⟨fun _ => rfl, fun hstrict => absurd (hl.symm.trans hstrict) nofun⟩
  · rw [h]
    exact ⟨fun hlenient => absurd (hl.symm.trans hlenient) nofun, fun _ => congrArg _ (s.failTape_eq (by decide))⟩

end Sys2Proof.Machine
end

section
/-! PROOF. The read_bit phases (41_tape.md R80 to R87): the guard, the data bits and the bytes they complete, the sync
bits and the segments they end. -/

namespace Sys2Proof.Machine

/-! ### The guard (R81) -/

theorem guardHit_eq_true {t : TapeRegs} {p : Nat} : guardHit t p = true ↔ 7 * t.l0h.toNat < 250 * p :=
  decide_eq_true_iff

/-- An impulse over the guard, in either bit phase. -/
theorem exec_tpPulse_over_guard {v : BitVec 24} {s : State} (hp : s.tape.phase.isSegment = true)
    (hg : 7 * s.tape.l0h.toNat < 250 * v.toNat) : exec (.tpPulse v) s = .next (s.failTape .bitTiming) := by
  have hv : v ≠ 0#24 := by rintro rfl; simp at hg
  have hstep : readBitStep v.toNat s = .error (.fatal .bitTiming) := by
    rw [readBitStep, if_pos (guardHit_eq_true.2 hg)]
  rw [exec_tpPulse_segment hv hp, hstep]
  rfl

/-- An impulse within the guard runs the step of its bit phase. -/
theorem exec_tpPulse_in_guard {v : BitVec 24} {s : State} (hp : s.tape.phase.isSegment = true)
    (hv : s.tape.InGuard v) : exec (.tpPulse v) s =
      finishTape s (if s.tape.syncph then syncBitStep v.toNat s else dataBitStep v.toNat s) := by
  obtain ⟨hne, hin⟩ := hv
  have hg : ¬guardHit s.tape v.toNat = true := fun h => hin.not_gt (guardHit_eq_true.1 h)
  rw [exec_tpPulse_segment hne hp, readBitStep, if_neg hg]

/-- TP_PULSE is answered FATAL only for a fatal error of its step, with the state failed for it. -/
theorem exec_tpPulse_fatal {v : BitVec 24} {s s' : State} {d : Word} (h : exec (.tpPulse v) s = .next s')
    (hr : s'.resp = some ⟨.fatal, d⟩) : ∃ k, tapeStep v.toNat s = .error (.fatal k) ∧ s' = s.failTape k := by
  rcases execTpPulse_next v s s' h with ⟨rfl, -⟩ | ⟨rfl, -⟩ | ⟨rfl, -⟩ | ⟨-, -, -, -, ⟨u, -, rfl⟩ | hfatal⟩
  case inr.inr.inr.inr => exact hfatal
  all_goals cases hr

/-- Settles O37: the guard comes before either bit phase, and no other cause of TP_PULSE is BIT_TIMING. -/
theorem guardAbortsReadBit : Obligations.GuardAbortsReadBit := by
  intro v s hp
  refine ⟨fun hg => ?_, fun hin h => ?_⟩
  · exact (exec_tpPulse_over_guard hp hg).trans (congrArg _ (s.failTape_eq (by decide)))
  · obtain ⟨k, hstep, hfail⟩ := exec_tpPulse_fatal h (s.failTape_resp .bitTiming)
    have hk : ErrKind.bitTiming = k := congrArg (fun s : State => s.tape.err) hfail
    rcases tapeStep_fatal hstep with ⟨rfl, -⟩ | ⟨rfl, -⟩ | ⟨-, -, hg⟩ | ⟨rfl, -⟩
    case inr.inr.inl => exact absurd hg hin.not_gt
    all_goals cases hk

/-! ### The data bits (R82, R84) -/

/-- Shifting in a bit doubles the accumulator, without its top bit, and adds the bit. -/
theorem shiftIn_toNat (acc : BitVec 8) (bit : Bool) :
    (shiftIn acc bit).toNat = (2 * acc.toNat + bit.toNat) % 256 := by
  have hdisjoint : acc <<< 1 &&& (BitVec.ofBool bit).setWidth 8 = 0#8 := by
    ext i hi
    cases i <;> simp
  have hbit : bit.toNat % 256 = bit.toNat := by cases bit <;> rfl
  rw [shiftIn, ← BitVec.add_eq_or_of_and_eq_zero _ _ hdisjoint]
  simp [BitVec.toNat_add, Nat.shiftLeft_eq, Nat.mul_comm]

/-- The accumulator of the statements is the model's. -/
theorem eq_shiftIn {t : TapeRegs} {p : Nat} {acc : BitVec 8}
    (h : acc.toNat = (2 * t.acc.toNat + if t.cut.toNat < p then 1 else 0) % 256) :
    acc = shiftIn t.acc (isOne t p) := by
  apply BitVec.eq_of_toNat_eq
  rw [h, shiftIn_toNat]
  by_cases hone : t.cut.toNat < p <;> simp [isOne, hone]

/-- A byte of the header finds its place in HB. -/
theorem storeByte_header {s : State} (hp : s.tape.phase = .readHeader) (hroom : s.tape.hcnt.toNat < 20) (b : BitVec 8) :
    storeByte b s = .ok { s with
      hb := Memory.write s.hb s.tape.hcnt.toNat b, tape := { s.tape with hcnt := s.tape.hcnt + 1#5 } } := by
  simp only [storeByte, hp, storeHeader, State.writeHb, State.size, hroom.not_ge, if_false, Except.map]

/-- Byte 0 of a 16-bit register replaced. -/
theorem putByte_low (v : BitVec 16) (b : BitVec 8) :
    putByte v 0 b = some ((v &&& 0xFF00#16) ||| b.setWidth 16) := by
  refine congrArg some (BitVec.eq_of_getLsbD_eq fun i hi => BitVec.getLsbD_append.trans ?_)
  interval_cases i <;> simp

/-- Byte 1 of a 16-bit register replaced. -/
theorem putByte_high (v : BitVec 16) (b : BitVec 8) :
    putByte v 1 b = some ((v &&& 0x00FF#16) ||| (b.setWidth 16 <<< 8)) := by
  refine congrArg some (BitVec.eq_of_getLsbD_eq fun i hi => BitVec.getLsbD_append.trans ?_)
  interval_cases i <;> simp

/-- The low byte of TP_CKREAD comes first. -/
theorem storeByte_cksum_low {s : State} (hp : s.tape.phase = .cksum) (hc : s.tape.ccnt = 0#2) (b : BitVec 8) :
    storeByte b s = .ok { s with tape := { s.tape with
      ckread := (s.tape.ckread &&& 0xFF00#16) ||| b.setWidth 16, ccnt := 1#2 } } := by
  have hput := putByte_low s.tape.ckread b
  simp only [storeByte, hp, storeChecksum, hc, BitVec.toNat_ofNat, Nat.zero_mod, hput]
  rfl

/-- The high byte of TP_CKREAD comes second. -/
theorem storeByte_cksum_high {s : State} (hp : s.tape.phase = .cksum) (hc : s.tape.ccnt = 1#2) (b : BitVec 8) :
    storeByte b s = .ok { s with tape := { s.tape with
      ckread := (s.tape.ckread &&& 0x00FF#16) ||| (b.setWidth 16 <<< 8), ccnt := 2#2 } } := by
  have hput := putByte_high s.tape.ckread b
  simp only [storeByte, hp, storeChecksum, hc, BitVec.toNat_ofNat, Nat.reducePow, Nat.reduceMod, hput]
  rfl

/-- The eighth data bit of a byte that finds its place. -/
theorem dataBitStep_byte {s u : State} {p : Nat} (hb : s.tape.bitcnt = 7#3)
    (hu : storeByte (shiftIn s.tape.acc (isOne s.tape p)) s = .ok u) :
    dataBitStep p s = .ok { u with tape := u.tape.byteStored } := by
  rcases dataBitStep_cases p s with ⟨hne, -⟩ | ⟨-, h⟩
  · exact absurd hb hne
  · rw [h, hu]
    rfl

/-- Settles O38: a bit is shifted in, and the eighth has its byte stored by phase. -/
theorem dataBitsAssembleBytes : Obligations.DataBitsAssembleBytes := by
  intro v s hv hp hs hin acc hacc
  rw [exec_tpPulse_in_guard hp ⟨hv, hin⟩, hs, if_neg Bool.false_ne_true]
  obtain rfl := eq_shiftIn hacc
  constructor
  · intro hb
    rcases dataBitStep_cases v.toNat s with ⟨-, h⟩ | ⟨hb', -⟩
    · rw [h]; rfl
    · exact absurd hb' hb
  · intro hb
    refine ⟨fun hp hroom => ?_, fun hp hroom => ?_, fun hp hc => ?_, fun hp hc => ?_⟩
    · rw [dataBitStep_byte hb (storeByte_header hp hroom _)]; rfl
    · rw [dataBitStep_byte hb (storeByte_body hp hroom _)]; rfl
    · rw [dataBitStep_byte hb (storeByte_cksum_low hp hc _)]; rfl
    · rw [dataBitStep_byte hb (storeByte_cksum_high hp hc _)]; rfl

/-! ### The sync bits (R83, R85, R87) -/

/-- TP_CKSTAT of two checksums: DONE, and OK where they agree (R87). -/
theorem ckstatOf_beq (a b : BitVec 16) : ckstatOf (a == b) = if a = b then 3#2 else 1#2 := by
  by_cases h : a = b
  · rw [if_pos h, beq_iff_eq.2 h]; rfl
  · rw [if_neg h, beq_eq_false_iff_ne.2 h]; rfl

/-- Settles O39: the three answers of the sync-bit step, the last by segment. -/
theorem syncBitsEndSegments : Obligations.SyncBitsEndSegments := by
  intro v s hv hp hs hin
  rw [exec_tpPulse_in_guard hp ⟨hv, hin⟩, hs, if_pos rfl]
  rcases syncBitStep_cases v.toNat s with ⟨hcut, h⟩ | ⟨hcut, hr, h⟩ | ⟨hcut, hr, h⟩ <;> rw [h]
  · exact ⟨fun _ => congrArg _ (s.failTape_eq (by decide)), fun hle => absurd hcut hle.not_gt⟩
  · exact ⟨fun hlt => absurd hcut hlt.not_ge, fun _ => ⟨fun _ => rfl, fun hr' => absurd hr' hr⟩⟩
  · refine ⟨fun hlt => absurd hcut hlt.not_ge, fun _ => ⟨fun hr' => absurd hr hr', fun _ => ⟨?_, ?_, ?_⟩⟩⟩
    · intro hp b0 b1 b2 b3 h0 h1 h2 h3
      rw [segmentComplete_header (s := { s with tape := { s.tape with syncph := false } }) hp h0 h1 h2 h3]
      rfl
    · intro hp
      simp only [segmentComplete, hp]
      rfl
    · intro hp
      rw [← ckstatOf_beq]
      simp only [segmentComplete, hp]
      rfl

end Sys2Proof.Machine
end

section
/-! PROOF. The fatal errors (60_exceptions.md R131): what raises each, and how its unit is left in FATAL. -/

namespace Sys2Proof.Machine

/-! ### The walks over FM that fail -/

/-- The walk of R95 answers nothing exactly where no interval, from the third on, deviates from those before it. -/
theorem estimate_eq_none_iff {fs : List Nat} {sum k : Nat} :
    estimate fs sum k = none ↔
      ∀ j (hj : j < fs.length), 2 ≤ k + j → deviates (sum + (fs.take j).sum) (k + j) fs[j] = false := by
  induction fs generalizing sum k with
  | nil => simp [estimate]
  | cons f fs ih =>
    have hwalk : estimate (f :: fs) sum k = none ↔
        (2 ≤ k → deviates sum k f = false) ∧ estimate fs (sum + f) (k + 1) = none := by
      rw [estimate]
      split
      next hstop => simp [hstop]
      next hgo => exact ⟨fun hnone => ⟨fun h2 => by simpa [h2] using hgo, hnone⟩, And.right⟩
    have hshift (j : Nat) : deviates (sum + f + (fs.take j).sum) (k + 1 + j) =
        deviates (sum + ((f :: fs).take (j + 1)).sum) (k + (j + 1)) := by
      rw [List.take_succ_cons, List.sum_cons, Nat.add_assoc, Nat.add_assoc, Nat.add_comm 1]
    rw [hwalk, ih]
    constructor
    · rintro ⟨hfirst, hrest⟩ (_ | j) hj h2
      · exact hfirst h2
      · rw [← hshift]
        exact hrest j (Nat.lt_of_succ_lt_succ hj) (by omega)
    · intro h
      refine ⟨h 0 (Nat.succ_pos _), fun j hj h2 => ?_⟩
      rw [hshift]
      exact h (j + 1) (Nat.succ_lt_succ hj) (by omega)

/-- The decode loop fails only at an interval over the bound (42_floppy.md R101). -/
theorem mfmLoop_none {c : SyncLen} {count target : Nat} (passes : Nat) {v : MfmVars}
    (h : mfmLoop c count target passes v = none) : ∃ f ∈ v.rest, overBound c f = true := by
  induction passes generalizing v with
  | zero => cases h
  | succ passes ih =>
    simp only [mfmLoop] at h
    obtain ⟨emitted, act, -, ⟨-, hp⟩ | ⟨-, -, hp⟩ | ⟨-, -, -, hp⟩ | ⟨-, -, f, rest, hr, ⟨hg, hp⟩ | ⟨g, -, hp⟩⟩⟩ :=
      mfmPass_cases c count target v <;> rw [hp] at h <;> dsimp only at h
    · cases h
    · obtain ⟨f, hmem, hover⟩ := ih h
      exact ⟨f, hmem, hover⟩
    · cases h
    · exact ⟨f, by rw [hr]; exact List.mem_cons_self, mfmFetch_eq_none_iff.1 hg⟩
    · obtain ⟨f', hmem, hover⟩ := ih h
      exact ⟨f', by rw [hr]; exact List.mem_cons_of_mem _ hmem, hover⟩

theorem mfmDecode_none {c : SyncLen} {count start n : Nat} {fs : List Nat}
    (h : mfmDecode c count start n fs = none) : ∃ f ∈ fs, overBound c f = true := by
  cases fs with
  | nil => cases h
  | cons f rest =>
    simp only [mfmDecode] at h
    split at h
    next hg => exact ⟨f, List.mem_cons_self, mfmFetch_eq_none_iff.1 hg⟩
    next =>
      obtain ⟨f', hmem, hover⟩ := mfmLoop_none _ h
      exact ⟨f', List.mem_cons_of_mem _ hmem, hover⟩

/-! ### What raises a fatal error (60_exceptions.md R132) -/

/-- TP_END is fatal in a read that has not ended (41_tape.md R70). -/
theorem exec_tpEnd_fatal {s s' : State} {d : Word} (h : exec .tpEnd s = .next s')
    (hr : s'.resp = some ⟨.fatal, d⟩) :
    (s.tape.phase = .findPilot ∧ s' = s.failTape .calibration) ∨
      (s.tape.phase ≠ .idle ∧ s.tape.phase ≠ .findPilot ∧ s.tape.phase ≠ .done ∧ s.tape.phase ≠ .fatal ∧
        s' = s.failTape .truncated) := by
  rw [exec] at h
  rcases execTpEnd_cases s with ⟨-, h'⟩ | ⟨-, h'⟩ | ⟨hp, h'⟩ | ⟨hidle, hfatal, hdone, hpilot, h'⟩ <;>
    rw [h'] at h <;> cases h
  · cases hr
  · cases hr
  · exact .inl ⟨hp, rfl⟩
  · exact .inr ⟨hidle, hpilot, hdone, hfatal, rfl⟩

/-- FL_EST is fatal where its walk runs out (42_floppy.md R95). -/
theorem exec_flEst_fatal {s s' : State} {d : Word} (h : exec .flEst s = .next s')
    (hr : s'.resp = some ⟨.fatal, d⟩) :
    ∃ fs, s.fluxSpan 0 s.floppy.count.toNat = .ok fs ∧ estimate fs 0 0 = none ∧ s' = s.failFloppy .calibration := by
  rw [exec] at h
  rcases execFlEst_cases s with ⟨-, h'⟩ | ⟨-, -, h'⟩ | ⟨-, -, ⟨_, h'⟩ | ⟨fs, hfs, ⟨he, h'⟩ | ⟨_, _, -, h'⟩⟩⟩ <;>
    rw [h'] at h <;> cases h
  · cases hr
  · cases hr
  · exact ⟨fs, hfs, he, rfl⟩
  · cases hr

/-- A decode is fatal where an interval of the flux it sees is over the bound (42_floppy.md R101). -/
theorem State.runDecode_fatal {s s' : State} {n : Nat} {finish : MfmOut → FloppyRegs → FloppyRegs} {d : Word}
    (h : s.runDecode n finish = .next s') (hr : s'.resp = some ⟨.fatal, d⟩) :
    s' = s.failFloppy .bitTiming ∧
      ∃ fs, s.fluxSpan s.floppy.mpos.toNat (s.floppy.count.toNat - s.floppy.mpos.toNat) = .ok fs ∧
        ∃ f ∈ fs, overBound s.cell f = true := by
  rcases State.runDecode_next h with ⟨rfl, -⟩ | ⟨-, he, rfl⟩ | ⟨-, o, -, rfl⟩
  · cases hr
  · refine ⟨rfl, ?_⟩
    rcases s.decodeField_cases n with ⟨f, h'⟩ | ⟨fs, hfs, ⟨hnone, -⟩ | ⟨o, -, h'⟩⟩
    · rw [h'] at he; cases he
    · exact ⟨fs, hfs, mfmDecode_none hnone⟩
    · rw [h'] at he; cases he
  · cases hr

/-- The commands that raise no fatal error: those of the block, of CRC and of ADD, TP_START, FL_CLEAR, FL_PUSH, FL_FIND
and FL_SETPOS. -/
def neverFatal : Instr → Bool
  | .tpPulse _ => false
  | .tpEnd => false
  | .flEst => false
  | .flRead _ => false
  | .flHdr => false
  | .flData _ => false
  | _ => true

/-- The other commands are never answered FATAL. -/
theorem exec_not_fatal {i : Instr} (hi : neverFatal i = true) {s s' : State} (h : exec i s = .next s') (d : Word) :
    s'.resp ≠ some ⟨.fatal, d⟩ := by
  intro hr
  cases i
  case tpPulse | tpEnd | flEst | flRead | flHdr | flData => cases hi
  case flPush v =>
    rw [exec] at h
    rcases execFlPush_cases v s with ⟨-, h'⟩ | ⟨-, -, h'⟩ | ⟨-, -, h'⟩ | ⟨-, -, -, h'⟩ <;>
      rw [h'] at h <;> cases h <;> cases hr
  case flFind =>
    rw [exec] at h
    rcases execFlFind_cases s with ⟨-, h'⟩ | ⟨-, -, ⟨_, h'⟩ | ⟨_, -, h'⟩⟩ <;> rw [h'] at h <;> cases h <;> cases hr
  case rdreg | wrcfg | memrd | flSetpos =>
    simp only [exec, execRdreg, execWrcfg, execMemrd, execFlSetpos] at h
    repeat' split at h
    all_goals cases h
    all_goals cases hr
  all_goals cases h; cases hr

/-- Settles O14: TP_PULSE by the causes of its step, TP_END, FL_EST and the decodes by theirs. -/
theorem fatalErrorsHaveTheirCauses : Obligations.FatalErrorsHaveTheirCauses := by
  intro i s s' d h hr
  cases i
  case tpPulse v =>
    obtain ⟨k, hk, rfl⟩ := exec_tpPulse_fatal h hr
    rcases tapeStep_fatal hk with ⟨rfl, hp, hpn⟩ | ⟨rfl, hp, hl, hc⟩ | ⟨rfl, hp, hg⟩ | ⟨rfl, hp, hs, hcut⟩
    · exact .inl ⟨rfl, hp, .inr ⟨⟨v, rfl⟩, hpn⟩⟩
    · exact .inr (.inl ⟨rfl, hp, hl, v, rfl, hc⟩)
    · exact .inr (.inr (.inl ⟨rfl, hp, v, rfl, hg⟩))
    · exact .inr (.inr (.inr (.inl ⟨rfl, hp, hs, v, rfl, hcut⟩)))
  case tpEnd =>
    rcases exec_tpEnd_fatal h hr with ⟨hp, rfl⟩ | ⟨hidle, hpilot, hdone, hfatal, rfl⟩
    · exact .inl ⟨rfl, hp, .inl rfl⟩
    · exact .inr (.inr (.inr (.inr (.inl ⟨rfl, rfl, hidle, hpilot, hdone, hfatal⟩))))
  case flEst =>
    obtain ⟨fs, hfs, he, rfl⟩ := exec_flEst_fatal h hr
    refine .inr (.inr (.inr (.inr (.inr (.inl ⟨rfl, rfl, fs, hfs, fun k hk h2 => ?_⟩)))))
    simpa using estimate_eq_none_iff.1 he k hk (by omega)
  case flRead n =>
    simp only [exec, execFlRead] at h
    split at h
    · cases h; cases hr
    · obtain ⟨rfl, hfs⟩ := State.runDecode_fatal h hr
      exact .inr (.inr (.inr (.inr (.inr (.inr ⟨rfl, .inl ⟨n, rfl⟩, hfs⟩)))))
  case flHdr =>
    obtain ⟨rfl, hfs⟩ := State.runDecode_fatal h hr
    exact .inr (.inr (.inr (.inr (.inr (.inr ⟨rfl, .inr (.inl rfl), hfs⟩)))))
  case flData z =>
    simp only [exec, execFlData] at h
    split at h
    · cases h; cases hr
    · obtain ⟨rfl, hfs⟩ := State.runDecode_fatal h hr
      exact .inr (.inr (.inr (.inr (.inr (.inr ⟨rfl, .inr (.inr ⟨z, rfl⟩), hfs⟩)))))
  all_goals exact absurd hr (exec_not_fatal rfl h d)

/-! ### FLOPPY commands in FATAL (42_floppy.md R91) -/

section FloppyFatal

variable {s : State}

theorem exec_flPush_of_fatal (hf : s.floppy.mode = .fatal) (v : BitVec 24) :
    exec (.flPush v) s = .next (s.refuse (if v = 0#24 then .badarg else .seq)) := by
  rw [exec, execFlPush, hf]
  split <;> rfl

theorem exec_flEst_of_fatal (hf : s.floppy.mode = .fatal) : exec .flEst s = .next (s.refuse .seq) := by
  rw [exec, execFlEst, if_pos hf]

theorem exec_flFind_of_fatal (hf : s.floppy.mode = .fatal) : exec .flFind s = .next (s.refuse .seq) := by
  rw [exec, execFlFind, if_pos hf]

theorem exec_flSetpos_of_fatal (hf : s.floppy.mode = .fatal) (p : BitVec 21) :
    exec (.flSetpos p) s = .next (s.refuse (if s.floppy.count.toNat < p.toNat then .badarg else .seq)) := by
  rw [exec, execFlSetpos, hf]
  split <;> rfl

theorem State.runDecode_of_fatal (hf : s.floppy.mode = .fatal) (n : Nat)
    (finish : MfmOut → FloppyRegs → FloppyRegs) : s.runDecode n finish = .next (s.refuse .seq) := by
  rw [State.runDecode, FloppyRegs.mayDecode, hf]
  rfl

theorem exec_flRead_of_fatal (hf : s.floppy.mode = .fatal) (n : BitVec 11) :
    exec (.flRead n) s = .next (s.refuse (if legalGroups n then .seq else .badarg)) := by
  rw [exec, execFlRead, State.runDecode_of_fatal hf]
  cases legalGroups n <;> rfl

theorem exec_flHdr_of_fatal (hf : s.floppy.mode = .fatal) : exec .flHdr s = .next (s.refuse .seq) :=
  State.runDecode_of_fatal hf 10 finishHeader

theorem exec_flData_of_fatal (hf : s.floppy.mode = .fatal) (z : BitVec 2) :
    exec (.flData z) s = .next (s.refuse (if z = 0#2 then .badarg else .seq)) := by
  rw [exec, execFlData, State.runDecode_of_fatal hf]
  split <;> rfl

end FloppyFatal

/-! ### Leaving FATAL (R131) -/

theorem exec_tpEnd_of_fatal {s : State} (hf : s.tape.phase = .fatal) : exec .tpEnd s = .next (s.refuse .seq) := by
  rw [exec, execTpEnd, hf]

/-- TAPE leaves FATAL only by TP_START or RESET: its two other commands are refused there, and no command of another
unit writes a TAPE register. -/
theorem exec_leaves_tape_fatal {i : Instr} {s s' : State} (h : exec i s = .next s') (hf : s.tape.phase = .fatal)
    (hleft : s'.tape.phase ≠ .fatal) : i = .tpStart ∨ i = .reset := by
  have hframe := unitsShareNothing.1 i s s' h
  cases i
  case tpStart => exact .inl rfl
  case reset => exact .inr rfl
  case tpPulse v =>
    rcases execTpPulse_next v s s' h with ⟨rfl, -⟩ | ⟨rfl, -⟩ | ⟨-, hp⟩ | ⟨-, -, hp, -⟩
    · exact absurd hf hleft
    · exact absurd hf hleft
    · rw [hf] at hp; cases hp
    · exact absurd hf hp
  case tpEnd => rw [exec_tpEnd_of_fatal hf] at h; cases h; exact absurd hf hleft
  all_goals rw [hframe] at hleft; exact absurd hf hleft

/-- FLOPPY leaves FATAL only by FL_CLEAR or RESET: its other commands are refused there, and no command of another unit
writes a FLOPPY register. -/
theorem exec_leaves_floppy_fatal {i : Instr} {s s' : State} (h : exec i s = .next s') (hf : s.floppy.mode = .fatal)
    (hleft : s'.floppy.mode ≠ .fatal) : i = .flClear ∨ i = .reset := by
  have hframe := unitsShareNothing.1 i s s' h
  cases i
  case flClear => exact .inl rfl
  case reset => exact .inr rfl
  case flPush => rw [exec_flPush_of_fatal hf] at h; cases h; exact absurd hf hleft
  case flEst => rw [exec_flEst_of_fatal hf] at h; cases h; exact absurd hf hleft
  case flFind => rw [exec_flFind_of_fatal hf] at h; cases h; exact absurd hf hleft
  case flSetpos => rw [exec_flSetpos_of_fatal hf] at h; cases h; exact absurd hf hleft
  case flRead => rw [exec_flRead_of_fatal hf] at h; cases h; exact absurd hf hleft
  case flHdr => rw [exec_flHdr_of_fatal hf] at h; cases h; exact absurd hf hleft
  case flData => rw [exec_flData_of_fatal hf] at h; cases h; exact absurd hf hleft
  all_goals rw [hframe] at hleft; exact absurd hf hleft

/-- Settles O16: each command's equation in FATAL, with its operand in range. -/
theorem fatalUnitsRefuseUntilRestarted : Obligations.FatalUnitsRefuseUntilRestarted := by
  refine ⟨fun s hf => ⟨fun v hv => exec_tpPulse_of_no_read hv (.inr hf), exec_tpEnd_of_fatal hf⟩, fun s hf => ?_,
    fun i s s' h => ⟨exec_leaves_tape_fatal h, exec_leaves_floppy_fatal h⟩⟩
  refine ⟨fun v hv => ?_, exec_flEst_of_fatal hf, exec_flFind_of_fatal hf, fun p hp => ?_, fun n hlow hhigh => ?_,
    exec_flHdr_of_fatal hf, fun z hz => ?_⟩
  · rw [exec_flPush_of_fatal hf, if_neg hv]
  · rw [exec_flSetpos_of_fatal hf, if_neg hp.not_gt]
  · have hlegal : legalGroups n = true := decide_eq_true ⟨hlow, hhigh⟩
    rw [exec_flRead_of_fatal hf, if_pos hlegal]
  · rw [exec_flData_of_fatal hf, if_neg hz]

end Sys2Proof.Machine
end

section
/-! PROOF. Loading a revolution, the sync estimate and the mark search (42_floppy.md R93 to R100): what the walk and the
search answer, and what FL_CLEAR, FL_PUSH, FL_EST, FL_FIND and FL_SETPOS do with it. -/

namespace Sys2Proof.Machine

/-- A number below the range of a register is the value it holds. -/
theorem toNat_ofNat_of_lt {w n : Nat} (h : n < 2 ^ w) : (BitVec.ofNat w n).toNat = n := by
  rw [BitVec.toNat_ofNat, Nat.mod_eq_of_lt h]

/-! ### Loading and moving FL_POS (R93, R94, R100) -/

theorem exec_flSetpos_of_count_lt {p : BitVec 21} {s : State} (h : s.floppy.count.toNat < p.toNat) :
    exec (.flSetpos p) s = .next (s.refuse .badarg) := by
  rw [exec, execFlSetpos, if_pos h]

theorem exec_flSetpos_of_ready {p : BitVec 21} {s : State} (h : p.toNat ≤ s.floppy.count.toNat)
    (hr : s.floppy.mode = .ready) :
    exec (.flSetpos p) s = .next ({ s with floppy := { s.floppy with pos := p } }.respond .ok 0#32) := by
  rw [exec, execFlSetpos, if_neg h.not_gt, if_neg (by simp [hr])]

/-- Settles O44: FL_CLEAR by its definition, FL_SETPOS by its three answers. -/
theorem clearAndSetpos : Obligations.ClearAndSetpos := by
  refine ⟨decodeInvertsEncode .flClear, fun _ => rfl, fun p s => ?_⟩
  refine ⟨decodeInvertsEncode (.flSetpos p), exec_flSetpos_of_count_lt, fun hp hf => ?_, exec_flSetpos_of_ready⟩
  rw [exec_flSetpos_of_fatal hf, if_neg hp.not_gt]
  rfl

/-- FL_PUSH is out of sequence in FATAL and with FM full (R94). -/
theorem exec_flPush_of_refused {v : BitVec 24} {s : State} (hv : v ≠ 0#24)
    (h : s.floppy.mode = .fatal ∨ s.floppy.count.toNat = s.params.fmDepth) :
    exec (.flPush v) s = .next (s.refuse .seq) := by
  rcases h with hf | hfull
  · rw [exec_flPush_of_fatal hf, if_neg hv]
  · rw [exec, execFlPush, if_neg hv, if_pos hfull, ite_self]

theorem exec_flPush_of_ready {v : BitVec 24} {s : State} (hv : v ≠ 0#24) (hr : s.floppy.mode = .ready)
    (hc : s.floppy.count.toNat < s.params.fmDepth) :
    exec (.flPush v) s = .next ((s.pushFlux v).respond .ok (zext (s.floppy.count + 1#21))) := by
  have hsize : ¬s.size .fm ≤ s.floppy.count.toNat := hc.not_ge
  rw [exec, execFlPush, if_neg hv, if_neg (by simp [hr]), if_neg hc.ne, if_neg hsize]
  rfl

/-- Settles O45: the interval is written at FL_COUNT, and the write leaves every other element. -/
theorem pushAppendsAnInterval : Obligations.PushAppendsAnInterval := by
  intro v s
  refine ⟨decodeInvertsEncode (.flPush v), ?zero, exec_flPush_of_refused, fun hv hr hc => ?append⟩
  case zero => rintro rfl; rfl
  case append =>
    refine ⟨_, exec_flPush_of_ready hv hr hc, rfl, ?_, fun a ha => ?_⟩ <;>
      simp only [State.element, State.respond_fm, State.pushFlux_fm]
    · rw [Memory.read_write_same]; rfl
    · rw [Memory.read_write_other _ _ ha]

/-! ### Sync estimation (R95) -/

/-- The test of R95, as the comparison of the interval with the mean of those before it. -/
theorem deviates_iff {sum k f : Nat} (hk : 0 < k) :
    deviates sum k f = true ↔ 3 * ((sum : ℚ) / k) / 20 < |(f : ℚ) - (sum : ℚ) / k| := by
  have hkq : (0 : ℚ) < k := by exact_mod_cast hk
  have hdiff : (f : ℚ) - sum / k = (k * f - sum) / k := by field_simp
  have hmean : 3 * ((sum : ℚ) / k) / 20 = 3 * sum / 20 / k := by ring
  rw [hdiff, hmean, abs_div, abs_of_pos hkq, div_lt_div_iff_of_pos_right hkq, div_lt_iff₀' (by norm_num), deviates,
    decide_eq_true_iff, ← Nat.cast_lt (α := ℚ)]
  push_cast [Nat.cast_natAbs]
  exact Iff.rfl

theorem deviates_eq_false_iff {sum k f : Nat} (hk : 0 < k) :
    deviates sum k f = false ↔ |(f : ℚ) - (sum : ℚ) / k| ≤ 3 * ((sum : ℚ) / k) / 20 := by
  rw [← not_lt, ← deviates_iff hk, Bool.not_eq_true]

/-- The walk of R95 answers at an interval that deviates, after a part over which it answers nothing. -/
theorem estimate_eq_some_iff {fs : List Nat} {sum k S K : Nat} :
    estimate fs sum k = some (S, K) ↔
      ∃ j, ∃ hj : j < fs.length, K = k + j ∧ S = sum + (fs.take j).sum ∧ 2 ≤ K ∧ deviates S K fs[j] = true ∧
        estimate (fs.take j) sum k = none := by
  induction fs generalizing sum k with
  | nil => simp [estimate]
  | cons f fs ih =>
    by_cases hstop : 2 ≤ k ∧ deviates sum k f = true
    · rw [estimate, if_pos hstop]
      constructor
      · rintro ⟨⟩
        exact ⟨0, Nat.succ_pos _, rfl, rfl, hstop.1, hstop.2, rfl⟩
      · rintro ⟨_ | j, hj, rfl, rfl, -, -, hnone⟩
        · rfl
        · rw [List.take_succ_cons, estimate, if_pos hstop] at hnone
          cases hnone
    · rw [estimate, if_neg hstop, ih]
      constructor
      · rintro ⟨j, hj, hK, hS, h2, hdev, hnone⟩
        refine ⟨j + 1, Nat.succ_lt_succ hj, by omega, ?_, h2, hdev, ?_⟩
        · rw [hS, List.take_succ_cons, List.sum_cons, Nat.add_assoc]
        · rw [List.take_succ_cons, estimate, if_neg hstop, hnone]
      · rintro ⟨_ | j, hj, rfl, rfl, h2, hdev, hnone⟩
        · exact absurd ⟨h2, hdev⟩ hstop
        · rw [List.take_succ_cons, estimate, if_neg hstop] at hnone
          refine ⟨j, Nat.lt_of_succ_lt_succ hj, by omega, ?_, h2, hdev, hnone⟩
          rw [List.take_succ_cons, List.sum_cons, Nat.add_assoc]

/-- The whole walk answers nothing exactly where every interval from the third on is near the mean of those before. -/
theorem estimate_zero_eq_none_iff (fs : List Nat) :
    estimate fs 0 0 = none ↔ ∀ j (h : j < fs.length), 2 ≤ j →
      |(fs[j] : ℚ) - ((fs.take j).sum : ℚ) / j| ≤ 3 * (((fs.take j).sum : ℚ) / j) / 20 := by
  simp only [estimate_eq_none_iff, Nat.zero_add]
  exact forall₃_congr fun j _ h2 => deviates_eq_false_iff (by omega)

/-- Settles O46: the interval it stops at deviates, and the walk over those before it answers nothing. -/
theorem estimateStopsAtFirstDeviation : Obligations.EstimateStopsAtFirstDeviation := by
  refine fun fs => ⟨fun sum k => ?_, estimate_zero_eq_none_iff fs⟩
  simp only [estimate_eq_some_iff, Nat.zero_add]
  constructor
  · rintro ⟨_, hk, rfl, rfl, h2, hdev, hnone⟩
    refine ⟨h2, rfl, ⟨hk, (deviates_iff (by omega)).1 hdev⟩, fun j hj hj2 hjk => ?_⟩
    have hbefore := (estimate_zero_eq_none_iff _).1 hnone j (by rw [List.length_take]; omega) hj2
    rwa [List.getElem_take, List.take_take, Nat.min_eq_left hjk.le] at hbefore
  · rintro ⟨h2, rfl, ⟨hk, hdev⟩, hbefore⟩
    refine ⟨k, hk, rfl, rfl, h2, (deviates_iff (by omega)).2 hdev, (estimate_zero_eq_none_iff _).2 fun j hj hj2 => ?_⟩
    have hjk : j < k := (List.length_take_le k fs).trans_lt' hj
    rw [List.getElem_take, List.take_take, Nat.min_eq_left hjk.le]
    exact hbefore j (by omega) hj2 hjk

/-- The intervals of FM have 24 bits. -/
theorem State.fluxList_le {s : State} {a n f : Nat} (h : f ∈ s.fluxList a n) : f ≤ 16777215 := by
  obtain ⟨k, -, rfl⟩ := List.mem_map.1 h
  exact Nat.le_of_lt_succ (BitVec.isLt _)

/-- The estimate fits FL_SS and FL_SK: fewer than 2^21 intervals of 24 bits. -/
theorem State.estimate_fits {s : State} {sum k : Nat}
    (h : estimate (s.fluxList 0 s.floppy.count.toNat) 0 0 = some (sum, k)) : sum < 2 ^ 64 ∧ k < 2 ^ 21 := by
  obtain ⟨j, hj, rfl, rfl, -⟩ := estimate_eq_some_iff.1 h
  rw [State.fluxList_length] at hj
  have hcount := s.floppy.count.isLt
  have hsum := List.sum_le_card_nsmul ((s.fluxList 0 s.floppy.count.toNat).take j) 16777215
    fun f hf => State.fluxList_le (List.mem_of_mem_take hf)
  rw [List.length_take, State.fluxList_length, smul_eq_mul] at hsum
  omega

section FlEst
variable {s : State} (hr : s.floppy.mode = .ready)
include hr

theorem exec_flEst_of_held (hv : s.floppy.svalid = true) :
    exec .flEst s = .next (s.respond .ok (zext s.floppy.sk)) := by
  rw [exec, execFlEst, if_neg (by simp [hr]), if_pos hv]

theorem exec_flEst_of_estimate_some (hv : s.floppy.svalid = false) (hfm : s.FluxReadable) {sum k : Nat}
    (he : estimate (s.fluxList 0 s.floppy.count.toNat) 0 0 = some (sum, k)) :
    exec .flEst s = .next ({ s with floppy := { s.floppy with
      ss := BitVec.ofNat 64 sum, sk := BitVec.ofNat 21 k, svalid := true } }.respond .ok
        (zext (BitVec.ofNat 21 k))) := by
  have hspan := State.fluxSpan_eq hfm (a := 0) (n := s.floppy.count.toNat) (by omega)
  simp only [exec, execFlEst, hr, hv, hspan, he, reduceCtorEq, if_false, Bool.false_eq_true]

theorem exec_flEst_of_estimate_none (hv : s.floppy.svalid = false) (hfm : s.FluxReadable)
    (he : estimate (s.fluxList 0 s.floppy.count.toNat) 0 0 = none) :
    exec .flEst s = .next (s.failFloppy .calibration) := by
  have hspan := State.fluxSpan_eq hfm (a := 0) (n := s.floppy.count.toNat) (by omega)
  simp only [exec, execFlEst, hr, hv, hspan, he, reduceCtorEq, if_false, Bool.false_eq_true]

end FlEst

/-- Settles O47: the three answers of FL_EST in READY; the estimate fits its registers. -/
theorem flEstCachesTheEstimate : Obligations.FlEstCachesTheEstimate := by
  refine ⟨decodeInvertsEncode .flEst, fun s hr => ⟨exec_flEst_of_held hr, fun hv hfm => ⟨fun sum k he => ?_, ?_⟩⟩⟩
  · obtain ⟨hsum, hk⟩ := State.estimate_fits he
    exact ⟨_, _, toNat_ofNat_of_lt hsum, toNat_ofNat_of_lt hk, exec_flEst_of_estimate_some hr hv hfm he⟩
  · exact exec_flEst_of_estimate_none hr hv hfm

/-! ### Mark search (R98) -/

/-- The answer of a search for the first index that satisfies `p`. -/
def IsFirst (p : Nat → Prop) : Option Nat → Prop
  | some i => p i ∧ ∀ j < i, ¬p j
  | none => ∀ j, ¬p j

theorem IsFirst.eq_some_iff {p : Nat → Prop} {r : Option Nat} (h : IsFirst p r) (i : Nat) :
    r = some i ↔ p i ∧ ∀ j < i, ¬p j := by
  refine ⟨fun hr => by rwa [hr] at h, fun ⟨hi, hleast⟩ => ?_⟩
  cases r with
  | none => exact absurd hi (h i)
  | some k =>
    obtain ⟨hk, hbefore⟩ := h
    exact congrArg some (Nat.le_antisymm (not_lt.1 fun hik => hbefore i hik hi) (not_lt.1 fun hki => hleast k hki hk))

theorem IsFirst.eq_none_iff {p : Nat → Prop} {r : Option Nat} (h : IsFirst p r) : r = none ↔ ∀ j, ¬p j := by
  refine ⟨fun hr => by rwa [hr] at h, fun hnone => ?_⟩
  cases r with
  | none => rfl
  | some k => exact absurd h.1 (hnone k)

/-- A mark ends at FM[i], the intervals from FM[start] on being `fs` (R97, R98). -/
def MarkEndsAt (c : SyncLen) (fs : List Nat) (start i : Nat) : Prop :=
  15 ≤ i ∧ start + 14 ≤ i ∧ ((fs.drop (i - 14 - start)).take 15).map (cls4 c) = markPattern

/-- A window moves on by one symbol as the whole list of symbols does. -/
theorem lastOf_lastOf_append {α : Type} (n : Nat) (l : List α) (x : α) :
    lastOf n (lastOf n l ++ [x]) = lastOf n (l ++ [x]) := by
  have hwindow : lastOf n l ++ [x] = (l ++ [x]).drop (l.length - n) := by
    rw [lastOf, List.drop_append_of_le_length (Nat.sub_le _ _)]
  rw [hwindow, lastOf, lastOf, List.drop_drop, List.length_drop, List.length_append, List.length_singleton]
  congr 1
  omega

/-- The window after `f` holds the pattern exactly where a mark ends at `f`. -/
theorem markEndsAt_iff (c : SyncLen) (seen : List Nat) (f : Nat) (rest : List Nat) (start : Nat) :
    MarkEndsAt c (seen ++ f :: rest) start (start + seen.length) ↔
      lastOf 15 ((seen ++ [f]).map (cls4 c)) = markPattern ∧ 15 ≤ start + seen.length := by
  by_cases hlen : 14 ≤ seen.length
  · have hwindow : ((seen ++ f :: rest).drop (start + seen.length - 14 - start)).take 15 =
        (seen ++ [f]).drop (seen.length - 14) := by
      rw [show start + seen.length - 14 - start = seen.length - 14 by omega,
        List.drop_append_of_le_length (Nat.sub_le _ _), List.drop_append_of_le_length (Nat.sub_le _ _),
        List.take_append, List.take_of_length_le (by rw [List.length_drop]; omega), List.length_drop,
        show 15 - (seen.length - (seen.length - 14)) = 1 by omega]
      rfl
    have hsame : seen.length + 1 - 15 = seen.length - 14 := by omega
    rw [MarkEndsAt, hwindow, lastOf, List.length_map, List.length_append, List.length_singleton, hsame, ← List.map_drop]
    exact ⟨fun ⟨h15, _, hpat⟩ => ⟨hpat, h15⟩, fun ⟨hpat, h15⟩ => ⟨h15, by omega, hpat⟩⟩
  · refine iff_of_false (fun ⟨_, h14, _⟩ => hlen (by omega)) (fun ⟨hpat, _⟩ => hlen ?_)
    have hshort := congrArg List.length hpat
    rw [lastOf, List.length_drop, List.length_map, List.length_append, List.length_singleton] at hshort
    change _ = 15 at hshort
    omega

/-- No mark ends after the last interval. -/
theorem not_markEndsAt_of_le (c : SyncLen) {fs : List Nat} {start i : Nat} (h : start + fs.length ≤ i) :
    ¬MarkEndsAt c fs start i := by
  rintro ⟨-, h14, hpat⟩
  have hshort := congrArg List.length hpat
  rw [List.length_map, List.length_take, List.length_drop] at hshort
  change _ = 15 at hshort
  omega

/-- The search over the rest of the intervals, with the last classes of those seen as its window, answers the first
index at which a mark ends, if none ends at those seen. -/
theorem findMark_isFirst (c : SyncLen) (start : Nat) (seen rest : List Nat)
    (h : ∀ j < start + seen.length, ¬MarkEndsAt c (seen ++ rest) start j) :
    IsFirst (MarkEndsAt c (seen ++ rest) start)
      (findMark c rest (start + seen.length) (lastOf 15 (seen.map (cls4 c)))) := by
  induction rest generalizing seen with
  | nil =>
    intro j
    rcases Nat.lt_or_ge j (start + seen.length) with hj | hj
    · exact h j hj
    · exact not_markEndsAt_of_le c (by rwa [List.append_nil])
  | cons f rest ih =>
    have hmark := markEndsAt_iff c seen f rest start
    rw [List.map_append, List.map_singleton] at hmark
    rw [findMark, lastOf_lastOf_append]
    split
    next hmatch => exact ⟨hmark.2 hmatch, h⟩
    next hnone =>
      have hmove := ih (seen ++ [f])
      rw [List.append_assoc, List.length_append, List.map_append] at hmove
      refine hmove fun j hj => ?_
      rcases Nat.lt_or_eq_of_le (Nat.le_of_lt_succ hj) with hlt | rfl
      · exact h j hlt
      · exact fun hends => hnone (hmark.1 hends)

/-- Settles O48: the search with nothing seen yet. -/
theorem searchFindsFirstMark : Obligations.SearchFindsFirstMark := by
  rintro c fs start _ rfl
  have hfirst : IsFirst (MarkEndsAt c fs start) (findMark c fs start []) := by
    refine findMark_isFirst c start [] fs fun j hj hends => ?_
    have hbelow : j < start := hj
    exact absurd hends.2.1 (by omega)
  have hnot (j : Nat) : ¬MarkEndsAt c fs start j ↔ (15 ≤ j → start + 14 ≤ j →
      ((fs.drop (j - 14 - start)).take 15).map (cls4 c) ≠ markPattern) := by
    rw [MarkEndsAt, not_and, not_and]
  refine ⟨fun i => (hfirst.eq_some_iff i).trans (and_congr Iff.rfl ?_), hfirst.eq_none_iff.trans (forall_congr' hnot)⟩
  exact forall_congr' fun j => (imp_congr_right fun _ => hnot j).trans
    ⟨fun h h15 h14 hj => h hj h15 h14, fun h hj h15 h14 => h h15 h14 hj⟩

theorem exec_flFind_of_refused {s : State} (h : s.floppy.mode = .fatal ∨ s.floppy.svalid = false) :
    exec .flFind s = .next (s.refuse .seq) := by
  rcases h with hf | hv
  · exact exec_flFind_of_fatal hf
  · rw [exec, execFlFind, hv, Bool.not_false, if_pos rfl, ite_self]

theorem exec_flFind_of_ready {s : State} {r : Option Nat} (hr : s.floppy.mode = .ready) (hv : s.floppy.svalid = true)
    (hfm : s.FluxReadable) (hfind : findMark s.cell
      (s.fluxList s.floppy.pos.toNat (s.floppy.count.toNat - s.floppy.pos.toNat)) s.floppy.pos.toNat [] = r) :
    exec .flFind s = .next ({ s with floppy := s.floppy.afterSearch r }.respond .ok
      (if r.isSome then 1#32 else 0#32)) := by
  have hspan := State.fluxSpan_eq hfm (a := s.floppy.pos.toNat)
    (n := s.floppy.count.toNat - s.floppy.pos.toNat) (by omega)
  simp only [exec, execFlFind, hr, hv, hspan, hfind, reduceCtorEq, if_false, Bool.not_true, Bool.false_eq_true]

/-- Settles O49: the registers after a search are those of its answer, and a match lies in FM. -/
theorem flFindSearchesFromPos : Obligations.FlFindSearchesFromPos := by
  refine ⟨decodeInvertsEncode .flFind, fun s => ⟨exec_flFind_of_refused, fun hr hv hfm fs hfs => ?_⟩⟩
  subst hfs
  refine ⟨fun i hi => ?_, exec_flFind_of_ready hr hv hfm⟩
  obtain ⟨-, hlt⟩ := findMark_bounds hi
  rw [State.fluxList_length] at hlt
  have hpos := s.floppy.pos.isLt
  have hcount := s.floppy.count.isLt
  exact ⟨_, _, toNat_ofNat_of_lt (by omega), toNat_ofNat_of_lt (by omega), exec_flFind_of_ready hr hv hfm hi⟩

end Sys2Proof.Machine
end

section
/-! PROOF. The MFM decode loop (42_floppy.md R101 to R103): one pass in terms of q, the loop as its passes, and how it
ends. -/

namespace Sys2Proof.Machine

/-! ### One pass (R102, R103) -/

/-- SAME takes one q from the remainder. -/
theorem rem_sub_q {c : SyncLen} (hsk : 0 < c.sk) (g : Int) :
    ((g - 2 * (c.ss : Int) : Int) : ℚ) / (2 * c.sk) = (g : ℚ) / (2 * c.sk) - c.q := by
  have hskq : (c.sk : ℚ) ≠ 0 := by exact_mod_cast hsk.ne'
  rw [SyncLen.q]
  push_cast
  field_simp

/-- An interval within the bound is fetched (R101). -/
theorem overBound_eq_false_iff {c : SyncLen} (hsk : 0 < c.sk) (hden : 0 < c.den) (f : Nat) :
    overBound c f = false ↔ (f : ℚ) ≤ c.num / c.den * c.q := by
  rw [← not_lt, ← overBound_iff hsk hden, Bool.not_eq_true]

/-! ### The loop as its passes -/

section Passes
variable {c : SyncLen} {count target : Nat} (passes : Nat) {v w : MfmVars} {o : MfmOut}

theorem mfmLoop_of_more (h : mfmPass c count target v = .more w) :
    mfmLoop c count target (passes + 1) v = mfmLoop c count target passes w := by
  rw [mfmLoop, h]

theorem mfmLoop_of_stop (h : mfmPass c count target v = .stop o) :
    mfmLoop c count target (passes + 1) v = some o := by
  rw [mfmLoop, h]

theorem mfmLoop_of_overBound (h : mfmPass c count target v = .overBound) :
    mfmLoop c count target (passes + 1) v = none := by
  rw [mfmLoop, h]

end Passes

theorem mfmDecode_of_overBound {c : SyncLen} {x : Nat} (h : overBound c x = true) (count start n : Nat)
    (rest : List Nat) : mfmDecode c count start n (x :: rest) = none := by
  rw [mfmDecode, mfmFetch_eq_none_iff.2 h]

theorem mfmDecode_of_within {c : SyncLen} {x : Nat} (h : overBound c x = false) (count start n : Nat)
    (rest : List Nat) : mfmDecode c count start n (x :: rest) =
      mfmLoop c count (8 * n + 1) (2 * (rest.length + 1)) ⟨2 * (c.sk * x), start, rest, []⟩ := by
  have hfetch : mfmFetch c x .next = some (2 * ((c.sk : Int) * x)) := by simp [mfmFetch_eq_some_iff, h]
  rw [mfmDecode, hfetch, List.length_cons]

/-! ### Two passes for each interval (log 12) -/

/-- After SAME the remainder is at most 3/4 of q, so the next pass is not SAME again. -/
theorem mfmBranch_sub_ne_same {c : SyncLen} {g : Int} (h : (mfmBranch c g).2 = .same) :
    (mfmBranch c (g - 2 * (c.ss : Int))).2 ≠ .same := by
  have hsame (g : Int) : (mfmBranch c g).2 = .same ↔ 2 * g ≤ 7 * (c.ss : Int) ∧ 2 * (c.ss : Int) < g := by
    unfold mfmBranch
    split_ifs <;> simp <;> omega
  rw [hsame] at h
  rw [Ne, hsame]
  omega

/-- The passes the loop needs at most: two for each interval to come, and one or two for the one at hand. -/
def passesNeeded (c : SyncLen) (v : MfmVars) : Nat :=
  2 * v.rest.length + if (mfmBranch c v.rem).2 = .same then 2 else 1

theorem passesNeeded_pos (c : SyncLen) (v : MfmVars) : 0 < passesNeeded c v := by
  unfold passesNeeded
  split <;> omega

theorem passesNeeded_le (c : SyncLen) (v : MfmVars) : passesNeeded c v ≤ 2 * (v.rest.length + 1) := by
  unfold passesNeeded
  split <;> omega

/-- Each pass brings the end nearer. -/
theorem passesNeeded_of_more {c : SyncLen} {count target : Nat} {v w : MfmVars}
    (h : mfmPass c count target v = .more w) : passesNeeded c w < passesNeeded c v := by
  obtain ⟨emitted, act, hb, ⟨-, hp⟩ | ⟨-, rfl, hp⟩ | ⟨-, -, -, hp⟩ | ⟨-, ha, x, rest, hr, ⟨-, hp⟩ | ⟨g, -, hp⟩⟩⟩ :=
    mfmPass_cases c count target v <;> rw [hp] at h <;> cases h
  · have hsame : (mfmBranch c v.rem).2 = .same := congrArg Prod.snd hb
    simp only [passesNeeded, if_pos hsame, if_neg (mfmBranch_sub_ne_same hsame)]
    omega
  · have hnext : (mfmBranch c v.rem).2 ≠ .same := by rwa [hb]
    have hrest := passesNeeded_le c ⟨g, v.idx + 1, rest, emitted.reverse ++ v.rsyms⟩
    rw [passesNeeded.eq_def c v, if_neg hnext, hr, List.length_cons]
    exact Nat.lt_succ_of_le hrest

/-- The loop ends by itself: passes beyond those needed are not run. -/
theorem mfmLoop_add (c : SyncLen) (count target extra : Nat) {passes : Nat} {v : MfmVars}
    (h : passesNeeded c v ≤ passes) :
    mfmLoop c count target (passes + extra) v = mfmLoop c count target passes v := by
  induction passes generalizing v with
  | zero => exact absurd (passesNeeded_pos c v) h.not_gt
  | succ passes ih =>
    rw [Nat.add_right_comm]
    cases hp : mfmPass c count target v with
    | stop o => rw [mfmLoop_of_stop _ hp, mfmLoop_of_stop _ hp]
    | overBound => rw [mfmLoop_of_overBound _ hp, mfmLoop_of_overBound _ hp]
    | more w =>
      rw [mfmLoop_of_more _ hp, mfmLoop_of_more _ hp]
      exact ih (Nat.le_of_lt_succ ((passesNeeded_of_more hp).trans_le h))

/-! ### How a decode ends (R103) -/

/-- A loop from the interval `start` on ends at the target, past its first interval, or out of flux below it. -/
structure MfmOut.Ends (o : MfmOut) (target start count : Nat) : Prop where
  full : o.eot = false → o.syms.length = target ∧ start < o.pos ∧ o.pos ≤ count
  short : o.eot = true → o.syms.length < target ∧ o.pos = count

theorem mfmLoop_ends {c : SyncLen} {count target : Nat} (passes : Nat) {v : MfmVars} {o : MfmOut}
    (hsyms : v.rsyms.length < target) (hidx : v.idx + 1 + v.rest.length = count)
    (h : mfmLoop c count target passes v = some o) : o.Ends target v.idx count := by
  induction passes generalizing v with
  | zero => cases h; exact ⟨nofun, fun _ => ⟨by simpa using hsyms, rfl⟩⟩
  | succ passes ih =>
    obtain ⟨emitted, act, -, ⟨ht, hp⟩ | ⟨ht, -, hp⟩ | ⟨ht, -, -, hp⟩ | ⟨ht, -, x, rest, hr, ⟨-, hp⟩ | ⟨g, -, hp⟩⟩⟩ :=
      mfmPass_cases c count target v
    · rw [mfmLoop_of_stop _ hp] at h
      cases h
      refine ⟨fun _ => ⟨?_, Nat.lt_succ_self _, by dsimp only; omega⟩, nofun⟩
      rw [List.length_take, List.length_append, List.length_reverse]
      omega
    · rw [mfmLoop_of_more _ hp] at h
      exact (ih (by simpa using ht) (by exact hidx) h :)
    · rw [mfmLoop_of_stop _ hp] at h
      cases h
      exact ⟨nofun, fun _ => ⟨by simpa [Nat.add_comm] using ht, rfl⟩⟩
    · rw [mfmLoop_of_overBound _ hp] at h
      cases h
    · rw [mfmLoop_of_more _ hp] at h
      rw [hr, List.length_cons] at hidx
      obtain ⟨hfull, hshort⟩ := ih (by simpa using ht) (by dsimp only; omega) h
      refine ⟨fun he => ?_, hshort⟩
      obtain ⟨hlen, hstart, hcount⟩ := hfull he
      exact ⟨hlen, Nat.lt_of_succ_lt hstart, hcount⟩

/-- A decode of `n` groups ends with 8·n + 1 symbols, or out of flux with fewer. -/
theorem mfmDecode_ends {c : SyncLen} {count start n : Nat} {fs : List Nat} {o : MfmOut}
    (hfs : fs.length = count - start) (h : mfmDecode c count start n fs = some o) : o.Ends (8 * n + 1) start count := by
  cases fs with
  | nil => cases h; exact ⟨nofun, fun _ => ⟨Nat.succ_pos _, rfl⟩⟩
  | cons x rest =>
    rw [List.length_cons] at hfs
    cases hx : overBound c x
    · rw [mfmDecode_of_within hx] at h
      exact mfmLoop_ends _ (Nat.succ_pos _) (by dsimp only; omega) h
    · rw [mfmDecode_of_overBound hx] at h
      cases h

/-- Settles O51: a pass by its cases, with the remainder and the bound in terms of q; the loop by its passes. -/
theorem decodeLoopRunsAndEnds : Obligations.DecodeLoopRunsAndEnds := by
  refine ⟨?pass, fun c count target passes v w o => ⟨mfmLoop_of_more _, mfmLoop_of_stop _, mfmLoop_of_overBound _⟩,
    fun c count start n => ⟨rfl, fun x rest => ⟨fun h => mfmDecode_of_overBound h _ _ _ _,
      fun h => mfmDecode_of_within h _ _ _ _⟩⟩,
    fun c count target extra v => mfmLoop_add c count target extra (passesNeeded_le c v), ?ends, ?within⟩
  case pass =>
    intro c count target v q f emitted syms act hsk hden hq hf hact hsyms
    obtain rfl : q = c.q := hq
    subst hsyms
    obtain ⟨emitted', act', hb, hcases⟩ := mfmPass_cases c count target v
    rw [mfmBranch_eq hsk hf, ← hact] at hb
    cases hb
    have hlen : (v.rsyms.reverse ++ emitted).length = emitted.length + v.rsyms.length := by simp [Nat.add_comm]
    have hrev : (emitted.reverse ++ v.rsyms).reverse = v.rsyms.reverse ++ emitted := by simp
    rw [hlen]
    rcases hcases with ⟨ht, hp⟩ | ⟨ht, ha, hp⟩ | ⟨ht, ha, hr, hp⟩ | ⟨ht, ha, x, rest, hr, ⟨hx, hp⟩ | ⟨g, hx, hp⟩⟩
    · exact ⟨fun _ => hp, fun hlt => absurd ht hlt.not_ge⟩
    · refine ⟨fun hle => absurd ht hle.not_gt, fun _ => ⟨fun _ => ⟨_, hp, ?_, rfl, rfl, hrev⟩, fun hne => absurd ha hne,
        fun hne => absurd ha hne⟩⟩
      rw [hf]
      exact rem_sub_q hsk v.rem
    · refine ⟨fun hle => absurd ht hle.not_gt, fun _ => ⟨fun h => absurd h ha, fun _ _ => hp, fun _ x rest hr' => ?_⟩⟩
      cases hr.symm.trans hr'
    all_goals
      refine ⟨fun hle => absurd ht hle.not_gt, fun _ => ⟨fun h => absurd h ha, fun _ hr' => ?_,
        fun _ x' rest' hr' => ?_⟩⟩
      · cases hr.symm.trans hr'
      cases hr.symm.trans hr'
    · have hover := (overBound_iff hsk hden x).1 (mfmFetch_eq_none_iff.1 hx)
      exact ⟨fun _ => hp, fun hle => absurd hover hle.not_gt⟩
    · have hle := (overBound_eq_false_iff hsk hden x).1 (mfmFetch_eq_some_iff.1 hx).1
      exact ⟨fun hover => absurd hover hle.not_gt, fun _ => ⟨_, hp, rem_of_mfmFetch hsk hx, rfl, rfl, hrev⟩⟩
  case ends =>
    intro c start n fs o h
    obtain ⟨hfull, hshort⟩ := mfmDecode_ends (Nat.add_sub_cancel_left start fs.length).symm h
    exact ⟨hfull, hshort⟩
  case within =>
    intro c count start n fs hfs
    refine Option.ne_none_iff_exists'.1 fun hnone => ?_
    obtain ⟨f, hmem, hover⟩ := mfmDecode_none hnone
    rw [hfs f hmem] at hover
    cases hover

end Sys2Proof.Machine
end

section
/-! PROOF. The decode commands FL_READ, FL_HDR and FL_DATA (42_floppy.md R105 to R109): their gate, the field they
decode, and the checks of a header and of a data field. -/

namespace Sys2Proof.Machine

/-! ### The three answers of a decode (R91, R101) -/

/-- A decode is out of sequence where one part of its gate is missing. -/
theorem State.runDecode_of_closed {s : State}
    (h : s.floppy.mode = .fatal ∨ s.floppy.svalid = false ∨ s.floppy.mfound = false) (n : Nat)
    (finish : MfmOut → FloppyRegs → FloppyRegs) : s.runDecode n finish = .next (s.refuse .seq) := by
  have hgate : s.floppy.mayDecode = false := by
    rw [Bool.eq_false_iff, Ne, FloppyRegs.mayDecode_iff]
    rintro ⟨hr, hv, hm⟩
    simp [hr, hv, hm] at h
  rw [State.runDecode, hgate, Bool.not_false, if_pos rfl]

/-- The state after a decode that did not fail, with the registers the command writes. -/
def State.decoded (s : State) (o : MfmOut) (finish : MfmOut → FloppyRegs → FloppyRegs) : State :=
  { s.writeField o with floppy := finish o (s.writeField o).floppy }.respond .ok
    (zext (finish o (s.writeField o).floppy).fstat)

@[simp] theorem State.decoded_floppy (s : State) (o : MfmOut) (finish : MfmOut → FloppyRegs → FloppyRegs) :
    (s.decoded o finish).floppy = finish o (s.writeField o).floppy := rfl

/-- What a command writes after its decode leaves FL_FBLEN, FL_NSYM and FL_POS as decoded. -/
def KeepsCounts (finish : MfmOut → FloppyRegs → FloppyRegs) : Prop :=
  ∀ o f, (finish o f).fblen = f.fblen ∧ (finish o f).nsym = f.nsym ∧ (finish o f).pos = f.pos

theorem keepsCounts_finishRead : KeepsCounts finishRead := fun _ _ => ⟨rfl, rfl, rfl⟩

theorem keepsCounts_finishHeader : KeepsCounts finishHeader := fun o f => by
  unfold finishHeader
  split <;> exact ⟨rfl, rfl, rfl⟩

theorem keepsCounts_finishData (size : Nat) : KeepsCounts (finishData size) := fun o f => by
  unfold finishData
  split <;> exact ⟨rfl, rfl, rfl⟩

section Gate
variable {s : State} (hr : s.floppy.mode = .ready) (hv : s.floppy.svalid = true) (hm : s.floppy.mfound = true)
  (hfm : s.FluxReadable) {n : Nat} (finish : MfmOut → FloppyRegs → FloppyRegs)
include hr hv hm hfm

theorem State.runDecode_of_none
    (hd : mfmDecode s.cell s.floppy.count.toNat s.floppy.mpos.toNat n s.markedFlux = none) :
    s.runDecode n finish = .next (s.failFloppy .bitTiming) := by
  rw [State.runDecode, s.floppy.mayDecode_iff.2 ⟨hr, hv, hm⟩, Bool.not_true, if_neg Bool.false_ne_true,
    State.decodeField_eq hfm, hd]
  rfl

theorem State.runDecode_of_some {o : MfmOut}
    (hd : mfmDecode s.cell s.floppy.count.toNat s.floppy.mpos.toNat n s.markedFlux = some o) :
    s.runDecode n finish = .next (s.decoded o finish) := by
  rw [State.runDecode, s.floppy.mayDecode_iff.2 ⟨hr, hv, hm⟩, Bool.not_true, if_neg Bool.false_ne_true,
    State.decodeField_eq hfm, hd]
  rfl

end Gate

/-! ### The field decoded (R102 to R104) -/

section Decoded
variable {s : State} {n : Nat} {o : MfmOut}
  (hd : mfmDecode s.cell s.floppy.count.toNat s.floppy.mpos.toNat n s.markedFlux = some o)
include hd

theorem State.decode_ends : o.Ends (8 * n + 1) s.floppy.mpos.toNat s.floppy.count.toNat :=
  mfmDecode_ends (State.fluxList_length _ _ _) hd

/-- A field that did not run out of flux has all its groups. -/
theorem State.decode_whole (he : o.eot = false) : o.syms.length = 8 * n + 1 ∧ (assemble o.syms).length = n := by
  have hlen := ((State.decode_ends hd).full he).1
  rw [assemble_length]
  omega

/-- FL_FBLEN, FL_NSYM and FL_POS hold what a decode of up to 1030 groups computes. -/
theorem State.decoded_counts (hn : n ≤ 1030) {finish : MfmOut → FloppyRegs → FloppyRegs} (hk : KeepsCounts finish) :
    (s.decoded o finish).floppy.fblen.toNat = (assemble o.syms).length ∧
      (s.decoded o finish).floppy.nsym.toNat = o.syms.length ∧ (s.decoded o finish).floppy.pos.toNat = o.pos := by
  obtain ⟨hsyms, hpos⟩ := mfmDecode_bounds (State.fluxList_length _ _ _) hd
  obtain ⟨hfblen, hnsym, hpos'⟩ := hk o (s.writeField o).floppy
  have hlen := assemble_length o.syms
  have hcount := s.floppy.count.isLt
  rw [State.decoded_floppy, hfblen, hnsym, hpos']
  exact ⟨toNat_ofNat_of_lt (by omega), toNat_ofNat_of_lt (by omega), toNat_ofNat_of_lt (by omega)⟩

end Decoded

/-- FB and FOM hold the groups of the field. -/
theorem State.decoded_group (s : State) (o : MfmOut) (finish : MfmOut → FloppyRegs → FloppyRegs) (j : Nat)
    (hj : j < (assemble o.syms).length) :
    Memory.read (s.decoded o finish).fb j = some (assemble o.syms)[j].value ∧
      Memory.read (s.decoded o finish).fom j = some (assemble o.syms)[j].mask := by
  have hfb := Memory.read_writeSpan_same s.fb 0 ((assemble o.syms).map MfmGroup.value) (k := j) (by simpa using hj)
  have hfom := Memory.read_writeSpan_same s.fom 0 ((assemble o.syms).map MfmGroup.mask) (k := j) (by simpa using hj)
  rw [Nat.zero_add, List.getElem_map] at hfb hfom
  exact ⟨hfb, hfom⟩

theorem valueAt_of_lt {gs : List MfmGroup} {j : Nat} (h : j < gs.length) : valueAt gs j = gs[j].value := by
  rw [valueAt, List.getD_eq_getElem _ _ h]

theorem maskAt_of_lt {gs : List MfmGroup} {j : Nat} (h : j < gs.length) : maskAt gs j = gs[j].mask := by
  rw [maskAt, List.getD_eq_getElem _ _ h]

/-- The groups that the checks name are the elements of FB and FOM (log 15). -/
theorem State.decoded_valueAt (s : State) (o : MfmOut) (finish : MfmOut → FloppyRegs → FloppyRegs) (j : Nat)
    (hj : j < (assemble o.syms).length) :
    Memory.read (s.decoded o finish).fb j = some (valueAt (assemble o.syms) j) ∧
      Memory.read (s.decoded o finish).fom j = some (maskAt (assemble o.syms) j) := by
  rw [valueAt_of_lt hj, maskAt_of_lt hj]
  exact s.decoded_group o finish j hj

/-! ### The checks of a field (R105, R107, R109) -/

theorem markOk_iff (gs : List MfmGroup) (m : BitVec 8) :
    markOk gs m = true ↔
      (∀ j < 3, valueAt gs j = 0xA1#8 ∧ maskAt gs j = 0x04#8) ∧ valueAt gs 3 = m ∧ maskAt gs 3 = 0x00#8 := by
  have hthree (p : Nat → Prop) : (∀ j < 3, p j) ↔ p 0 ∧ p 1 ∧ p 2 :=
    ⟨fun h => ⟨h 0 (by decide), h 1 (by decide), h 2 (by decide)⟩,
      fun ⟨h0, h1, h2⟩ j hj => by interval_cases j <;> assumption⟩
  simp only [markOk, addressMark, hthree, Bool.and_eq_true, beq_iff_eq, and_assoc]

theorem symErr_iff (gs : List MfmGroup) :
    symErr gs = true ↔ ∃ j, 4 ≤ j ∧ j < gs.length ∧ maskAt gs j ≠ 0#8 := by
  rw [symErr, List.any_eq_true]
  constructor
  · rintro ⟨g, hg, hmask⟩
    obtain ⟨k, hk, rfl⟩ := List.mem_iff_getElem.1 hg
    rw [List.length_drop] at hk
    rw [List.getElem_drop] at hmask
    refine ⟨4 + k, Nat.le_add_right 4 k, by omega, ?_⟩
    rw [maskAt_of_lt (by omega)]
    exact bne_iff_ne.1 hmask
  · rintro ⟨j, h4, hj, hmask⟩
    obtain ⟨k, rfl⟩ := Nat.exists_eq_add_of_le h4
    rw [maskAt_of_lt hj] at hmask
    have hk : k < (gs.drop 4).length := by rw [List.length_drop]; omega
    exact ⟨(gs.drop 4)[k], List.getElem_mem hk, by rw [List.getElem_drop]; exact bne_iff_ne.2 hmask⟩

theorem valuesOf_eq {gs : List MfmGroup} {a n : Nat} (h : a + n ≤ gs.length) :
    valuesOf gs a n = (List.range n).map fun k => valueAt gs (a + k) := by
  refine List.ext_getElem (by simp [valuesOf]; omega) fun k hk _ => ?_
  have hk' : a + k < gs.length := by simp [valuesOf] at hk; omega
  simp [valuesOf, valueAt_of_lt hk']

/-- FL_CRC_READ of a field with a payload of `n` bytes, low byte first (20_memory.md R41). -/
theorem storedCrc_four_add (gs : List MfmGroup) (n : Nat) :
    storedCrc gs (4 + n) = valueAt gs (5 + n) ++ valueAt gs (4 + n) := by
  rw [storedCrc, Nat.add_right_comm]

/-- FL_CRC_CALC of a field of which every group is there (43_checksum.md R114). -/
theorem fieldCrc_eq {gs : List MfmGroup} {n : Nat} (h : 4 + n ≤ gs.length) (m : BitVec 8) :
    fieldCrc gs m n = crcSeq 0xFFFF#16
      ([0xA1#8, 0xA1#8, 0xA1#8, m] ++ (List.range n).map fun k => valueAt gs (4 + k)) := by
  rw [fieldCrc, valuesOf_eq h]
  rfl

/-- CRC_OK compares the stored CRC with the computed one. -/
theorem exists_crcOk (stored computed : BitVec 16) :
    ∃ ck, (stored == computed) = ck ∧ (ck = true ↔ stored = computed) :=
  ⟨_, rfl, beq_iff_eq⟩

/-- FL_FSTAT of a whole field, bit by bit (10_state.md R26). -/
theorem fstatField_eq {kind : BitVec 2} {k : Nat} (hk : 64 * kind.toNat = k) (mk se ck : Bool) :
    fstatField kind mk se ck = BitVec.ofNat 8 (1 + 4 * mk.toNat + 8 * se.toNat + 16 * ck.toNat +
      32 * (mk && !se && ck).toNat + k) := by
  subst hk
  revert kind mk se ck
  decide

theorem fstatValid_fstatField (kind : BitVec 2) (mk se ck : Bool) :
    fstatValid (fstatField kind mk se ck) = (mk && !se && ck) := by
  revert kind mk se ck
  decide

theorem fstatRaw_eq (eot : Bool) : fstatRaw eot = if eot then 0x03#8 else 0x01#8 := by
  cases eot <;> rfl

/-! ### FL_READ (R106) -/

theorem legalGroups_iff (n : BitVec 11) : legalGroups n = true ↔ 1 ≤ n.toNat ∧ n.toNat ≤ 1030 := decide_eq_true_iff

theorem exec_flRead_of_illegal {n : BitVec 11} {s : State} (h : n.toNat = 0 ∨ 1030 < n.toNat) :
    exec (.flRead n) s = .next (s.refuse .badarg) := by
  have hillegal : legalGroups n = false := by
    rw [Bool.eq_false_iff, Ne, legalGroups_iff]
    omega
  rw [exec, execFlRead, hillegal, Bool.not_false, if_pos rfl]

theorem exec_flRead_of_legal {n : BitVec 11} {s : State} (h1 : 1 ≤ n.toNat) (h2 : n.toNat ≤ 1030) :
    exec (.flRead n) s = s.runDecode n.toNat finishRead := by
  rw [exec, execFlRead, (legalGroups_iff n).2 ⟨h1, h2⟩, Bool.not_true, if_neg Bool.false_ne_true]

/-- Settles O53: the three answers of the decode, and FL_FSTAT of a raw field. -/
theorem flReadDecodesGroups : Obligations.FlReadDecodesGroups := by
  intro n s
  refine ⟨decodeInvertsEncode (.flRead n), exec_flRead_of_illegal, fun h1 h2 => ?_⟩
  rw [exec_flRead_of_legal h1 h2]
  refine ⟨fun h => State.runDecode_of_closed h _ _, fun hr hv hm hfm => ⟨State.runDecode_of_none hr hv hm hfm _,
    fun o hd => ⟨_, State.runDecode_of_some hr hv hm hfm _ hd, ?_⟩⟩⟩
  obtain ⟨hfblen, hnsym, hpos⟩ := State.decoded_counts hd h2 keepsCounts_finishRead
  exact ⟨hfblen, hnsym, hpos, fstatRaw_eq o.eot, rfl, rfl, s.decoded_group o finishRead⟩

/-! ### FL_HDR (R107) -/

/-- Out of flux FL_HDR writes only FL_FSTAT: KIND 1, EOT and DONE. -/
theorem finishHeader_of_eot {o : MfmOut} (he : o.eot = true) (f : FloppyRegs) :
    finishHeader o f = { f with fstat := 0x43#8 } := by
  rw [finishHeader, if_pos he]
  rfl

/-- The registers of a whole header, with its three checks. -/
theorem finishHeader_of_whole {o : MfmOut} (he : o.eot = false) {gs : List MfmGroup} (hgs : assemble o.syms = gs)
    {ck : Bool} (hck : (storedCrc gs 8 == fieldCrc gs 0xFE#8 4) = ck) (f : FloppyRegs) :
    finishHeader o f = { f with
      track := valueAt gs 4, side := valueAt gs 5, sector := valueAt gs 6, size := valueAt gs 7
      crcRead := storedCrc gs 8, crcCalc := fieldCrc gs 0xFE#8 4
      fstat := fstatField 1#2 (markOk gs 0xFE#8) (symErr gs) ck } := by
  rw [finishHeader, he, if_neg Bool.false_ne_true, hgs, fieldStatus, hck]

/-- Settles O54: out of flux only FL_FSTAT is written; else the checks read FB and FOM through the groups decoded. -/
theorem flHdrDecodesAHeader : Obligations.FlHdrDecodesAHeader := by
  refine ⟨decodeInvertsEncode .flHdr, fun s => ⟨fun h => State.runDecode_of_closed h _ _,
    fun hr hv hm hfm => ⟨State.runDecode_of_none hr hv hm hfm _,
      fun o hd => ⟨_, State.runDecode_of_some hr hv hm hfm _ hd, ?_⟩⟩⟩⟩
  obtain ⟨hfblen, hnsym, hpos⟩ := State.decoded_counts hd (by decide) keepsCounts_finishHeader
  refine ⟨hfblen, hnsym, hpos, rfl, s.decoded_group o finishHeader, fun he => ?eot, fun he => ?whole⟩
  case eot =>
    rw [State.decoded_floppy, finishHeader_of_eot he]
    rfl
  case whole =>
    obtain ⟨hsyms, hlen⟩ := State.decode_whole hd he
    have hgroups := s.decoded_valueAt o finishHeader
    generalize hgs : assemble o.syms = gs at hlen hgroups
    obtain ⟨ck, hck, hagree⟩ := exists_crcOk (storedCrc gs 8) (fieldCrc gs 0xFE#8 4)
    rw [State.decoded_floppy, State.writeField_floppy, finishHeader_of_whole he hgs hck, hgs, hsyms, hlen]
    rw [hlen] at hgroups
    refine ⟨valueAt gs, maskAt gs, hgroups, ?_, markOk gs 0xFE#8, symErr gs, ck, markOk_iff gs _, ?_,
      by dsimp only; exact hagree, fstatField_eq rfl _ _ _⟩
    · rw [fieldCrc_eq (by omega)]
      rfl
    · rw [symErr_iff, hlen]

/-! ### FL_DATA (R109) -/

/-- Out of flux FL_DATA writes FL_FSTAT, KIND 2, EOT and DONE, and clears FL_DLEN. -/
theorem finishData_of_eot {o : MfmOut} (he : o.eot = true) (size : Nat) (f : FloppyRegs) :
    finishData size o f = { f with fstat := 0x83#8, dlen := 0#11 } := by
  rw [finishData, if_pos he]
  rfl

/-- The registers of a whole data field, with its three checks. -/
theorem finishData_of_whole {o : MfmOut} (he : o.eot = false) {gs : List MfmGroup} (hgs : assemble o.syms = gs)
    (size : Nat) {ck : Bool} (hck : (storedCrc gs (4 + size) == fieldCrc gs 0xFB#8 size) = ck) (f : FloppyRegs) :
    finishData size o f = { f with
      crcRead := storedCrc gs (4 + size), crcCalc := fieldCrc gs 0xFB#8 size
      dlen := if markOk gs 0xFB#8 && !symErr gs && ck then BitVec.ofNat 11 size else 0#11
      fstat := fstatField 2#2 (markOk gs 0xFB#8) (symErr gs) ck } := by
  rw [finishData, he, if_neg Bool.false_ne_true, hgs, fieldStatus, hck, fstatValid_fstatField]

theorem exec_flData_of_ne_zero {z : BitVec 2} {s : State} (hz : z ≠ 0#2) :
    exec (.flData z) s = s.runDecode (payloadSize z + 6) (finishData (payloadSize z)) := by
  rw [exec, execFlData, if_neg hz]

/-- The size codes of R109. -/
theorem payloadSize_eq {z : BitVec 2} {size : Nat} (h : (z.toNat, size) ∈ [(1, 256), (2, 512), (3, 1024)]) :
    z ≠ 0#2 ∧ payloadSize z = size ∧ size ≤ 1024 := by
  simp only [List.mem_cons, Prod.mk.injEq, List.not_mem_nil, or_false] at h
  rcases h with ⟨hz, rfl⟩ | ⟨hz, rfl⟩ | ⟨hz, rfl⟩ <;> rw [payloadSize, hz] <;>
    exact ⟨(by rintro rfl; cases hz), rfl, by decide⟩

/-- Settles O55: as FL_HDR, with a payload of the size code's length, and FL_DLEN by the three checks. -/
theorem flDataDecodesADataField : Obligations.FlDataDecodesADataField := by
  intro z s
  refine ⟨decodeInvertsEncode (.flData z), by rintro rfl; rfl, fun size hsize => ?_⟩
  obtain ⟨hz, rfl, hle⟩ := payloadSize_eq hsize
  rw [exec_flData_of_ne_zero hz]
  generalize payloadSize z = size at hle
  refine ⟨fun h => State.runDecode_of_closed h _ _, fun hr hv hm hfm => ⟨State.runDecode_of_none hr hv hm hfm _,
    fun o hd => ⟨_, State.runDecode_of_some hr hv hm hfm _ hd, ?_⟩⟩⟩
  obtain ⟨hfblen, hnsym, hpos⟩ := State.decoded_counts hd (by omega) (keepsCounts_finishData size)
  refine ⟨hfblen, hnsym, hpos, rfl, s.decoded_group o (finishData size), fun he => ?eot, fun he => ?whole⟩
  case eot =>
    rw [State.decoded_floppy, finishData_of_eot he]
    rfl
  case whole =>
    obtain ⟨-, hlen⟩ := State.decode_whole hd he
    have hgroups := s.decoded_valueAt o (finishData size)
    generalize hgs : assemble o.syms = gs at hlen hgroups
    obtain ⟨ck, hck, hagree⟩ := exists_crcOk (storedCrc gs (4 + size)) (fieldCrc gs 0xFB#8 size)
    rw [State.decoded_floppy, State.writeField_floppy, finishData_of_whole he hgs size hck]
    rw [hlen] at hgroups
    refine ⟨valueAt gs, maskAt gs, hgroups, markOk gs 0xFB#8, symErr gs, ck, markOk_iff gs _, ?_,
      by dsimp only; exact hagree, ?_⟩
    · rw [symErr_iff, hlen]
    · rw [storedCrc_four_add, fieldCrc_eq (by omega), fstatField_eq rfl]
      rfl

end Sys2Proof.Machine
end

section
/-! PROOF. The CRC (43_checksum.md R112 to R119): a CRC step loses nothing of the register or of the byte, so two
sequences that differ in one byte keep different CRCs; and the CRC commands run the fold. -/

namespace Sys2Proof.Machine

/-! ### The shift steps (R112) -/

/-- A sequence of values, each the shift step of the one before, runs from any start to its shifts. -/
theorem crcShifts_eq_of_steps {n : Nat} {x : Nat → BitVec 16} (h : ∀ k < n, x (k + 1) = crcShift (x k)) :
    crcShifts n (x 0) = x n := by
  induction n generalizing x with
  | zero => rfl
  | succ n ih =>
    calc crcShifts n (crcShift (x 0)) = crcShifts n (x 1) := by rw [h 0 n.succ_pos]
      _ = x (n + 1) := ih (x := fun k => x (k + 1)) fun k hk => h (k + 1) (Nat.succ_lt_succ hk)

/-! ### A changed byte changes the CRC (R115) -/

/-- The byte that a CRC step brings in stands whole in the high half of the register. -/
theorem setWidth_shiftLeft_injective {a b : BitVec 8}
    (h : a.setWidth 16 <<< 8 = b.setWidth 16 <<< 8) : a = b := by
  apply BitVec.eq_of_getLsbD_eq
  intro i hi
  have hbit := congrArg (fun v : BitVec 16 => v.getLsbD (i + 8)) h
  have hin : i < 16 ∧ i + 8 < 16 := by omega
  simpa [hin] using hbit

theorem crcByte_left_injective {c d : BitVec 16} {b : BitVec 8} (h : crcByte c b = crcByte d b) : c = d :=
  (BitVec.xor_left_inj _).1 (crcShifts_injective 8 h)

theorem crcByte_right_injective {c : BitVec 16} {a b : BitVec 8} (h : crcByte c a = crcByte c b) : a = b :=
  setWidth_shiftLeft_injective ((BitVec.xor_right_inj _).1 (crcShifts_injective 8 h))

theorem crcSeq_left_injective {c d : BitVec 16} (bs : List (BitVec 8)) (h : crcSeq c bs = crcSeq d bs) : c = d := by
  induction bs generalizing c d with
  | nil => exact h
  | cons b bs ih => exact crcByte_left_injective (ih h)

/-- Two sequences that agree but in one byte agree in that byte too if they share a CRC. -/
theorem crcSeq_byte_injective {c : BitVec 16} {before after : List (BitVec 8)} {a b : BitVec 8}
    (h : crcSeq c (before ++ a :: after) = crcSeq c (before ++ b :: after)) : a = b := by
  rw [crcSeq_append, crcSeq_append] at h
  exact crcByte_right_injective (crcSeq_left_injective after h)

theorem xor_twoPow_ne_self {w k : Nat} (b : BitVec w) (hk : k < w) : b ^^^ BitVec.twoPow w k ≠ b := by
  intro h
  have hbit := congrArg (fun v => v.getLsbD k) h
  simp [hk] at hbit

/-- Settles O57: a shared CRC would make the byte equal to itself with a bit flipped. -/
theorem crcDetectsSingleBitErrors : Obligations.CrcDetectsSingleBitErrors := by
  intro c before after b k hk h
  exact xor_twoPow_ne_self b hk (crcSeq_byte_injective h).symm

/-! ### The CRC commands (R116 to R119) -/

theorem exec_crcInit (s : State) : exec .crcInit s = .next (s.setCrc 0xFFFF#16) := rfl

theorem exec_crcByte (b : BitVec 8) (s : State) : exec (.crcByte b) s = .next (s.setCrc (crcByte s.crc b)) := rfl

theorem exec_crcMark (m : BitVec 8) (s : State) :
    exec (.crcMark m) s = .next (s.setCrc (crcSeq 0xFFFF#16 (markPrefix m))) := rfl

/-- The response of a comparison is 1 where the register and the operand are equal. -/
theorem State.answerBool_beq (s : State) (v w : BitVec 16) :
    s.answerBool (v == w) = { s with resp := some ⟨.ok, if v = w then 1#32 else 0#32⟩ } := by
  simp only [State.answerBool, State.respond, beq_iff_eq]

/-- Settles O56: the shift steps by induction, the commands by their equations. -/
theorem crcCommandsUpdateCrc : Obligations.CrcCommandsUpdateCrc := by
  refine ⟨fun c b x hstart hstep => ?_, crcSeq_nil, crcSeq_cons, decodeInvertsEncode .crcInit, exec_crcInit,
    fun b s => ⟨decodeInvertsEncode (.crcByte b), exec_crcByte b s⟩,
    fun m s => ⟨decodeInvertsEncode (.crcMark m), exec_crcMark m s⟩,
    fun w s => ⟨decodeInvertsEncode (.crcCheck w), congrArg Host.Outcome.next (s.answerBool_beq s.crc w)⟩⟩
  rw [crcByte, ← hstart]
  exact crcShifts_eq_of_steps hstep

/-! ### Bytes folded in by commands (R113, R114) -/

/-- Loading the register twice leaves the second value and its response. -/
theorem State.setCrc_setCrc (s : State) (c d : BitVec 16) : (s.setCrc c).setCrc d = s.setCrc d := rfl

theorem State.setCrc_frame (s : State) (c : BitVec 16) :
    s.setCrc c = { s with crc := (s.setCrc c).crc, resp := (s.setCrc c).resp } := rfl

/-- One CRC_BYTE for each byte of `data` runs to the CRC of `data` from where the register stood. -/
theorem execList_crcByte (s : State) (c : BitVec 16) (data : List (BitVec 8)) :
    execList (data.map .crcByte) (s.setCrc c) = .next (s.setCrc (crcSeq c data)) := by
  induction data generalizing c with
  | nil => rfl
  | cons b data ih =>
    rw [List.map_cons, execList, exec_crcByte, State.setCrc_crc, State.setCrc_setCrc]
    exact ih (crcByte c b)

/-- Settles O58: CRC_INIT and CRC_MARK each load the register, and the CRC_BYTE commands after it are the fold. -/
theorem crcMarkIsThePrefix : Obligations.CrcMarkIsThePrefix := by
  refine ⟨fun m s => ?_, fun m data s => ⟨s.setCrc (crcSeq 0xFFFF#16 (markPrefix m ++ data)), ?_,
    s.setCrc_crc _, s.setCrc_frame _⟩⟩
  · rw [execList, exec_crcInit, exec_crcMark]
    exact execList_crcByte s 0xFFFF#16 (markPrefix m)
  · rw [execList, exec_crcMark, crcSeq_append]
    exact execList_crcByte s _ data

end Sys2Proof.Machine
end

section
/-! PROOF. The additive checksum (43_checksum.md R120 to R126): the end-around-carry sum is associative, with 0 as its
unit and no other way to reach 0; and the ADD commands. -/

namespace Sys2Proof.Machine

/-! ### The end-around-carry sum (R120) -/

/-- The sum either fits, or carries out of bit 15 and takes the carry in at bit 0. -/
theorem eacAdd_toNat_cases (s v : BitVec 16) :
    (s.toNat + v.toNat ≤ 0xFFFF ∧ (eacAdd s v).toNat = s.toNat + v.toNat) ∨
      (0xFFFF < s.toNat + v.toNat ∧ (eacAdd s v).toNat = s.toNat + v.toNat - 0xFFFF) := by
  rw [eacAdd_toNat]
  split
  case isTrue hcarry => exact .inr ⟨hcarry, rfl⟩
  case isFalse hfits => exact .inl ⟨Nat.le_of_not_lt hfits, rfl⟩

theorem eacAdd_zero (s : BitVec 16) : eacAdd s 0#16 = s := by
  apply BitVec.eq_of_toNat_eq
  rw [eacAdd_toNat, BitVec.toNat_zero, Nat.add_zero, if_neg (Nat.not_lt.2 (Nat.le_of_lt_succ s.isLt))]

theorem zero_eacAdd (s : BitVec 16) : eacAdd 0#16 s = s := by
  apply BitVec.eq_of_toNat_eq
  rw [eacAdd_toNat, BitVec.toNat_zero, Nat.zero_add, if_neg (Nat.not_lt.2 (Nat.le_of_lt_succ s.isLt))]

/-- Either way of adding three values counts the same carries, at most two. -/
theorem eacAdd_assoc (s v w : BitVec 16) : eacAdd (eacAdd s v) w = eacAdd s (eacAdd v w) := by
  apply BitVec.eq_of_toNat_eq
  have hsv := eacAdd_toNat_cases s v
  have hvw := eacAdd_toNat_cases v w
  have hleft := eacAdd_toNat_cases (eacAdd s v) w
  have hright := eacAdd_toNat_cases s (eacAdd v w)
  omega

/-- A sum that carries is at least 1, so 0 comes of zeros alone. -/
theorem eacAdd_eq_zero_iff (s v : BitVec 16) : eacAdd s v = 0#16 ↔ s = 0#16 ∧ v = 0#16 := by
  rw [← BitVec.toNat_inj, ← BitVec.toNat_inj, ← BitVec.toNat_inj, BitVec.toNat_zero]
  have hsum := eacAdd_toNat_cases s v
  omega

/-! ### The sum of a sequence (R121, R122) -/

/-- A sum started at `s` is `s` added to the sum started at 0. -/
theorem eacSeq_eq_eacAdd (s : BitVec 16) (bs : List (BitVec 8)) : eacSeq s bs = eacAdd s (eacSeq 0#16 bs) := by
  induction bs generalizing s with
  | nil => exact (eacAdd_zero s).symm
  | cons b bs ih =>
    calc eacSeq (eacAdd s (b.setWidth 16)) bs
        = eacAdd (eacAdd s (b.setWidth 16)) (eacSeq 0#16 bs) := ih _
      _ = eacAdd s (eacAdd (b.setWidth 16) (eacSeq 0#16 bs)) := eacAdd_assoc _ _ _
      _ = eacAdd s (eacSeq 0#16 (b :: bs)) := by rw [← ih, eacSeq_cons, zero_eacAdd]

theorem setWidth_eq_zero_iff (b : BitVec 8) : b.setWidth 16 = 0#16 ↔ b = 0#8 := by
  simp only [← BitVec.toNat_inj, BitVec.toNat_setWidth, BitVec.toNat_zero]
  omega

/-- A running sum is 0 exactly where it started at 0 and every byte was 0. -/
theorem eacSeq_eq_zero_iff (s : BitVec 16) (bs : List (BitVec 8)) :
    eacSeq s bs = 0#16 ↔ s = 0#16 ∧ ∀ b ∈ bs, b = 0#8 := by
  induction bs generalizing s with
  | nil => simp
  | cons b bs ih =>
    rw [eacSeq_cons, ih, eacAdd_eq_zero_iff, setWidth_eq_zero_iff, and_assoc, List.forall_mem_cons]

/-- Settles O60: zeros by the third law; the parts by associativity. -/
theorem endAroundCarryLaws : Obligations.EndAroundCarryLaws := by
  have hzero (x : List (BitVec 8)) : eacSeq 0#16 x = 0#16 ↔ ∀ b ∈ x, b = 0#8 := by
    rw [eacSeq_eq_zero_iff, eq_self, true_and]
  exact ⟨fun k => (hzero _).2 fun _ => List.eq_of_mem_replicate,
    fun x y => by rw [eacSeq_append, eacSeq_eq_eacAdd], hzero⟩

/-! ### The ADD commands (R123 to R126) -/

theorem exec_addInit (s : State) : exec .addInit s = .next (s.setSum 0#16) := rfl

theorem exec_addByte (b : BitVec 8) (s : State) :
    exec (.addByte b) s = .next (s.setSum (eacAdd s.sum (b.setWidth 16))) := rfl

theorem exec_addWord (w : BitVec 16) (s : State) : exec (.addWord w) s = .next (s.setSum (eacAdd s.sum w)) := rfl

/-- The sum as R120 writes it out. -/
theorem eacAdd_eq_of_toNat {s v t : BitVec 16}
    (h : t.toNat = if s.toNat + v.toNat > 0xFFFF then s.toNat + v.toNat - 0x10000 + 1 else s.toNat + v.toNat) :
    eacAdd s v = t := by
  apply BitVec.eq_of_toNat_eq
  rw [eacAdd_toNat, h]
  split <;> omega

/-- Settles O59: each command by its equation, with the sum written out. -/
theorem addCommandsUpdateSum : Obligations.AddCommandsUpdateSum := by
  refine ⟨decodeInvertsEncode .addInit, exec_addInit,
    fun b s t ht => ⟨decodeInvertsEncode (.addByte b), ?byte⟩,
    fun w s t ht => ⟨decodeInvertsEncode (.addWord w), ?word⟩,
    fun w s => ⟨decodeInvertsEncode (.addCheck w), congrArg Host.Outcome.next (s.answerBool_beq s.sum w)⟩⟩
  case byte =>
    have hb : (b.setWidth 16).toNat = b.toNat := BitVec.toNat_setWidth_of_le (by decide)
    rw [exec_addByte, eacAdd_eq_of_toNat (hb.symm ▸ ht)]
    rfl
  case word =>
    rw [exec_addWord, eacAdd_eq_of_toNat ht]
    rfl

end Sys2Proof.Machine
end

section
/-! PROOF. What an answer says about the state (60_exceptions.md R129): a refused command leaves its state as it was,
and a fatal error writes only its unit's phase or state and error register. -/

namespace Sys2Proof.Machine

/-! ### What an answer can be (30_encoding.md R52) -/

/-- The states a command word can lead to: one answered OK, the state before with a refusal, or the state before with
one unit in FATAL. -/
inductive State.Answered (s : State) : State → Prop
  | ok {s' : State} {d : Word} (h : s'.resp = some ⟨.ok, d⟩) : s.Answered s'
  | illegal : s.Answered (s.refuse .illegal)
  | badarg : s.Answered (s.refuse .badarg)
  | seq : s.Answered (s.refuse .seq)
  | failTape (k : ErrKind) : s.Answered (s.failTape k)
  | failFloppy (k : ErrKind) : s.Answered (s.failFloppy k)

/-- A decode is refused, or fatal, or answered OK. -/
theorem State.runDecode_answered {s s' : State} {n : Nat} {finish : MfmOut → FloppyRegs → FloppyRegs}
    (h : s.runDecode n finish = .next s') : s.Answered s' := by
  rcases State.runDecode_next h with ⟨rfl, -⟩ | ⟨-, -, rfl⟩ | ⟨-, _, -, rfl⟩
  · exact .seq
  · exact .failFloppy _
  · exact .ok rfl

/-- Every command that leads to a next state is refused, or fatal, or answered OK. -/
theorem exec_answered {i : Instr} {s s' : State} (h : exec i s = .next s') : s.Answered s' := by
  cases i
  case rdreg r =>
    rw [exec, execRdreg] at h
    split at h <;> cases h
    · exact .ok rfl
    · exact .badarg
  case wrcfg ci val =>
    rw [exec, execWrcfg] at h
    split at h <;> cases h
    · exact .ok rfl
    · exact .badarg
  case memrd sp a =>
    rw [exec, execMemrd] at h
    repeat' split at h
    all_goals cases h
    · exact .badarg
    · exact .badarg
    · exact .ok rfl
  case tpPulse v =>
    rcases execTpPulse_next v s s' h with
      ⟨rfl, -⟩ | ⟨rfl, -⟩ | ⟨rfl, -⟩ | ⟨-, -, -, -, ⟨_, -, rfl⟩ | ⟨k, -, rfl⟩⟩
    · exact .badarg
    · exact .seq
    · exact .ok rfl
    · exact .ok rfl
    · exact .failTape k
  case tpEnd =>
    rw [exec] at h
    rcases execTpEnd_cases s with ⟨-, h'⟩ | ⟨-, h'⟩ | ⟨-, h'⟩ | ⟨-, -, -, -, h'⟩ <;> rw [h'] at h <;> cases h
    · exact .seq
    · exact .ok rfl
    · exact .failTape _
    · exact .failTape _
  case flPush v =>
    rw [exec] at h
    rcases execFlPush_cases v s with ⟨-, h'⟩ | ⟨-, -, h'⟩ | ⟨-, -, h'⟩ | ⟨-, -, -, h'⟩ <;> rw [h'] at h <;> cases h
    · exact .badarg
    · exact .seq
    · exact .ok rfl
  case flEst =>
    rw [exec] at h
    rcases execFlEst_cases s with ⟨-, h'⟩ | ⟨-, -, h'⟩ | ⟨-, -, ⟨_, h'⟩ | ⟨_, -, ⟨-, h'⟩ | ⟨_, _, -, h'⟩⟩⟩ <;>
      rw [h'] at h <;> cases h
    · exact .seq
    · exact .ok rfl
    · exact .failFloppy _
    · exact .ok rfl
  case flFind =>
    rw [exec] at h
    rcases execFlFind_cases s with ⟨-, h'⟩ | ⟨-, -, ⟨_, h'⟩ | ⟨_, -, h'⟩⟩ <;> rw [h'] at h <;> cases h
    · exact .seq
    · exact .ok rfl
  case flSetpos p =>
    rw [exec, execFlSetpos] at h
    repeat' split at h
    all_goals cases h
    · exact .badarg
    · exact .seq
    · exact .ok rfl
  case flRead n =>
    rw [exec, execFlRead] at h
    split at h
    · cases h; exact .badarg
    · exact State.runDecode_answered h
  case flHdr => exact State.runDecode_answered h
  case flData z =>
    rw [exec, execFlData] at h
    split at h
    · cases h; exact .badarg
    · exact State.runDecode_answered h
  case nop | reset | tpStart | flClear => cases h; exact .ok rfl
  case crcInit | crcByte | crcMark | crcCheck => cases h; exact .ok rfl
  case addInit | addByte | addWord | addCheck => cases h; exact .ok rfl

/-- A step that takes a word answers it as a command, or ILLEGAL (30_encoding.md R56, R57). -/
theorem step_answered {s s' : State} {c : Word} {cs : List Word} (hp : s.pending = c :: cs) (h : step s = .next s') :
    State.Answered { s with pending := cs } s' := by
  cases hd : decode c with
  | ok i => exact exec_answered ((step_command hp hd).symm.trans h)
  | error e =>
    rw [step_illegal hp hd] at h
    cases h
    exact .illegal

/-! ### What an answer leaves unchanged (R129) -/

/-- A refusal changes only the response. -/
theorem State.Answered.eq_of_refused {s s' : State} {r : Response} (h : s.Answered s') (hr : s'.resp = some r)
    (hcode : r.code = .illegal ∨ r.code = .badarg ∨ r.code = .seq) : s' = { s with resp := some ⟨r.code, 0#32⟩ } := by
  cases h with
  | ok hok =>
    rw [hok] at hr
    cases hr
    simp at hcode
  | illegal | badarg | seq => cases hr; rfl
  | failTape | failFloppy => cases hr; simp at hcode

/-- A fatal error changes only one unit's phase or state, its error register and the response. -/
theorem State.Answered.eq_of_fatal {s s' : State} {r : Response} (h : s.Answered s') (hr : s'.resp = some r)
    (hcode : r.code = .fatal) : ∃ k,
      s' = { s with tape := { s.tape with phase := .fatal, err := k }, resp := some r } ∨
      s' = { s with floppy := { s.floppy with mode := .fatal, err := k }, resp := some r } := by
  cases h with
  | ok hok =>
    rw [hok] at hr
    cases hr
    cases hcode
  | illegal | badarg | seq => cases hr; cases hcode
  | failTape k => cases hr; exact ⟨k, .inl rfl⟩
  | failFloppy k => cases hr; exact ⟨k, .inr rfl⟩

/-- Settles O13: what the answer to the word taken says about the state before. -/
theorem refusedCommandsChangeNothing : Obligations.RefusedCommandsChangeNothing := by
  intro s s' c cs r hp h hr
  have hanswer := step_answered hp h
  exact ⟨hanswer.eq_of_refused hr, hanswer.eq_of_fatal hr⟩

end Sys2Proof.Machine
end

section
/-! PROOF. Power-on (70_reset_and_hazards.md R143): the state in which a block begins has both invariants, for every
legal choice of the implementation parameters (00_scope.md R7). -/

namespace Sys2Proof.Machine

/-- A buffer in which nothing has been written is in order while its fill count is 0 (20_memory.md R36). -/
theorem Memory.holds_nil (w size : Nat) : Memory.Holds ([] : Memory w) 0 size where
  form := .nil
  within := by simp
  fits := Nat.zero_le size
  filled := by simp

/-- At power-on every fill count is 0 and every buffer is unwritten. -/
theorem State.buffersHold_powerOn (p : Params) : (State.powerOn p).BuffersHold where
  tb := Memory.holds_nil 8 _
  hb := Memory.holds_nil 8 _
  fb := Memory.holds_nil 8 _
  fom := Memory.holds_nil 8 _
  fm := Memory.holds_nil 24 _

theorem State.inv_powerOn {p : Params} (h : p.legal = true) : (State.powerOn p).Inv where
  params := h
  cfg := ConfigRegs.legal_reset h
  tape := TapeRegs.inv_reset
  floppy := FloppyRegs.inv_reset
  buffers := State.buffersHold_powerOn p
  flux := by simp [State.powerOn]

/-- At power-on no read has begun: the record has no body byte and no header. -/
theorem State.recordInv_powerOn (p : Params) : (State.powerOn p).RecordInv := State.recordInv_empty rfl rfl rfl

/-- The model's choice of the OPEN parameters is a legal one (logs 3, 4). -/
theorem Params.legal_default : Params.default.legal = true := by decide

/-- Settles O10: both invariants hold at power-on, and `State.reset` is the power-on state of legal parameters. -/
theorem powerOnSatisfiesInvariants : Obligations.PowerOnSatisfiesInvariants :=
  ⟨fun p h => ⟨State.inv_powerOn h, State.recordInv_powerOn p⟩, State.inv_powerOn Params.legal_default,
    State.recordInv_powerOn Params.default⟩

end Sys2Proof.Machine
end
